-- ==== Sys2Proof/Word.lean ====
section
/-! DEFINITION. The sizes of data the spec names (00_scope R12): byte, halfword or pixel, word. -/

namespace Sys2Proof

/-- One byte of video memory (20_memory R60). -/
abbrev Byte := BitVec 8

/-- A halfword, which is also a pixel (00_scope R12). -/
abbrev Half := BitVec 16

/-- A word: a command word, an operand word, a register container (00_scope R12). -/
abbrev Word := BitVec 32

end Sys2Proof
end

