-- ==== Sys2Proof/Config.lean ====
section
/-! DEFINITION. The implementation parameters of 00_scope R11 as one record of plain data, and the free values.
The OPEN and the decided parameters are fields of `Config`; State carries one `Config` that no step changes, so a
statement about every state is a statement about every value of every parameter. The spec's reference values are in
Machine/Reference.lean. -/

namespace Sys2Proof

/-- The twenty-one stored register-file fields (10_state R24 to R45). -/
inductive Field where
  | dlSrc | dlCnt | dlReq
  | hTotal | hDisp | hBound | hSpos | hSwid | vTotal | vSpos | vSwid | vDisp
  | irqStat | irqMask
  | fbBase | fbXres | fgCol | bgCol
  | clMode | clAddr | dispEn
deriving DecidableEq, Repr

/-- The bits each field has room for; `IRQ_WIDTH` may leave the two interrupt registers fewer (10_state R24 to R45). -/
def Field.width : Field → Nat
  | .dlSrc => 24 | .dlCnt => 24 | .dlReq => 1
  | .hTotal => 12 | .hDisp => 12 | .hBound => 12 | .hSpos => 12 | .hSwid => 6
  | .vTotal => 12 | .vSpos => 12 | .vSwid => 6 | .vDisp => 12
  | .irqStat => 32 | .irqMask => 32
  | .fbBase => 26 | .fbXres => 12 | .fgCol => 16 | .bgCol => 16
  | .clMode => 32 | .clAddr => 26 | .dispEn => 16

/-- Every field once, in the order of 10_state. -/
def Field.all : List Field :=
  [.dlSrc, .dlCnt, .dlReq, .hTotal, .hDisp, .hBound, .hSpos, .hSwid, .vTotal, .vSpos, .vSwid, .vDisp,
   .irqStat, .irqMask, .fbBase, .fbXres, .fgCol, .bgCol, .clMode, .clAddr, .dispEn]

/-- `BYTE_ORDER` (20_memory R61). -/
inductive ByteOrder where
  | little | big
deriving DecidableEq, Repr

/-- `PAIR_ORDER` (30_encoding R92): which half of a pair word holds the first-named coordinate. -/
inductive PairOrder where
  | firstHigh | firstLow
deriving DecidableEq, Repr

/-- A function from a list of words to a number, as plain data: the words, constants, bit fields, sums, products and
choices. Every function of a fixed number of words is the value of some term (Laws/Terms.lean), so a parameter that the
spec calls a function is a term. -/
inductive WordTerm where
  /-- Word `k` of the list, counted from 1. -/
  | word (k : Nat)
  | num (n : Nat)
  /-- Bits `[lo + width - 1 : lo]` of a value. -/
  | bits (lo width : Nat) (t : WordTerm)
  | add (a b : WordTerm)
  | mul (a b : WordTerm)
  /-- `t` where `a` and `b` have the same value, else `e`. -/
  | ifEq (a b t e : WordTerm)
deriving DecidableEq, Repr

/-- `BLT_DECODE` (30_encoding R94): the function of W1 to W7 that gives each of the ten quantities. -/
structure BltLayout where
  srcAddr   : WordTerm
  srcStride : WordTerm
  srcX      : WordTerm
  srcY      : WordTerm
  dstAddr   : WordTerm
  dstStride : WordTerm
  dstX      : WordTerm
  dstY      : WordTerm
  sizeX     : WordTerm
  sizeY     : WordTerm
deriving DecidableEq, Repr

/-- `CL_DERIVE` (10_state R43): functions of `CL_MODE` for the 12-bit height, the width in units of 64 pixels, and the
colour-depth flag. -/
structure ClLayout where
  height : WordTerm
  width  : WordTerm
  depth  : WordTerm
deriving DecidableEq, Repr

/-- `PIXEL_FORMAT` (46_compositor_scanout R253): functions of a pixel for the three 5-bit channels. -/
structure PixelFormat where
  red   : WordTerm
  green : WordTerm
  blue  : WordTerm
deriving DecidableEq, Repr

/-- `VRAM_POLICY` (20_memory R64): "There is no wrapping and no clamping", so the fault is the one policy the spec gives
a meaning. -/
inductive VramPolicy where
  | fault
deriving DecidableEq, Repr

/-- `UNMAPPED_READ` (20_memory R68): "a free draw", the one reading the spec gives. -/
inductive UnmappedRead where
  | anyValue
deriving DecidableEq, Repr

/-- `UNMAPPED_WRITE` (20_memory R68): "ignored", the one reading the spec gives. -/
inductive UnmappedWrite where
  | ignored
deriving DecidableEq, Repr

/-- `NESTED_REQ` (42_list_processor R178): the spec's reading, one cursor shared by nested passes, and the reading
it set aside (92_eei_decisions D15, 95_test_vectors P5), a cursor saved and restored around the inner pass. -/
inductive NestedReq where
  | sharedCursor | savedCursor
deriving DecidableEq, Repr

/-- One entry of `REGMAP` (20_memory R67): `field` occupies bits `[pos + width - 1 : pos]` of the container at
offset `off`. -/
structure RegEntry where
  off   : Nat
  field : Field
  pos   : Nat
deriving DecidableEq, Repr

/-- The parameters of 00_scope R11 that are OPEN or decided, one field each. -/
structure Config where
  /-- `VRAM_SIZE` in bytes: OPEN. -/
  vramSize      : Nat
  /-- `VRAM_POLICY`: what an access out of range does (20_memory R64). -/
  vramPolicy    : VramPolicy
  /-- `REGMAP`: OPEN (20_memory R67); entries of one container in increasing `pos`. -/
  regmap        : List RegEntry
  /-- `REQ_BIT`: the bit of the `DL_REQ` field's place in its container that is the flag (10_state R26). -/
  reqBit        : Nat
  /-- `UNMAPPED_READ`: what a read finds where no field is (20_memory R68). -/
  unmappedRead  : UnmappedRead
  /-- `UNMAPPED_WRITE`: what a write does where no field is (20_memory R68). -/
  unmappedWrite : UnmappedWrite
  /-- `IRQ_WIDTH`: the width of `IRQ_STAT` and `IRQ_MASK`, at most a container's (10_state R36, R37). -/
  irqWidth      : Nat
  /-- `IST_VSYNC_BIT`: OPEN, below `IRQ_WIDTH` (60_exceptions R272). -/
  istVsyncBit   : Fin 32
  /-- `IST_CEND_BIT`: OPEN, below `IRQ_WIDTH` (60_exceptions R272). -/
  istCendBit    : Fin 32
  /-- `VSYNC_LINE` as a function of `V_DISP` (41_crtc_validator R156). -/
  vsyncLine     : WordTerm
  /-- `FRAME_PERIOD`: OPEN (41_crtc_validator R160). -/
  framePeriod   : Nat
  /-- `ZERO_COUNT_SPAN` in bytes (42_list_processor R172). -/
  zeroCountSpan : Nat
  byteOrder     : ByteOrder
  pairOrder     : PairOrder
  bltDecode     : BltLayout
  clDerive      : ClLayout
  pixelFormat   : PixelFormat
  nestedReq     : NestedReq
deriving DecidableEq, Repr

/-- A field in its container, at the place and with the width that the parameters give it: bits `[lo + width - 1 : lo]`
of the container at `off`. -/
structure Slot where
  off   : Nat
  field : Field
  lo    : Nat
  width : Nat
deriving DecidableEq, Repr

/-- FREE VALUE. What the byte at an address holds before anything has written it: "a model treats every byte nothing
has written as holding no known value" (10_state R47, 70 R302). One value per address, since `VRAM` is idempotent
(20_memory R66). Log entry 2. -/
opaque Config.vramInit : Nat → Byte

/-- FREE VALUE. The unspecified bits of the n-th register read (20_memory R68: "a free draw, with no promise that
two reads agree"). Log entry 3. -/
opaque Config.freeWord : Nat → Word

/-- FREE VALUE. The frame period of the reset configuration: the spec gives none, not even a reference value
(41_crtc_validator R160). Log entry 1. -/
opaque Config.freeFramePeriod : Nat

end Sys2Proof
end

