-- ==== Sys2Proof/Syntax.lean ====
section
/-! DEFINITION. The command set (30_encoding): one constructor of `Instr` per row of opcode_table.json. An `Instr` is
a command WORD with every bit it does not fix, ignored bits among them (R99), so that encoding loses nothing; operand
words are read from video memory when the command runs (42_list_processor R174). `Command` is a whole command
(00_scope glossary: "one command word plus its operand words"); `Asm` is the assembler syntax of R101. -/

namespace Sys2Proof

/-- A command word (30_encoding R90, R91). -/
inductive Instr where
  /-- 0x09 / 0x41 (43_pixel_ops R190). -/
  | rectFill (imm16 : Half)
  /-- 0x09 / 0xE2 (43_pixel_ops R191). -/
  | rectMark (imm16 : Half)
  /-- 0x09 / any other (43_pixel_ops R192). -/
  | rectOther (opCommand : Byte) (imm16 : Half)
  /-- 0x0F (43_pixel_ops R193). -/
  | bltcopy (opCommand : Byte) (imm16 : Half)
  /-- 0x20 (44_noop_geometry_ops R210). -/
  | nop (opCommand : Byte) (imm16 : Half)
  /-- 0x40 (44_noop_geometry_ops R211). -/
  | init (opCommand : Byte) (imm16 : Half)
  /-- 0x41 (44_noop_geometry_ops R212). -/
  | viewport (opCommand : Byte) (imm16 : Half)
  /-- 0x42 (44_noop_geometry_ops R213). -/
  | depthrange (opCommand : Byte) (imm16 : Half)
  /-- 0x44 (44_noop_geometry_ops R214). -/
  | xyclip (opCommand : Byte) (imm16 : Half)
  /-- 0x45 (44_noop_geometry_ops R215). -/
  | zclip (opCommand : Byte) (imm16 : Half)
  /-- 0xF0 / 0xC1 (45_control_ops R230). -/
  | drawCommit (imm16 : Half)
  /-- 0xF0 / 0xC2 (45_control_ops R231). -/
  | drawC2 (imm16 : Half)
  /-- 0xF0 / 0xE1 (45_control_ops R232). -/
  | drawE1 (imm16 : Half)
  /-- 0xF0 / any other (45_control_ops R233). -/
  | drawOther (opCommand : Byte) (imm16 : Half)
  /-- 0xF1; `opCommand` is the number of value words (45_control_ops R234). -/
  | setreg (opCommand : Byte) (imm16 : Half)
  /-- 0xFD (45_control_ops R235). -/
  | interrupt (opCommand : Byte) (imm16 : Half)
  /-- Any of the other 245 types (44_noop_geometry_ops R216). -/
  | unknown (opType : Byte) (opCommand : Byte) (imm16 : Half)
deriving DecidableEq, Repr

/-- A whole command: its command word and the operand words that follow it. -/
structure Command where
  instr    : Instr
  operands : List Word
deriving DecidableEq, Repr

/-- The assembler syntax of 30_encoding R101; `.word v` is the only pseudo-instruction (R102). -/
inductive Asm where
  | rectFill (yStart xStart sizeY sizeX : Half)
  | rectMark (yStart xStart sizeY sizeX : Half)
  | rectOther (cmd : Byte) (w1 w2 : Word)
  | bltcopy (cmd : Byte) (srcAddr srcStride : Word) (srcY srcX : Half) (dstAddr dstStride : Word)
      (dstY dstX sizeY sizeX : Half)
  | nop
  | init
  | viewport (w1 w2 w3 w4 : Word)
  | depthrange (w1 w2 : Word)
  | xyclip (w1 w2 w3 w4 : Word)
  | zclip (w1 w2 : Word)
  | drawCommit
  | drawC2
  | drawE1
  | drawOther (cmd : Byte)
  | setreg (reg : Half) (values : List Word)
  | interrupt
  | word (v : Word)
deriving DecidableEq, Repr

end Sys2Proof
end

