-- ==== Sys2Proof/WellFormed.lean ====
section
/-! DEFINITION. What the catch-all constructors may not hold (30_encoding R91, R97: an earlier row of the table
matches first), and the conditions 20_memory R67 and 60_exceptions R272 put on the parameters. -/

namespace Sys2Proof

/-- The eleven `op_type` values of 30_encoding R91 that are not UNKNOWN. -/
def knownTypes : List Byte := [0x09, 0x0F, 0x20, 0x40, 0x41, 0x42, 0x44, 0x45, 0xF0, 0xF1, 0xFD]

/-- A catch-all constructor holds no value that an earlier row of the opcode table takes. -/
def Instr.wellFormed : Instr → Bool
  | .rectOther c _ => c != 0x41 && c != 0xE2
  | .drawOther c _ => c != 0xC1 && c != 0xC2 && c != 0xE1
  | .unknown t _ _ => !knownTypes.contains t
  | .rectFill _ | .rectMark _ | .bltcopy _ _ | .nop _ _ | .init _ _ | .viewport _ _ | .depthrange _ _
  | .xyclip _ _ | .zclip _ _ | .drawCommit _ | .drawC2 _ | .drawE1 _ | .setreg _ _ | .interrupt _ _ => true

/-- The width of a field under the parameters (10_state R24 to R45). -/
def Config.widthOf (c : Config) (f : Field) : Nat :=
  match f with
  | .irqStat | .irqMask => c.irqWidth
  | .dlSrc | .dlCnt | .dlReq | .hTotal | .hDisp | .hBound | .hSpos | .hSwid | .vTotal | .vSpos | .vSwid | .vDisp
  | .fbBase | .fbXres | .fgCol | .bgCol | .clMode | .clAddr | .dispEn => f.width

/-- Where the parameters put an entry of `REGMAP`: the request flag is bit `REQ_BIT` of its field's place. -/
def Config.slotOf (c : Config) (e : RegEntry) : Slot :=
  ⟨e.off, e.field, if e.field = .dlReq then e.pos + c.reqBit else e.pos, c.widthOf e.field⟩

/-- `REGMAP` under the other parameters. -/
def Config.slots (c : Config) : List Slot := c.regmap.map c.slotOf

/-- Two slots of one container do not overlap, and the list has the lower one first (20_memory R67). -/
def Slot.before (a b : Slot) : Bool := a.off != b.off || a.lo + a.width ≤ b.lo

/-- Every slot of the list stands before every later one of its container. -/
def slotsOrdered : List Slot → Bool
  | [] => true
  | e :: es => es.all e.before && slotsOrdered es

/-- 20_memory R67: `REGMAP` maps every stored field exactly once, keeps every field inside one container, and does
not overlap fields; an offset is a multiple of 4. -/
def slotsWellFormed (m : List Slot) : Bool :=
  m.length == Field.all.length &&
  Field.all.all (fun f => m.any (fun e => e.field == f)) &&
  m.all (fun e => e.off % 4 == 0 && e.lo + e.width ≤ 32) &&
  slotsOrdered m

/-- The conditions the spec puts on the parameters: on `REGMAP` as above, and two different status bits below
`IRQ_WIDTH` (60_exceptions R272). -/
def Config.wellFormed (c : Config) : Bool :=
  slotsWellFormed c.slots && c.istVsyncBit != c.istCendBit && decide (c.istVsyncBit.val < c.irqWidth) &&
    decide (c.istCendBit.val < c.irqWidth)

end Sys2Proof
end

