-- ==== Sys2Proof/Decode.lean ====
section
/-! DEFINITION. The command decoder and its encoder (30_encoding R90 to R101), byte order (20_memory R61), the opcode
table as data, and the assembler. -/

namespace Sys2Proof

/-! ### Byte order -/

/-- The number whose bytes are `bs`, the least significant first. -/
def joinLittle : List Byte → Nat
  | [] => 0
  | b :: bs => b.toNat + 256 * joinLittle bs

/-- The number held by the bytes `bs`, lowest address first, in byte order `o` (20_memory R61, R62). -/
def joinBytes (o : ByteOrder) (bs : List Byte) : Nat :=
  match o with
  | .little => joinLittle bs
  | .big => joinLittle bs.reverse

/-- The `n` low bytes of `v`, the least significant first. -/
def splitLittle : Nat → Nat → List Byte
  | 0, _ => []
  | n + 1, v => BitVec.ofNat 8 v :: splitLittle n (v / 256)

/-- The `n` low bytes of `v`, lowest address first, in byte order `o` (20_memory R61, R62). -/
def splitBytes (o : ByteOrder) (n v : Nat) : List Byte :=
  match o with
  | .little => splitLittle n v
  | .big => (splitLittle n v).reverse

/-! ### The command word -/

/-- Bits [31:24] (30_encoding R90). -/
def opTypeOf (cw : Word) : Byte := cw.extractLsb' 24 8

/-- Bits [23:16] (30_encoding R90). -/
def opCommandOf (cw : Word) : Byte := cw.extractLsb' 16 8

/-- Bits [15:0] (30_encoding R90). -/
def imm16Of (cw : Word) : Half := cw.extractLsb' 0 16

/-- The word with the three given fields. -/
def packWord (t c : Byte) (i : Half) : Word := (t ++ c) ++ i

/-- The decoder: total, by `op_type` first and then, for 0x09 and 0xF0 only, by `op_command` (30_encoding R97). -/
def decodeWord (cw : Word) : Instr :=
  let t := opTypeOf cw
  let c := opCommandOf cw
  let i := imm16Of cw
  if t = 0x09 then
    if c = 0x41 then .rectFill i
    else if c = 0xE2 then .rectMark i
    else .rectOther c i
  else if t = 0x0F then .bltcopy c i
  else if t = 0x20 then .nop c i
  else if t = 0x40 then .init c i
  else if t = 0x41 then .viewport c i
  else if t = 0x42 then .depthrange c i
  else if t = 0x44 then .xyclip c i
  else if t = 0x45 then .zclip c i
  else if t = 0xF0 then
    if c = 0xC1 then .drawCommit i
    else if c = 0xC2 then .drawC2 i
    else if c = 0xE1 then .drawE1 i
    else .drawOther c i
  else if t = 0xF1 then .setreg c i
  else if t = 0xFD then .interrupt c i
  else .unknown t c i

/-- `n`, the number of operand words that follow the command word (30_encoding R91, R96). -/
def operandCount : Instr → Nat
  | .rectFill _ => 2
  | .rectMark _ => 2
  | .rectOther _ _ => 2
  | .bltcopy _ _ => 7
  | .nop _ _ => 0
  | .init _ _ => 0
  | .viewport _ _ => 4
  | .depthrange _ _ => 2
  | .xyclip _ _ => 4
  | .zclip _ _ => 2
  | .drawCommit _ => 0
  | .drawC2 _ => 0
  | .drawE1 _ => 0
  | .drawOther _ _ => 0
  | .setreg c _ => c.toNat
  | .interrupt _ _ => 0
  | .unknown _ _ _ => 0

/-- Why a list of bytes is not a command. No word is illegal (30_encoding R98): only bytes can be missing. -/
inductive DecodeError where
  /-- Fewer than the four bytes of a command word. -/
  | noCommandWord
  /-- The command word is there and some of its operand words are not. -/
  | missingOperands (i : Instr)
deriving DecidableEq, Repr

/-- The first word of a list of bytes, with the rest. -/
def takeWord (o : ByteOrder) : List Byte → Option (Word × List Byte)
  | b0 :: b1 :: b2 :: b3 :: rest => some (BitVec.ofNat 32 (joinBytes o [b0, b1, b2, b3]), rest)
  | _ => none

/-- The first `n` words of a list of bytes, with the rest. -/
def takeWords (o : ByteOrder) : Nat → List Byte → Option (List Word × List Byte)
  | 0, bs => some ([], bs)
  | n + 1, bs =>
    match takeWord o bs with
    | none => none
    | some (w, rest) =>
      match takeWords o n rest with
      | none => none
      | some (ws, rest') => some (w :: ws, rest')

/-- The instruction at the head of a list of bytes, with the bytes after its command word. -/
def decodeBytes (o : ByteOrder) (bs : List Byte) : Except DecodeError (Instr × List Byte) :=
  match takeWord o bs with
  | none => .error .noCommandWord
  | some (cw, rest) => .ok (decodeWord cw, rest)

/-- The whole command at the head of a list of bytes, with the bytes after its last operand word. -/
def decodeCommand (o : ByteOrder) (bs : List Byte) : Except DecodeError (Command × List Byte) :=
  match decodeBytes o bs with
  | .error e => .error e
  | .ok (i, rest) =>
    match takeWords o (operandCount i) rest with
    | none => .error (.missingOperands i)
    | some (ws, rest') => .ok (⟨i, ws⟩, rest')

/-! ### The encoder -/

/-- The command word of an instruction, from the encodings of R190 to R193, R210 to R216 and R230 to R235. -/
def encodeWord : Instr → Word
  | .rectFill i => packWord 0x09 0x41 i
  | .rectMark i => packWord 0x09 0xE2 i
  | .rectOther c i => packWord 0x09 c i
  | .bltcopy c i => packWord 0x0F c i
  | .nop c i => packWord 0x20 c i
  | .init c i => packWord 0x40 c i
  | .viewport c i => packWord 0x41 c i
  | .depthrange c i => packWord 0x42 c i
  | .xyclip c i => packWord 0x44 c i
  | .zclip c i => packWord 0x45 c i
  | .drawCommit i => packWord 0xF0 0xC1 i
  | .drawC2 i => packWord 0xF0 0xC2 i
  | .drawE1 i => packWord 0xF0 0xE1 i
  | .drawOther c i => packWord 0xF0 c i
  | .setreg c i => packWord 0xF1 c i
  | .interrupt c i => packWord 0xFD c i
  | .unknown t c i => packWord t c i

/-- The words of a whole command. -/
def encode (c : Command) : List Word := encodeWord c.instr :: c.operands

/-- The four bytes of a word as memory holds them. -/
def wordBytes (o : ByteOrder) (w : Word) : List Byte := splitBytes o 4 w.toNat

/-- The bytes of a list of words as memory holds them. -/
def encodeBytes (o : ByteOrder) : List Word → List Byte
  | [] => []
  | w :: ws => wordBytes o w ++ encodeBytes o ws

/-- A whole command is well formed when its instruction is and it has the operand words its type asks for. -/
def Command.wellFormed (c : Command) : Bool :=
  c.instr.wellFormed && c.operands.length == operandCount c.instr

/-! ### The opcode table -/

/-- A row of opcode_table.json: a command word is the row's when `(cw & mask) = pat` and no earlier row takes it. -/
structure OpcodeRow where
  mnemonic : String
  pat      : Word
  mask     : Word
deriving DecidableEq, Repr

/-- opcode_table.json, in its order (30_encoding R97). -/
def opcodeTable : List OpcodeRow :=
  [⟨"RECT.FILL", 0x09410000, 0xFFFF0000⟩, ⟨"RECT.MARK", 0x09E20000, 0xFFFF0000⟩,
   ⟨"RECT.OTHER", 0x09000000, 0xFF000000⟩, ⟨"BLTCOPY", 0x0F000000, 0xFF000000⟩,
   ⟨"NOP", 0x20000000, 0xFF000000⟩, ⟨"INIT", 0x40000000, 0xFF000000⟩,
   ⟨"VIEWPORT", 0x41000000, 0xFF000000⟩, ⟨"DEPTHRANGE", 0x42000000, 0xFF000000⟩] ++
  [⟨"XYCLIP", 0x44000000, 0xFF000000⟩, ⟨"ZCLIP", 0x45000000, 0xFF000000⟩,
   ⟨"DRAW.COMMIT", 0xF0C10000, 0xFFFF0000⟩, ⟨"DRAW.C2", 0xF0C20000, 0xFFFF0000⟩,
   ⟨"DRAW.E1", 0xF0E10000, 0xFFFF0000⟩, ⟨"DRAW.OTHER", 0xF0000000, 0xFF000000⟩,
   ⟨"SETREG", 0xF1000000, 0xFF000000⟩, ⟨"INTERRUPT", 0xFD000000, 0xFF000000⟩,
   ⟨"UNKNOWN", 0x00000000, 0x00000000⟩]

/-- The table's name of an instruction. -/
def mnemonicOf : Instr → String
  | .rectFill _ => "RECT.FILL"
  | .rectMark _ => "RECT.MARK"
  | .rectOther _ _ => "RECT.OTHER"
  | .bltcopy _ _ => "BLTCOPY"
  | .nop _ _ => "NOP"
  | .init _ _ => "INIT"
  | .viewport _ _ => "VIEWPORT"
  | .depthrange _ _ => "DEPTHRANGE"
  | .xyclip _ _ => "XYCLIP"
  | .zclip _ _ => "ZCLIP"
  | .drawCommit _ => "DRAW.COMMIT"
  | .drawC2 _ => "DRAW.C2"
  | .drawE1 _ => "DRAW.E1"
  | .drawOther _ _ => "DRAW.OTHER"
  | .setreg _ _ => "SETREG"
  | .interrupt _ _ => "INTERRUPT"
  | .unknown _ _ _ => "UNKNOWN"

/-! ### The assembler -/

/-- A pair word of the assembler: first-named coordinate in the high half (30_encoding R101 with R93, R94). -/
def pairWord (first second : Half) : Word := first ++ second

/-- The words of one line of the assembler syntax; ignored fields are 0 (30_encoding R101). -/
def assemble : Asm → List Word
  | .rectFill y x sy sx => [0x09410000, pairWord y x, pairWord sy sx]
  | .rectMark y x sy sx => [0x09E20000, pairWord y x, pairWord sy sx]
  | .rectOther c w1 w2 => [packWord 0x09 c 0, w1, w2]
  | .bltcopy c sa ss sy sx da ds dy dx zy zx =>
    [packWord 0x0F c 0, sa, ss, pairWord sy sx, da, ds, pairWord dy dx, pairWord zy zx]
  | .nop => [0x20000000]
  | .init => [0x40000000]
  | .viewport w1 w2 w3 w4 => [0x41000000, w1, w2, w3, w4]
  | .depthrange w1 w2 => [0x42000000, w1, w2]
  | .xyclip w1 w2 w3 w4 => [0x44000000, w1, w2, w3, w4]
  | .zclip w1 w2 => [0x45000000, w1, w2]
  | .drawCommit => [0xF0C10000]
  | .drawC2 => [0xF0C20000]
  | .drawE1 => [0xF0E10000]
  | .drawOther c => [packWord 0xF0 c 0]
  | .setreg r vs => packWord 0xF1 (BitVec.ofNat 8 vs.length) r :: vs
  | .interrupt => [0xFD000000]
  | .word v => [v]

/-! ### The host's question about a table row -/

/-- The instruction the decoder reads from an instruction whose bits are `w`, bit 0 the least significant of the
command word: the command word is laid out as the hardware stores it (20_memory R61) and given to the decoder. -/
def decodeTableWord (nbits w : Nat) : Option Instr :=
  match decodeBytes .little (splitBytes .little 4 (w % 2 ^ nbits)) with
  | .ok (i, _) => some i
  | .error _ => none

end Sys2Proof
end

