-- ==== Sys2Proof/Machine/Reference.lean ====
section
/-! DEFINITION. The spec's reference values of the parameters of 00_scope R11 and its fixed limits. Reset starts from
them; no definition of the machine reads anything here but through State's configuration, the two fixed limits apart. -/

namespace Sys2Proof.Machine

/-- `H_MIN`, the least horizontal display period (00_scope R11, 41_crtc_validator R152). -/
def hMin : Nat := 320

/-- `V_MIN`, the least vertical display period (00_scope R11, 41_crtc_validator R153). -/
def vMin : Nat := 234

/-- `REGMAP_REF` (20_memory R67). -/
def regmapRef : List RegEntry :=
  [⟨0x0000, .irqStat, 0⟩, ⟨0x0004, .irqMask, 0⟩, ⟨0x0010, .dlSrc, 0⟩, ⟨0x0014, .dlCnt, 0⟩, ⟨0x0018, .dlReq, 0⟩,
   ⟨0x0020, .dispEn, 0⟩, ⟨0x0040, .hTotal, 0⟩, ⟨0x0044, .hDisp, 0⟩, ⟨0x0048, .hBound, 0⟩, ⟨0x004C, .hSpos, 0⟩] ++
  [⟨0x0050, .hSwid, 0⟩, ⟨0x0054, .vTotal, 0⟩, ⟨0x0058, .vSpos, 0⟩, ⟨0x005C, .vSwid, 0⟩, ⟨0x0060, .vDisp, 0⟩,
   ⟨0x0070, .clMode, 0⟩, ⟨0x0074, .clAddr, 0⟩, ⟨0x1000, .fbBase, 0⟩, ⟨0x1004, .fbXres, 0⟩, ⟨0x1008, .fgCol, 0⟩,
   ⟨0x100C, .bgCol, 0⟩]

/-- The reference layout of BLTCOPY's seven words (30_encoding R94). -/
def bltDecodeRef : BltLayout where
  srcAddr := .word 1
  srcStride := .word 2
  srcX := .bits 0 16 (.word 3)
  srcY := .bits 16 16 (.word 3)
  dstAddr := .word 4
  dstStride := .word 5
  dstX := .bits 0 16 (.word 6)
  dstY := .bits 16 16 (.word 6)
  sizeX := .bits 0 16 (.word 7)
  sizeY := .bits 16 16 (.word 7)

/-- The reference derivation of the console-layer values (10_state R43): height [11:0], width [23:16], depth [31]. -/
def clDeriveRef : ClLayout := ⟨.bits 0 12 (.word 1), .bits 16 8 (.word 1), .bits 31 1 (.word 1)⟩

/-- The reference pixel format (46_compositor_scanout R253): red [14:10], green [9:5], blue [4:0]. -/
def pixelFormatRef : PixelFormat := ⟨.bits 10 5 (.word 1), .bits 5 5 (.word 1), .bits 0 5 (.word 1)⟩

/-- `VSYNC_LINE` (41_crtc_validator R156): the line after `V_DISP`. -/
def vsyncLineRef : WordTerm := .add (.word 1) (.num 1)

/-- The reference configuration: the defaults of 00_scope R11 and the conventions of 95_test_vectors for the OPEN
parameters (`VRAM_SIZE` 1 MiB, `IST_VSYNC_BIT` 2, `IST_CEND_BIT` 1, `REGMAP_REF`). DESIGN CHOICE, log entry 1. -/
def refConfig : Config where
  vramSize := 0x100000
  vramPolicy := .fault
  regmap := regmapRef
  reqBit := 0
  unmappedRead := .anyValue
  unmappedWrite := .ignored
  irqWidth := 32
  istVsyncBit := 2
  istCendBit := 1
  vsyncLine := vsyncLineRef
  framePeriod := Config.freeFramePeriod
  zeroCountSpan := 0x1000000
  byteOrder := .little
  pairOrder := .firstHigh
  bltDecode := bltDecodeRef
  clDerive := clDeriveRef
  pixelFormat := pixelFormatRef
  nestedReq := .sharedCursor

end Sys2Proof.Machine
end

