-- ==== Sys2Proof/Machine/State.lean ====
section
/-! DEFINITION. The machine's state as plain data (10_state R20 to R48), what a step can stop with, and reset. -/

namespace Sys2Proof.Machine

/-- The register file: every field at its declared width, so a stored field never holds a wider value (10_state R20,
R24 to R45). -/
structure RegFile where
  dlSrc   : BitVec 24
  dlCnt   : BitVec 24
  dlReq   : BitVec 1
  hTotal  : BitVec 12
  hDisp   : BitVec 12
  hBound  : BitVec 12
  hSpos   : BitVec 12
  hSwid   : BitVec 6
  vTotal  : BitVec 12
  vSpos   : BitVec 12
  vSwid   : BitVec 6
  vDisp   : BitVec 12
  irqStat : BitVec 32
  irqMask : BitVec 32
  fbBase  : BitVec 26
  fbXres  : BitVec 12
  fgCol   : BitVec 16
  bgCol   : BitVec 16
  clMode  : BitVec 32
  clAddr  : BitVec 26
  dispEn  : BitVec 16
deriving DecidableEq, Repr

/-- "RegisterFile is zero-initialized at device reset" (10_state R48, 70 R300). -/
def RegFile.zero : RegFile where
  dlSrc := 0
  dlCnt := 0
  dlReq := 0
  hTotal := 0
  hDisp := 0
  hBound := 0
  hSpos := 0
  hSwid := 0
  vTotal := 0
  vSpos := 0
  vSwid := 0
  vDisp := 0
  irqStat := 0
  irqMask := 0
  fbBase := 0
  fbXres := 0
  fgCol := 0
  bgCol := 0
  clMode := 0
  clAddr := 0
  dispEn := 0

/-- Video memory: the bytes something has written, addresses strictly rising. An address not listed holds the free
byte `Config.vramInit` (10_state R47, 70 R302; log entry 2). -/
abbrev Memory := List Host.Cell

/-- The raster configured by the last successful validation (10_state R46, 41 R155). -/
structure Geometry where
  totalW : Nat
  totalH : Nat
  visW   : Nat
  visH   : Nat
deriving DecidableEq, Repr

/-- An output event (00_scope R8, R9). -/
inductive Event where
  | irqOut (level : Bool)
  | screenConfigure (totalW totalH visX0 visY0 visX1 visY1 framePeriod : Nat)
deriving DecidableEq, Repr

/-- The kinds of video-memory access a fault records (60_exceptions R271). -/
inductive AccessKind where
  | commandFetch | operandFetch | fillWrite | bltRead | bltWrite | commitRead | commitWrite | scanoutRead | hostAccess
deriving DecidableEq, Repr

/-- What the model-level fault records (60_exceptions R271). -/
structure FaultRecord where
  addr : Nat
  n    : Nat
  kind : AccessKind
  pc   : Word
deriving DecidableEq, Repr

/-- One `FieldWrite(f, v, m)` of a container write, `v` and `m` aligned to bit 0 of the field (40 R121, R122). -/
structure PendingWrite where
  field : Field
  value : Word
  mask  : Word
deriving DecidableEq, Repr

/-- A SETREG that an inner pass interrupted: `imm16` and `n` are latched from its command word, `next` is the index of
its next value word (45 R234, 42 R178). -/
structure SetregRest where
  imm16 : Half
  n     : Nat
  next  : Nat
deriving DecidableEq, Repr

/-- An active `RunList()` invocation: its own `end_address` (42 R172), the cursor when it started, and what its caller
still has to do after it returns, which is the rest of the container write that set the request flag (40 R121) and,
when a SETREG made that write, the rest of the SETREG (42 R178). -/
structure Pass where
  endAddr : Nat
  savedPc : Word
  writes  : List PendingWrite
  setreg  : Option SetregRest
deriving DecidableEq, Repr

/-- The widths of the video-memory primitives (20_memory R62: `n` in 1, 2, 4). -/
inductive AccessSize where
  | byte | half | word
deriving DecidableEq, Repr

/-- The steps of 00_scope R5, as moves waiting to be served. -/
inductive HostAction where
  /-- `RegWrite(off, data, mask)` (40 R121). -/
  | regWrite (off : Nat) (data mask : Word)
  /-- `RegRead(off, mask)` (40 R120). -/
  | regRead (off : Nat) (mask : Word)
  /-- `VsyncFire` (41 R157). -/
  | vsyncFire
  /-- `Scanout(region)`, coordinates `(px, py)` (46 R252). -/
  | scanout (region : List (Nat × Nat))
  /-- `HostVramRead(addr, n)` (20 R76). -/
  | vramRead (addr : Nat) (size : AccessSize)
  /-- `HostVramWrite(addr, n, v)` (20 R76). -/
  | vramWrite (addr : Nat) (size : AccessSize) (v : Word)
  /-- `Reset` (70 R300). -/
  | reset
deriving DecidableEq, Repr

/-- An output colour: three 5-bit channels (46 R253). -/
structure Color where
  r : BitVec 5
  g : BitVec 5
  b : BitVec 5
deriving DecidableEq, Repr

/-- What a host move returned to the host. -/
inductive Reply where
  | regValue (v : Word)
  | colors (cs : List Color)
  | vramValue (v : Word)
deriving DecidableEq, Repr

/-- The whole state. The last four fields are the MODEL's own (log entries 1, 3, 5). -/
structure State where
  /-- The register file (10_state R24 to R45). -/
  regs       : RegFile
  /-- The display-list cursor (10_state R22). -/
  pc         : Word
  /-- Video memory (10_state R47). -/
  vram       : Memory
  /-- The last validation passed (10_state R46). -/
  crtcValid  : Bool
  /-- The configured raster (10_state R46). -/
  geometry   : Option Geometry
  /-- A vertical-sync event is scheduled (10_state R46). -/
  vsyncArmed : Bool
  /-- The last level sent on the interrupt line (10_state R46). -/
  irqLevel   : Bool
  /-- Everything the block has signalled, oldest first (10_state R46). -/
  trace      : List Event
  /-- The active passes, innermost first, with each one's `end_address` (10_state R46, 42 R171). -/
  passes     : List Pass
  /-- Pass depth (10_state R46). -/
  depth      : Nat
  /-- The sticky fault mark with what it records (10_state R46, 60 R271). -/
  faulted    : Option FaultRecord
  /-- MODEL: the parameters of 00_scope R11; no step changes them. -/
  cfg        : Config
  /-- MODEL: the host's moves and vsync events still to be served, next first. -/
  inputs     : List HostAction
  /-- MODEL: what the host's reads returned, oldest first. -/
  replies    : List Reply
  /-- MODEL: how many free words register reads have drawn. -/
  draws      : Nat
deriving DecidableEq, Repr

/-- Why the machine stops with a fault. -/
inductive Fault where
  /-- `VramRangeFault(addr, n)` (60_exceptions R271), raised by every video-memory access with
  `addr + n > VRAM_SIZE`: command and operand fetch, fill, blit, commit, scanout and host access. SAFE: the chip goes
  on in a way the spec does not say. `after` is the state the step leaves (42 R180): earlier effects done, `faulted`
  set, the interrupted passes gone, and the request flag 1 if there were any. -/
  | vramRange (record : FaultRecord) (after : State)
deriving DecidableEq, Repr

/-- Why the model gives no meaning. -/
inductive Refusal where
  /-- Raised by an arm of `exec` whose instruction has no meaning yet. SAFE. No arm does. -/
  | notModelled (mnemonic : String)
  /-- Raised by the advance that ends a SETREG, where the cursor would reach 2^32. 42 R181 says that it never does, so the
  spec gives that no meaning; only the return of millions of nested SETREGs one into another gets there. SAFE: the model
  stops (log entry 9). -/
  | cursorWraps
deriving DecidableEq, Repr

/-- The initial (power-on) state (10_state R48): registers and cursor 0, hidden state as R301 says, nothing written in
video memory, no event, no fault. The configuration is the reference instance (log entry 1). -/
def State.reset : State where
  regs := .zero
  pc := 0
  vram := []
  crtcValid := false
  geometry := none
  vsyncArmed := false
  irqLevel := false
  trace := []
  passes := []
  depth := 0
  faulted := none
  cfg := refConfig
  inputs := []
  replies := []
  draws := 0

end Sys2Proof.Machine
end

