-- ==== Sys2Proof/Machine/Ops.lean ====
section
/-! DEFINITION. The named operations over video memory and registers, the one model-level fault, and the loops of the
pseudocode (00_scope R13). The block takes no trap and returns from none (60_exceptions R277, R278); `rangeFault` is
the only thing beside a next state that a step can end in. -/

namespace Sys2Proof.Machine

/-- What a meaning or a step answers. -/
abbrev Result := Host.Outcome State Fault Refusal

/-- Go on with the next state, or stop with what stopped. -/
def andThen (o : Result) (k : State → Result) : Result :=
  match o with
  | .next s => k s
  | .fault r => .fault r
  | .refused r => .refused r

/-- The interval `[a, b)`, in increasing order (00_scope R13). -/
def interval (a b : Nat) : List Nat := List.range' a (b - a)

/-- `for v in xs: f v` (00_scope R13), stopping at the first fault. -/
def forEach {α : Type} (xs : List α) (f : α → State → Result) (s : State) : Result :=
  match xs with
  | [] => .next s
  | x :: xs => andThen (f x s) (forEach xs f)

/-! ### Parameters that are functions -/

/-- Bits `[lo + width - 1 : lo]` of a number. -/
def bitsOf (v lo width : Nat) : Nat := v / 2 ^ lo % 2 ^ width

/-- `Wk` of a command whose operand words are `ws`. -/
def operand (ws : List Word) (k : Nat) : Word := ws.getD (k - 1) 0

/-- The value of a term over the words `ws`. -/
def termValue (ws : List Word) : WordTerm → Nat
  | .word k => (operand ws k).toNat
  | .num n => n
  | .bits lo width t => bitsOf (termValue ws t) lo width
  | .add a b => termValue ws a + termValue ws b
  | .mul a b => termValue ws a * termValue ws b
  | .ifEq a b t e => if termValue ws a = termValue ws b then termValue ws t else termValue ws e

/-! ### Registers -/

/-- `ones(w)` as a container value (00_scope R12). -/
def ones (w : Nat) : Word := BitVec.ofNat 32 (2 ^ w - 1)

/-- `x[f]` as a container value (00_scope R13). -/
def RegFile.get (r : RegFile) : Field → Word
  | .dlSrc => r.dlSrc.setWidth 32
  | .dlCnt => r.dlCnt.setWidth 32
  | .dlReq => r.dlReq.setWidth 32
  | .hTotal => r.hTotal.setWidth 32
  | .hDisp => r.hDisp.setWidth 32
  | .hBound => r.hBound.setWidth 32
  | .hSpos => r.hSpos.setWidth 32
  | .hSwid => r.hSwid.setWidth 32
  | .vTotal => r.vTotal.setWidth 32
  | .vSpos => r.vSpos.setWidth 32
  | .vSwid => r.vSwid.setWidth 32
  | .vDisp => r.vDisp.setWidth 32
  | .irqStat => r.irqStat
  | .irqMask => r.irqMask
  | .fbBase => r.fbBase.setWidth 32
  | .fbXres => r.fbXres.setWidth 32
  | .fgCol => r.fgCol.setWidth 32
  | .bgCol => r.bgCol.setWidth 32
  | .clMode => r.clMode
  | .clAddr => r.clAddr.setWidth 32
  | .dispEn => r.dispEn.setWidth 32

/-- `x[f] <- v`, truncated to the field's width (00_scope R13, 10_state R20). -/
def RegFile.put (r : RegFile) (f : Field) (v : Word) : RegFile :=
  match f with
  | .dlSrc => { r with dlSrc := v.setWidth 24 }
  | .dlCnt => { r with dlCnt := v.setWidth 24 }
  | .dlReq => { r with dlReq := v.setWidth 1 }
  | .hTotal => { r with hTotal := v.setWidth 12 }
  | .hDisp => { r with hDisp := v.setWidth 12 }
  | .hBound => { r with hBound := v.setWidth 12 }
  | .hSpos => { r with hSpos := v.setWidth 12 }
  | .hSwid => { r with hSwid := v.setWidth 6 }
  | .vTotal => { r with vTotal := v.setWidth 12 }
  | .vSpos => { r with vSpos := v.setWidth 12 }
  | .vSwid => { r with vSwid := v.setWidth 6 }
  | .vDisp => { r with vDisp := v.setWidth 12 }
  | .irqStat => { r with irqStat := v }
  | .irqMask => { r with irqMask := v }
  | .fbBase => { r with fbBase := v.setWidth 26 }
  | .fbXres => { r with fbXres := v.setWidth 12 }
  | .fgCol => { r with fgCol := v.setWidth 16 }
  | .bgCol => { r with bgCol := v.setWidth 16 }
  | .clMode => { r with clMode := v }
  | .clAddr => { r with clAddr := v.setWidth 26 }
  | .dispEn => { r with dispEn := v.setWidth 16 }

/-- What a field keeps of a written value beyond `put`'s truncation: `IRQ_WIDTH` bits of `IRQ_MASK`. Nothing sets a bit
of `IRQ_STAT` but the two sources, which lie below `IRQ_WIDTH` (10_state R36, R37, 60 R272). -/
def clipField (c : Config) (f : Field) (v : Word) : Word :=
  match f with
  | .irqMask => v &&& ones c.irqWidth
  | .irqStat | .dlSrc | .dlCnt | .dlReq | .hTotal | .hDisp | .hBound | .hSpos | .hSwid | .vTotal | .vSpos | .vSwid
  | .vDisp | .fbBase | .fbXres | .fgCol | .bgCol | .clMode | .clAddr | .dispEn => v

/-- A direct store into a field, with no side effect (00_scope R13). -/
def setField (s : State) (f : Field) (v : Word) : State := { s with regs := s.regs.put f v }

/-- `emit e` (00_scope R13). -/
def emit (s : State) (e : Event) : State := { s with trace := s.trace ++ [e] }

/-! ### Video memory -/

/-- The byte written at an address, if something has written it. -/
def Memory.find : Memory → Nat → Option Byte
  | [], _ => none
  | (x, c) :: m, a => if x = a then some c else Memory.find m a

/-- The byte at an address: what was written last, or the free power-on byte. -/
def Memory.byteAt (m : Memory) (a : Nat) : Byte :=
  match Memory.find m a with
  | some c => c
  | none => Config.vramInit a

/-- Write one byte, keeping the addresses strictly rising. -/
def Memory.put : Memory → Nat → Byte → Memory
  | [], a, b => [(a, b)]
  | (x, c) :: m, a, b =>
    if a < x then (a, b) :: (x, c) :: m
    else if a = x then (a, b) :: m
    else (x, c) :: Memory.put m a b

/-- Write bytes at `a`, `a + 1`, ... -/
def Memory.putBytes : Memory → Nat → List Byte → Memory
  | m, _, [] => m
  | m, a, b :: bs => Memory.put (Memory.putBytes m (a + 1) bs) a b

/-- Every address of the list is above `lo`. -/
def Memory.risesFrom : Nat → Memory → Bool
  | _, [] => true
  | lo, (x, _) :: m => decide (lo < x) && Memory.risesFrom x m

/-- The canonical form of video memory: addresses strictly rising. No entry can equal what an unlisted address reads
as, which is no known value (log entry 2). -/
def Memory.wf : Memory → Bool
  | [] => true
  | (x, _) :: m => Memory.risesFrom x m

/-- The byte of video memory at an address. -/
def vramByte (s : State) (a : Nat) : Byte := Memory.byteAt s.vram a

/-- The `n` bytes from `a`, lowest address first. -/
def vramBytes (s : State) (a n : Nat) : List Byte := (interval a (a + n)).map (vramByte s)

/-- The value of `MemRead(a, n)` when the access is in range (20_memory R62). -/
def loadValue (s : State) (a n : Nat) : Nat := joinBytes s.cfg.byteOrder (vramBytes s a n)

/-- The access `(a, n)` lies inside video memory (20_memory R64). -/
def inRange (s : State) (a n : Nat) : Bool := decide (a + n ≤ s.cfg.vramSize)

/-- What `VramRangeFault(addr, n)` records (60_exceptions R271). -/
def faultRecord (s : State) (kind : AccessKind) (a n : Nat) : FaultRecord := ⟨a, n, kind, s.pc⟩

/-- An access of this kind is made inside a pass. -/
def AccessKind.ofPass : AccessKind → Bool
  | .commandFetch | .operandFetch | .fillWrite | .bltRead | .bltWrite | .commitRead | .commitWrite => true
  | .scanoutRead | .hostAccess => false

/-- The state a fault leaves: everything done so far stays, `faulted` is set, the stopped invocations are gone, the
request flag is 1 where a pass was stopped (42 R180, 70 R319), and the pass depth, which only `RunList()` entry and exit
write, stays (60 R271; log entry 7). -/
def faultState (s : State) (kind : AccessKind) (a n : Nat) : State :=
  { s with
    regs := if kind.ofPass then s.regs.put .dlReq 1 else s.regs, faulted := some (faultRecord s kind a n), passes := [] }

/-- An access out of range, by `VRAM_POLICY`: `raise VramRangeFault(a, n)` (20_memory R64, 60_exceptions R271). -/
def rangeFault (s : State) (kind : AccessKind) (a n : Nat) : Result :=
  match s.cfg.vramPolicy with
  | .fault => .fault (.vramRange (faultRecord s kind a n) (faultState s kind a n))

/-- `v <- MemRead(a, n)`, then `k v` (20_memory R62). -/
def withLoad (s : State) (kind : AccessKind) (a n : Nat) (k : Nat → Result) : Result :=
  if inRange s a n then k (loadValue s a n) else rangeFault s kind a n

/-- The state after `MemWrite(a, n, v)` in range (20_memory R62). -/
def storeValue (s : State) (a n v : Nat) : State :=
  { s with vram := Memory.putBytes s.vram a (splitBytes s.cfg.byteOrder n v) }

/-- `MemWrite(a, n, v)` (20_memory R62). -/
def store (s : State) (kind : AccessKind) (a n v : Nat) : Result :=
  if inRange s a n then .next (storeValue s a n v) else rangeFault s kind a n

/-- One pixel of a copy: `p <- MemRead(src, 2)`, then `MemWrite(dst, 2, p)` (43 R193, 46 R250). -/
def copyPixel (readKind writeKind : AccessKind) (src dst : Nat) (s : State) : Result :=
  withLoad s readKind src 2 fun p => store s writeKind dst 2 p

/-! ### The cursor -/

/-- The cursor advance of a command with `n` operand words: `pc <- pc + (1 + n) * 4` (42_list_processor R175). -/
def advance (s : State) (n : Nat) : State := { s with pc := s.pc + BitVec.ofNat 32 ((1 + n) * 4) }

/-- The advance that ends a SETREG. No other advance follows another one without a fetch below an end address between
them (42_list_processor R178), so it is the one that could reach 2^32, which R181 says the cursor never does. -/
def advanceBelowWrap (s : State) (n : Nat) : Result :=
  if s.pc.toNat + (1 + n) * 4 < 2 ^ 32 then .next (advance s n) else .refused .cursorWraps

/-- `Reset` (70_reset_and_hazards R300, R301): registers, cursor and hidden state by direct stores, with no side effect
and no event; video memory, the output trace and `faulted` stay. -/
def applyReset (s : State) : State :=
  { s with
    regs := .zero, pc := 0, crtcValid := false, geometry := none, vsyncArmed := false, irqLevel := false,
    passes := [], depth := 0 }

end Sys2Proof.Machine
end

