-- ==== Sys2Proof/Machine/Flags.lean ====
section
/-! DEFINITION. The block has no condition codes (10_state R23). Its status-like bits are those of `IRQ_STAT`; this
file holds the interrupt controller that sets, clears and evaluates them (60_exceptions R272 to R279). -/

namespace Sys2Proof.Machine

/-- `(status & mask) != 0` (60_exceptions R273). -/
def irqPending (r : RegFile) : Bool := r.irqStat &&& r.irqMask != 0

/-- `Evaluate()` (60_exceptions R273): the level is sent on every call, changed or not. -/
def evaluate (s : State) : State :=
  emit { s with irqLevel := irqPending s.regs } (.irqOut (irqPending s.regs))

/-- Set one status bit, whatever the mask holds, then `Evaluate()` (41 R157, 45 R235). -/
def raiseStatus (s : State) (bit : Fin 32) : State :=
  evaluate (setField s .irqStat (s.regs.irqStat ||| BitVec.twoPow 32 bit))

/-- The clear-on-write of `IRQ_STAT`, then `Evaluate()` (40 R125). -/
def clearStatus (s : State) (v m : Word) : State :=
  evaluate (setField s .irqStat (s.regs.irqStat &&& ~~~(v &&& m)))

/-- `VsyncFire` (41 R157): it happens only while the event is armed, and stays armed. -/
def vsyncFire (s : State) : State :=
  if s.vsyncArmed then raiseStatus s s.cfg.istVsyncBit else s

end Sys2Proof.Machine
end

