-- ==== Sys2Proof/Machine/Crtc.lean ====
section
/-! DEFINITION. The CRTC timing validator (41_crtc_validator R150 to R158). -/

namespace Sys2Proof.Machine

/-- The derived timings (41_crtc_validator R151), in natural numbers. -/
structure Timings where
  hb : Nat
  hd : Nat
  hs : Nat
  he : Nat
  ht : Nat
  vd : Nat
  vs : Nat
  ve : Nat
  vt : Nat
deriving DecidableEq, Repr

/-- Periods and positions are register + 1; the sync width enters with the constraint's own + 1 (R151). -/
def timingsOf (r : RegFile) : Timings where
  hb := r.hBound.toNat + 1
  hd := r.hDisp.toNat + 1
  hs := r.hSpos.toNat + 1
  he := r.hSpos.toNat + 1 + r.hSwid.toNat + 1
  ht := r.hTotal.toNat + 1
  vd := r.vDisp.toNat + 1
  vs := r.vSpos.toNat + 1
  ve := r.vSpos.toNat + 1 + r.vSwid.toNat + 1
  vt := r.vTotal.toNat + 1

/-- `HorizOK` (41_crtc_validator R152). -/
def horizOk (t : Timings) : Bool :=
  decide (0 < t.hb) && decide (t.hb ≤ t.hd) && decide (t.hd < t.hs) && decide (t.hs < t.he) && decide (t.he < t.ht) &&
    decide (hMin ≤ t.hd)

/-- `VertOK` (41_crtc_validator R153). -/
def vertOk (t : Timings) : Bool :=
  decide (0 < t.vd) && decide (t.vd ≤ t.vs) && decide (t.vs < t.ve) && decide (t.ve < t.vt) && decide (vMin ≤ t.vd)

/-- Both constraint sets hold (41_crtc_validator R150). -/
def timingOk (r : RegFile) : Bool := horizOk (timingsOf r) && vertOk (timingsOf r)

/-- The geometry a successful validation configures (41_crtc_validator R155). -/
def geometryOf (t : Timings) : Geometry := ⟨t.ht, t.vt, t.hd, t.vd⟩

/-- `VSYNC_LINE`: the scanline the vsync event is scheduled for (41_crtc_validator R156). -/
def vsyncLine (s : State) : Nat := termValue [s.regs.vDisp.setWidth 32] s.cfg.vsyncLine

/-- The scanline of the pending vsync event, if one is scheduled. The schedule itself is the bit `vsync_armed` (R156: the
spec does not model time), and a write of `V_DISP` revalidates, so the line is that of the last validation. -/
def scheduledVsync (s : State) : Option Nat := if s.vsyncArmed then some (vsyncLine s) else none

/-- The event a successful validation emits (41_crtc_validator R155). -/
def configureEvent (t : Timings) (framePeriod : Nat) : Event :=
  .screenConfigure t.ht t.vt 0 0 (t.hd - 1) (t.vd - 1) framePeriod

/-- The failure branch (41_crtc_validator R154): no event, `IRQ_STAT` untouched. -/
def blank (s : State) : State := { s with crtcValid := false, geometry := none, vsyncArmed := false }

/-- The success branch (41_crtc_validator R155). -/
def applyTiming (s : State) : State :=
  emit { s with crtcValid := true, geometry := some (geometryOf (timingsOf s.regs)), vsyncArmed := true }
    (configureEvent (timingsOf s.regs) s.cfg.framePeriod)

/-- `ValidateAndApply()` (41_crtc_validator R150). -/
def validateAndApply (s : State) : State := if timingOk s.regs then applyTiming s else blank s

end Sys2Proof.Machine
end

