-- ==== Sys2Proof/Machine/Operands.lean ====
section
/-! DEFINITION. Operand words and what they hold (30_encoding R92 to R96, 42_list_processor R174). -/

namespace Sys2Proof.Machine

/-- Fetch the operand words with the given indexes, `Wk <- MemRead(pc + 4*k, 4)`, in order, then go on with them
(42_list_processor R174). -/
def withOperandWords (s : State) (ks : List Nat) (k : List Word → Result) : Result :=
  match ks with
  | [] => k []
  | j :: js =>
    withLoad s .operandFetch (s.pc.toNat + 4 * j) 4 fun w =>
      withOperandWords s js fun ws => k (BitVec.ofNat 32 w :: ws)

/-- Fetch `W1 ... Wn`, then go on with them. -/
def withOperands (s : State) (n : Nat) (k : List Word → Result) : Result :=
  withOperandWords s (interval 1 (n + 1)) k

/-- `hi(W)` (30_encoding R92). -/
def hiHalf (w : Word) : Nat := (w.extractLsb' 16 16).toNat

/-- `lo(W)` (30_encoding R92). -/
def loHalf (w : Word) : Nat := (w.extractLsb' 0 16).toNat

/-- The first-named coordinate of a pair word (30_encoding R92, `PAIR_ORDER`). -/
def pairFirst (o : PairOrder) (w : Word) : Nat :=
  match o with
  | .firstHigh => hiHalf w
  | .firstLow => loHalf w

/-- The second-named coordinate of a pair word (30_encoding R92, `PAIR_ORDER`). -/
def pairSecond (o : PairOrder) (w : Word) : Nat :=
  match o with
  | .firstHigh => loHalf w
  | .firstLow => hiHalf w

/-- The operands of the rectangle commands (30_encoding R93). -/
structure Rect where
  yStart : Nat
  xStart : Nat
  sizeY  : Nat
  sizeX  : Nat
deriving DecidableEq, Repr

/-- W1 is y-start/x-start, W2 is size-y/size-x (30_encoding R93). -/
def rectOf (c : Config) (ws : List Word) : Rect where
  yStart := pairFirst c.pairOrder (operand ws 1)
  xStart := pairSecond c.pairOrder (operand ws 1)
  sizeY := pairFirst c.pairOrder (operand ws 2)
  sizeX := pairSecond c.pairOrder (operand ws 2)

/-- The operands of BLTCOPY (30_encoding R94). -/
structure Blit where
  srcAddr   : Nat
  srcStride : Nat
  srcX      : Nat
  srcY      : Nat
  dstAddr   : Nat
  dstStride : Nat
  dstX      : Nat
  dstY      : Nat
  sizeX     : Nat
  sizeY     : Nat
deriving DecidableEq, Repr

/-- `BLT_DECODE(W1, ..., W7)` (30_encoding R94). -/
def blitOf (c : Config) (ws : List Word) : Blit where
  srcAddr := termValue ws c.bltDecode.srcAddr
  srcStride := termValue ws c.bltDecode.srcStride
  srcX := termValue ws c.bltDecode.srcX
  srcY := termValue ws c.bltDecode.srcY
  dstAddr := termValue ws c.bltDecode.dstAddr
  dstStride := termValue ws c.bltDecode.dstStride
  dstX := termValue ws c.bltDecode.dstX
  dstY := termValue ws c.bltDecode.dstY
  sizeX := termValue ws c.bltDecode.sizeX
  sizeY := termValue ws c.bltDecode.sizeY

/-- The address of pixel `(col, row)` of a linear 16-bit buffer: `base + row * pitch * 2 + col * 2` (43 R190, R193,
46 R250, R252). -/
def pixelAddr (base pitch row col : Nat) : Nat := base + row * (pitch * 2) + col * 2

/-- Where BLTCOPY reads pixel `(c, r)` of its block (43_pixel_ops R193). -/
def Blit.srcPixel (b : Blit) (r c : Nat) : Nat := pixelAddr b.srcAddr b.srcStride (b.srcY + r) (b.srcX + c)

/-- Where BLTCOPY writes pixel `(c, r)` of its block (43_pixel_ops R193). -/
def Blit.dstPixel (b : Blit) (r c : Nat) : Nat := pixelAddr b.dstAddr b.dstStride (b.dstY + r) (b.dstX + c)

/-- The address of frame-buffer pixel `(col, row)` (43 R190, 46 R250, R252). -/
def framePixel (s : State) (row col : Nat) : Nat := pixelAddr s.regs.fbBase.toNat s.regs.fbXres.toNat row col

/-! ### The derived console-layer values (10_state R43) -/

/-- `cl_height`. -/
def clHeight (s : State) : Nat := termValue [s.regs.clMode] s.cfg.clDerive.height % 4096

/-- `cl_width`, in pixels, a multiple of 64. -/
def clWidth (s : State) : Nat := termValue [s.regs.clMode] s.cfg.clDerive.width * 64

/-- `cl_depth`. -/
def clDepth (s : State) : Nat := termValue [s.regs.clMode] s.cfg.clDerive.depth % 2

/-- The address of console-layer pixel `(col, row)` (46 R250). -/
def consolePixel (s : State) (row col : Nat) : Nat := pixelAddr s.regs.clAddr.toNat (clWidth s) row col

end Sys2Proof.Machine
end

