-- ==== Sys2Proof/Machine/Compositor.lean ====
section
/-! DEFINITION. The frame compositor and scanout (46_compositor_scanout R250 to R255). -/

namespace Sys2Proof.Machine

/-- `Commit()` (46_compositor_scanout R250, R251): rows and columns are inclusive of `V_DISP` and `H_DISP`; neither
`crtc_valid` nor `DISP_EN` is looked at. -/
def commit (s : State) : Result :=
  forEach (interval 0 (s.regs.vDisp.toNat + 1)) (fun row =>
    forEach (interval 0 (s.regs.hDisp.toNat + 1)) (fun col =>
      copyPixel .commitRead .commitWrite (consolePixel s row col) (framePixel s row col))) s

/-- `BLACK` (46_compositor_scanout R253). -/
def black : Color := ⟨0, 0, 0⟩

/-- `Convert(p)` (46_compositor_scanout R253, `PIXEL_FORMAT`). -/
def convertPixel (f : PixelFormat) (p : Nat) : Color :=
  ⟨BitVec.ofNat 5 (termValue [BitVec.ofNat 32 p] f.red), BitVec.ofNat 5 (termValue [BitVec.ofNat 32 p] f.green),
    BitVec.ofNat 5 (termValue [BitVec.ofNat 32 p] f.blue)⟩

/-- `DISP_EN[15] = 1` and `DISP_EN[3:0] != 0` (10_state R45, 46 R252). -/
def displayEnabled (s : State) : Bool :=
  s.regs.dispEn.extractLsb' 15 1 != 0 && s.regs.dispEn.extractLsb' 0 4 != 0

/-- `Scanout(region)` (46_compositor_scanout R252): the colours, or the address of the first pixel read out of range. -/
def scanout (s : State) : List (Nat × Nat) → Except Nat (List Color)
  | [] => .ok []
  | (px, py) :: rest =>
    if displayEnabled s then
      if inRange s (framePixel s py px) 2 then
        match scanout s rest with
        | .ok cs => .ok (convertPixel s.cfg.pixelFormat (loadValue s (framePixel s py px) 2) :: cs)
        | .error a => .error a
      else .error (framePixel s py px)
    else
      match scanout s rest with
      | .ok cs => .ok (black :: cs)
      | .error a => .error a

/-- The visible area `(0, 0)-(visW - 1, visH - 1)` of a geometry, rows then columns (41 R155). -/
def visibleArea (g : Geometry) : List (Nat × Nat) :=
  (interval 0 g.visH).flatMap fun y => (interval 0 g.visW).map fun x => (x, y)

/-- The colours of a region of the displayed frame (46_compositor_scanout R254): all black, with no read, while
`crtc_valid` is false. -/
def displayed (s : State) (region : List (Nat × Nat)) : Except Nat (List Color) :=
  if s.crtcValid then scanout s region else .ok (region.map fun _ => black)

/-- The displayed frame: the displayed colours of the visible area, none while no raster is configured. -/
def displayedFrame (s : State) : Except Nat (List Color) :=
  match s.geometry with
  | some g => displayed s (visibleArea g)
  | none => .ok []

end Sys2Proof.Machine
end

