-- ==== Sys2Proof/Machine/RegAccess.lean ====
section
/-! DEFINITION. The register-file contract (40_register_access R120 to R130) and the start and end of a display-list
pass (42_list_processor R171, R172, R176), which a write of the request flag invokes. -/

namespace Sys2Proof.Machine

/-! ### Start and end of a pass -/

/-- `end_address` of a pass that starts now (42_list_processor R172). -/
def endAddress (s : State) : Nat :=
  s.regs.dlSrc.toNat + (if s.regs.dlCnt = 0 then s.cfg.zeroCountSpan else s.regs.dlCnt.toNat * 4)

/-- The start of `RunList()` (42_list_processor R171): one level deeper, the cursor at `DL_SRC`, the end address
latched. `writes` and `setreg` are what the caller does when the pass returns. -/
def openPass (writes : List PendingWrite) (setreg : Option SetregRest) (s : State) : State :=
  { s with
    depth := s.depth + 1, pc := s.regs.dlSrc.setWidth 32,
    passes := ⟨endAddress s, s.pc, writes, setreg⟩ :: s.passes }

/-- The cursor a returned pass leaves to its caller: the shared cursor as it stands (42_list_processor R178), or, under
the reading the spec set aside, the caller's own when a SETREG is the caller. -/
def cursorAfterPass (c : Config) (p : Pass) (pc : Word) : Word :=
  match c.nestedReq, p.setreg with
  | .sharedCursor, _ => pc
  | .savedCursor, some _ => p.savedPc
  | .savedCursor, none => pc

/-- The end of the innermost pass `p`, with `rest` the passes around it: the request flag is cleared by a direct store
(42_list_processor R176), the depth drops. -/
def closePass (p : Pass) (rest : List Pass) (s : State) : State :=
  { s with
    regs := s.regs.put .dlReq 0, depth := s.depth - 1, pc := cursorAfterPass s.cfg p s.pc, passes := rest }

/-! ### Writing -/

/-- The masked merge of 40_register_access R122; the store truncates to the width. -/
def mergeField (s : State) (f : Field) (v m : Word) : State :=
  setField s f (clipField s.cfg f ((s.regs.get f &&& ~~~m) ||| (v &&& m)))

/-- `FieldWrite(f, v, m)` (40_register_access R122 to R128) with every side effect but the pass a write of `DL_REQ`
starts, which `runWrites` starts. The nine CRTC fields are validated after the store (R123); `CL_MODE`'s derived values
are functions of the register, so its store is the whole effect (R124). -/
def fieldWrite (w : PendingWrite) (s : State) : State :=
  match w.field with
  | .irqStat => clearStatus s w.value w.mask
  | .irqMask => evaluate (mergeField s w.field w.value w.mask)
  | .hTotal | .hDisp | .hBound | .hSpos | .hSwid | .vTotal | .vSpos | .vSwid | .vDisp =>
    validateAndApply (mergeField s w.field w.value w.mask)
  | .dlSrc | .dlCnt | .dlReq | .fbBase | .fbXres | .fgCol | .bgCol | .clMode | .clAddr | .dispEn =>
    mergeField s w.field w.value w.mask

/-- The write leaves the request flag 1, so it invokes `RunList()` (40_register_access R127: the test is on the stored
value after the merge). `s` is the state after the write. -/
def startsPass (w : PendingWrite) (s : State) : Bool := w.field == .dlReq && s.regs.dlReq == 1

/-- Make the field writes in order. The answer is the state and whether a pass was started; a started pass carries the
writes still to be made, and the SETREG to finish, in its frame. -/
def runWrites : List PendingWrite → Option SetregRest → State → State × Bool
  | [], _, s => (s, false)
  | w :: ws, rest, s =>
    if startsPass w (fieldWrite w s) then (openPass ws rest (fieldWrite w s), true)
    else runWrites ws rest (fieldWrite w s)

/-- The `FieldWrite`s of `RegWrite(off, data, mask)`, in increasing `pos`: a field with no selected bit is skipped, and
an offset with no field gives none (40_register_access R121). -/
def containerWrites (m : List Slot) (off : Nat) (data mask : Word) : List PendingWrite :=
  match m with
  | [] => []
  | e :: es =>
    if e.off = off ∧ (mask >>> e.lo) &&& ones e.width ≠ 0 then
      ⟨e.field, (data >>> e.lo) &&& ones e.width, (mask >>> e.lo) &&& ones e.width⟩ ::
        containerWrites es off data mask
    else containerWrites es off data mask

/-- The `FieldWrite`s of a register write under the parameters: those of the mapped fields, and by `UNMAPPED_WRITE` none
for an offset or for bits where no field is (20_memory R68). -/
def registerWrites (c : Config) (off : Nat) (data mask : Word) : List PendingWrite :=
  match c.unmappedWrite with
  | .ignored => containerWrites c.slots off data mask

/-- `RegWrite(off, data, mask)` by the host (40_register_access R121). -/
def regWrite (off : Nat) (data mask : Word) (s : State) : State :=
  (runWrites (registerWrites s.cfg off data mask) none s).1

/-! ### Reading -/

/-- Lay the mapped fields of a container over the free word `v` (40_register_access R120, 20_memory R68). -/
def overlayFields (r : RegFile) : List Slot → Nat → Word → Word
  | [], _, v => v
  | e :: es, off, v =>
    if e.off = off then
      overlayFields r es off ((v &&& ~~~(ones e.width <<< e.lo)) ||| ((r.get e.field &&& ones e.width) <<< e.lo))
    else overlayFields r es off v

/-- The value `RegRead(off, mask)` returns; the host uses only the bits its mask selects (40_register_access R120). -/
def regReadValue (s : State) (off : Nat) : Word :=
  match s.cfg.unmappedRead with
  | .anyValue => overlayFields s.regs s.cfg.slots off (Config.freeWord s.draws)

/-! ### Accesses of 1, 2 and 4 bytes (20_memory R69)

R69 speaks of an offset that is a multiple of the size. Of any other the lanes at and above it that lie in its container
are the MODEL's choice (DESIGN CHOICE, log entry 19). -/

/-- Bytes moved by an access. -/
def AccessSize.bytes : AccessSize → Nat
  | .byte => 1
  | .half => 2
  | .word => 4

/-- The mask of an access of the given size at byte offset `b`. Where `b` is no multiple of the size: log entry 19. -/
def laneMask (size : AccessSize) (b : Nat) : Word := ones (8 * size.bytes) <<< (8 * (b % 4))

/-- A write of 1, 2 or 4 bytes at byte offset `b` as the container write it stands for (log entry 19). -/
def narrowWrite (size : AccessSize) (b : Nat) (v : Word) : HostAction :=
  .regWrite (b - b % 4) (v <<< (8 * (b % 4))) (laneMask size b)

/-- A read of 1, 2 or 4 bytes at byte offset `b` as the container read it stands for (log entry 19). -/
def narrowRead (size : AccessSize) (b : Nat) : HostAction := .regRead (b - b % 4) (laneMask size b)

end Sys2Proof.Machine
end

