-- ==== Sys2Proof/Machine/Control.lean ====
section
/-! DEFINITION. The control commands (45_control_ops R230 to R235). -/

namespace Sys2Proof.Machine

/-- The container offset of value `i` of a SETREG: `(imm16 << 2) + 4*i` (30_encoding R96, 45_control_ops R234). -/
def setregOffset (imm16 : Half) (i : Nat) : Nat := imm16.toNat * 4 + 4 * i

/-- The value words of a SETREG from the indexes `is` on (45_control_ops R234): each is fetched just before its write,
at the cursor as it stands then (42_list_processor R174). A write that starts an inner pass ends the step; the pass
carries what is left of the SETREG. After the last value the cursor advances (42_list_processor R175). -/
def setregValues (imm16 : Half) (n : Nat) : List Nat → State → Result
  | [], s => advanceBelowWrap s n
  | i :: is, s =>
    withLoad s .operandFetch (s.pc.toNat + 4 + 4 * i) 4 fun v =>
      match runWrites (registerWrites s.cfg (setregOffset imm16 i) (BitVec.ofNat 32 v) (BitVec.allOnes 32))
          (some ⟨imm16, n, i + 1⟩) s with
      | (t, true) => .next t
      | (t, false) => setregValues imm16 n is t

/-- What is left of a SETREG that an inner pass interrupted (42_list_processor R178). -/
def resumeSetreg (r : SetregRest) (s : State) : Result := setregValues r.imm16 r.n (interval r.next r.n) s

/-- The end of the innermost pass and the return into its caller (42_list_processor R176, R178): the remaining writes
of the container write, then the rest of the SETREG if one made it. -/
def finishPass (p : Pass) (rest : List Pass) (s : State) : Result :=
  match runWrites p.writes p.setreg (closePass p rest s) with
  | (t, true) => .next t
  | (t, false) =>
    match p.setreg with
    | none => .next t
    | some r => resumeSetreg r t

/-- DRAW.COMMIT (45_control_ops R230). -/
def execDrawCommit (_imm16 : Half) (s : State) : Result := andThen (commit s) fun t => .next (advance t 0)

/-- DRAW.C2 (45_control_ops R231): decode-only. -/
def execDrawC2 (_imm16 : Half) (s : State) : Result := .next (advance s 0)

/-- DRAW.E1 (45_control_ops R232): decode-only. -/
def execDrawE1 (_imm16 : Half) (s : State) : Result := .next (advance s 0)

/-- DRAW.OTHER (45_control_ops R233): no effect. -/
def execDrawOther (_opCommand : Byte) (_imm16 : Half) (s : State) : Result := .next (advance s 0)

/-- SETREG (45_control_ops R234): `n` and `imm16` are latched from the command word. -/
def execSetreg (opCommand : Byte) (imm16 : Half) (s : State) : Result :=
  setregValues imm16 opCommand.toNat (interval 0 opCommand.toNat) s

/-- INTERRUPT (45_control_ops R235): the command-list-end bit is set whatever the mask holds, then `Evaluate()`. -/
def execInterrupt (_opCommand : Byte) (_imm16 : Half) (s : State) : Result :=
  .next (advance (raiseStatus s s.cfg.istCendBit) 0)

end Sys2Proof.Machine
end

