-- ==== Sys2Proof/Machine/Geometry.lean ====
section
/-! DEFINITION. The no-op, init, decode-only geometry and unknown commands (44_noop_geometry_ops R210 to R216). Their
whole effect is the operand fetch and the cursor advance. -/

namespace Sys2Proof.Machine

/-- NOP (44_noop_geometry_ops R210). -/
def execNop (_opCommand : Byte) (_imm16 : Half) (s : State) : Result := .next (advance s 0)

/-- INIT (44_noop_geometry_ops R211): stubbed, no effect. -/
def execInit (_opCommand : Byte) (_imm16 : Half) (s : State) : Result := .next (advance s 0)

/-- VIEWPORT (44_noop_geometry_ops R212): four operand words fetched and not used. -/
def execViewport (_opCommand : Byte) (_imm16 : Half) (s : State) : Result :=
  withOperands s 4 fun _ => .next (advance s 4)

/-- DEPTHRANGE (44_noop_geometry_ops R213): two operand words fetched and not used. -/
def execDepthrange (_opCommand : Byte) (_imm16 : Half) (s : State) : Result :=
  withOperands s 2 fun _ => .next (advance s 2)

/-- XYCLIP (44_noop_geometry_ops R214): four operand words fetched and not used. -/
def execXyclip (_opCommand : Byte) (_imm16 : Half) (s : State) : Result :=
  withOperands s 4 fun _ => .next (advance s 4)

/-- ZCLIP (44_noop_geometry_ops R215): two operand words fetched and not used. -/
def execZclip (_opCommand : Byte) (_imm16 : Half) (s : State) : Result :=
  withOperands s 2 fun _ => .next (advance s 2)

/-- UNKNOWN (44_noop_geometry_ops R216): one word, no effect. -/
def execUnknown (_opType _opCommand : Byte) (_imm16 : Half) (s : State) : Result := .next (advance s 0)

end Sys2Proof.Machine
end

