-- ==== Sys2Proof/Machine/Pixel.lean ====
section
/-! DEFINITION. The pixel commands (43_pixel_ops R190 to R193). -/

namespace Sys2Proof.Machine

/-- The fill loops of 43_pixel_ops R190: `size_y` and `size_x` are exclusive end coordinates (90_conflicts C1). -/
def fillRect (r : Rect) (s : State) : Result :=
  forEach (interval r.yStart r.sizeY) (fun row =>
    forEach (interval r.xStart r.sizeX) (fun col t =>
      store t .fillWrite (framePixel s row col) 2 s.regs.fgCol.toNat)) s

/-- The copy loops of 43_pixel_ops R193: rows then columns, each pixel read and then written before the next is read. -/
def blitBlock (b : Blit) (s : State) : Result :=
  forEach (interval 0 b.sizeY) (fun r =>
    forEach (interval 0 b.sizeX) (fun c =>
      copyPixel .bltRead .bltWrite (b.srcPixel r c) (b.dstPixel r c))) s

/-- RECT.FILL (43_pixel_ops R190). -/
def execRectFill (_imm16 : Half) (s : State) : Result :=
  withOperands s 2 fun ws => andThen (fillRect (rectOf s.cfg ws) s) fun t => .next (advance t 2)

/-- RECT.MARK (43_pixel_ops R191): the operands are fetched and not used. -/
def execRectMark (_imm16 : Half) (s : State) : Result :=
  withOperands s 2 fun _ => .next (advance s 2)

/-- RECT.OTHER (43_pixel_ops R192): the operands are fetched and not used. -/
def execRectOther (_opCommand : Byte) (_imm16 : Half) (s : State) : Result :=
  withOperands s 2 fun _ => .next (advance s 2)

/-- BLTCOPY (43_pixel_ops R193): every `op_command` behaves the same. -/
def execBltcopy (_opCommand : Byte) (_imm16 : Half) (s : State) : Result :=
  withOperands s 7 fun ws => andThen (blitBlock (blitOf s.cfg ws) s) fun t => .next (advance t 7)

end Sys2Proof.Machine
end

