-- ==== Sys2Proof/Machine/Dispatch.lean ====
section
/-! DEFINITION. One arm per command of the opcode table. -/

namespace Sys2Proof.Machine

def exec (i : Instr) (s : State) : Host.Outcome State Fault Refusal :=
  match i with
  | .rectFill imm16 => Sys2Proof.Machine.execRectFill imm16 s
  | .rectMark imm16 => Sys2Proof.Machine.execRectMark imm16 s
  | .rectOther opCommand imm16 => Sys2Proof.Machine.execRectOther opCommand imm16 s
  | .bltcopy opCommand imm16 => Sys2Proof.Machine.execBltcopy opCommand imm16 s
  | .nop opCommand imm16 => Sys2Proof.Machine.execNop opCommand imm16 s
  | .init opCommand imm16 => Sys2Proof.Machine.execInit opCommand imm16 s
  | .viewport opCommand imm16 => Sys2Proof.Machine.execViewport opCommand imm16 s
  | .depthrange opCommand imm16 => Sys2Proof.Machine.execDepthrange opCommand imm16 s
  | .xyclip opCommand imm16 => Sys2Proof.Machine.execXyclip opCommand imm16 s
  | .zclip opCommand imm16 => Sys2Proof.Machine.execZclip opCommand imm16 s
  | .drawCommit imm16 => Sys2Proof.Machine.execDrawCommit imm16 s
  | .drawC2 imm16 => Sys2Proof.Machine.execDrawC2 imm16 s
  | .drawE1 imm16 => Sys2Proof.Machine.execDrawE1 imm16 s
  | .drawOther opCommand imm16 => Sys2Proof.Machine.execDrawOther opCommand imm16 s
  | .setreg opCommand imm16 => Sys2Proof.Machine.execSetreg opCommand imm16 s
  | .interrupt opCommand imm16 => Sys2Proof.Machine.execInterrupt opCommand imm16 s
  | .unknown opType opCommand imm16 => Sys2Proof.Machine.execUnknown opType opCommand imm16 s

end Sys2Proof.Machine
end

