-- ==== Sys2Proof/Machine/HostSteps.lean ====
section
/-! DEFINITION. The steps of 00_scope R5 that the host, its screen service and the vsync timer perform. -/

namespace Sys2Proof.Machine

/-- Append what a host move returned. -/
def reply (s : State) (r : Reply) : State := { s with replies := s.replies ++ [r] }

/-- `RegRead` (40_register_access R120): no state of the block changes; the model draws a fresh free word. -/
def hostRegRead (off : Nat) (_mask : Word) (s : State) : State :=
  reply { s with draws := s.draws + 1 } (.regValue (regReadValue s off))

/-- `Scanout(region)` (46_compositor_scanout R252): a read out of range leaves the step with no result (60 R271). -/
def hostScanout (region : List (Nat × Nat)) (s : State) : Result :=
  match scanout s region with
  | .ok cs => .next (reply s (.colors cs))
  | .error a => rangeFault s .scanoutRead a 2

/-- `HostVramRead(addr, n)` (20_memory R76). -/
def hostVramRead (addr : Nat) (size : AccessSize) (s : State) : Result :=
  withLoad s .hostAccess addr size.bytes fun v => .next (reply s (.vramValue (BitVec.ofNat 32 v)))

/-- `HostVramWrite(addr, n, v)` (20_memory R76). -/
def hostVramWrite (addr : Nat) (size : AccessSize) (v : Word) (s : State) : Result :=
  store s .hostAccess addr size.bytes v.toNat

/-- One host move, `RegWrite`'s pass only started: its commands are the steps that follow (log entry 4). -/
def hostStep (a : HostAction) (s : State) : Result :=
  match a with
  | .regWrite off data mask => .next (regWrite off data mask s)
  | .regRead off mask => .next (hostRegRead off mask s)
  | .vsyncFire => .next (vsyncFire s)
  | .scanout region => hostScanout region s
  | .vramRead addr size => hostVramRead addr size s
  | .vramWrite addr size v => hostVramWrite addr size v s
  | .reset => .next (applyReset s)

/-- The IDLE block: the next waiting move is served; with none waiting, nothing happens (70 R300: "executes nothing
until the host writes 1 to `DL_REQ`"; log entry 5). -/
def idleStep (s : State) : Result :=
  match s.inputs with
  | [] => .next s
  | a :: rest => hostStep a { s with inputs := rest }

/-- `cw <- MemRead(pc, 4)`, decoded (42_list_processor R171, R173). -/
def withCommand (s : State) (k : Instr → Result) : Result :=
  withLoad s .commandFetch s.pc.toNat 4 fun cw => k (decodeWord (BitVec.ofNat 32 cw))

/-- One turn of the loop of the innermost pass `p`, with `rest` the passes around it (42_list_processor R171, R173, R176):
the test, then the command at the cursor, which `run` gives its meaning, or the end of the pass. -/
def runningStep (run : Instr → State → Result) (p : Pass) (rest : List Pass) (s : State) : Result :=
  if s.pc.toNat < p.endAddr then withCommand s (fun i => run i s) else finishPass p rest s

/-- Words of zeros behind a command word: the operand words an instruction with no given operands has. -/
def zeroOperands (i : Instr) : List Word := List.replicate (operandCount i) 0

/-- The state just after a `RegWrite` of 1 to `DL_REQ` has started a pass over exactly the command with word `w` and
operand words of zeros, stored at `DL_SRC` (log entry 8). -/
def placeCommand (s : State) (w : Word) : State :=
  { s with
    regs := s.regs.put .dlReq 1, pc := s.regs.dlSrc.setWidth 32, depth := 1,
    passes := [⟨s.regs.dlSrc.toNat + 4 * (1 + operandCount (decodeWord w)), s.pc, [], none⟩],
    vram := Memory.putBytes s.vram s.regs.dlSrc.toNat
      (encodeBytes s.cfg.byteOrder (w :: zeroOperands (decodeWord w))) }

end Sys2Proof.Machine
end

