-- ==== Sys2Proof/Machine/Step.lean ====
section
/-! DEFINITION. One step of the machine. While a pass is active (RUNNING, 42_list_processor R170) a step is one turn of
its loop: the test, then the command at the cursor, or the end of the pass; no host move is served (R179). With no
pass active (IDLE) a step serves the host. -/

namespace Sys2Proof.Machine

/-- 42_list_processor R171, R173, R176 and 00_scope R5. -/
def step (s : State) : Host.Outcome State Fault Refusal :=
  match s.passes with
  | [] => idleStep s
  | p :: rest => runningStep exec p rest s

/-- The state whose very next step fetches and runs the instruction with bits `w` and operand words of zeros: the one
that stands for "the host has loaded this list and set the request flag" (log entry 8). -/
def State.withFetchWord (s : State) (nbits w : Nat) : State := placeCommand s (BitVec.ofNat 32 (w % 2 ^ nbits))

end Sys2Proof.Machine
end

