-- ==== Sys2Proof/Machine/RunList.lean ====
section
/-! DEFINITION. `RunList()` as the pseudocode of 42_list_processor R171 writes it, a recursive procedure, under fuel
(70_reset_and_hazards R306: "A model runs `RunList()` under fuel or as a relation"). `step` does the same one command at
a time; this is the text its runs are compared with. -/

namespace Sys2Proof.Machine

/-- The procedures that call each other. -/
inductive Job where
  /-- `RunList()`. -/
  | runList
  /-- Its loop, with its own `end_address`. -/
  | loop (endAddr : Nat)
  /-- SETREG from the value indexes `is` on. -/
  | values (imm16 : Half) (n : Nat) (is : List Nat)
  /-- The field writes of one `RegWrite`. -/
  | writes (ws : List PendingWrite)
deriving DecidableEq, Repr

/-- Go on after a finished call; a call that ran out of fuel, faulted or was refused ends the caller too. -/
def afterJob (o : Option Result) (k : State → Option Result) : Option Result :=
  match o with
  | some (.next s) => k s
  | some (.fault r) => some (.fault r)
  | some (.refused r) => some (.refused r)
  | none => none

/-- One level of `RunList()` entered: depth and cursor (42_list_processor R171). -/
def enterList (s : State) : State := { s with depth := s.depth + 1, pc := s.regs.dlSrc.setWidth 32 }

/-- One level of `RunList()` left: the request flag and the depth (42_list_processor R171, R176). -/
def leaveList (s : State) : State := { s with regs := s.regs.put .dlReq 0, depth := s.depth - 1 }

/-- The procedures, with `none` for "out of fuel". -/
def runJob : Nat → Job → State → Option Result
  | 0, _, _ => none
  | k + 1, .runList, s =>
    afterJob (runJob k (.loop (endAddress s)) (enterList s)) fun t => some (.next (leaveList t))
  | k + 1, .loop e, s =>
    if s.pc.toNat < e then
      if inRange s s.pc.toNat 4 then
        match decodeWord (BitVec.ofNat 32 (loadValue s s.pc.toNat 4)) with
        | .setreg c i =>
          afterJob (runJob k (.values i c.toNat (interval 0 c.toNat)) s) fun t => runJob k (.loop e) t
        | i => afterJob (some (exec i s)) fun t => runJob k (.loop e) t
      else some (rangeFault s .commandFetch s.pc.toNat 4)
    else some (.next s)
  | _ + 1, .values _ n [], s => some (advanceBelowWrap s n)
  | k + 1, .values imm16 n (i :: is), s =>
    if inRange s (s.pc.toNat + 4 + 4 * i) 4 then
      afterJob
        (runJob k (.writes (registerWrites s.cfg (setregOffset imm16 i)
          (BitVec.ofNat 32 (loadValue s (s.pc.toNat + 4 + 4 * i) 4)) (BitVec.allOnes 32))) s)
        fun t => runJob k (.values imm16 n is) t
    else some (rangeFault s .operandFetch (s.pc.toNat + 4 + 4 * i) 4)
  | _ + 1, .writes [], s => some (.next s)
  | k + 1, .writes (w :: ws), s =>
    if startsPass w (fieldWrite w s) then
      afterJob (runJob k .runList (fieldWrite w s)) fun t => runJob k (.writes ws) t
    else runJob k (.writes ws) (fieldWrite w s)

end Sys2Proof.Machine
end

