-- ==== Sys2Proof/Safety.lean ====
section
/-! DEFINITION. What statements about the machine are made of: the invariants, the outcomes of a run
(70_reset_and_hazards R319), and the pixel loops over memory as a function from addresses to bytes. -/

namespace Sys2Proof.Machine

/-! ### Invariants -/

/-- Video memory is in canonical form and lies inside `VRAM_SIZE` (10_state R47). -/
structure MemoryOk (s : State) : Prop where
  sorted : Memory.wf s.vram = true
  inside : ∀ c ∈ s.vram, c.1 < s.cfg.vramSize

/-- The hidden state is the function of the registers that 10_state R49 says it is. -/
structure HiddenDerived (s : State) : Prop where
  valid    : s.crtcValid = timingOk s.regs
  geometry : s.geometry = if timingOk s.regs then some (geometryOf (timingsOf s.regs)) else none
  armed    : s.vsyncArmed = timingOk s.regs
  level    : s.irqLevel = irqPending s.regs

/-- No status bit but the two that have a source is set (10_state R36, 60_exceptions R272). -/
def StatusBitsHaveSource (s : State) : Prop :=
  s.regs.irqStat &&& ~~~(BitVec.twoPow 32 s.cfg.istVsyncBit ||| BitVec.twoPow 32 s.cfg.istCendBit) = 0

/-- No field holds a bit beyond its width (10_state R20, R24 to R45; 40 R122). -/
def RegistersInWidth (s : State) : Prop := ∀ f, s.regs.get f &&& ones (s.cfg.widthOf f) = s.regs.get f

/-- The outermost pass was started by the host, every other one by a SETREG (42_list_processor R170, R178). -/
def framesOk : List Pass → Bool
  | [] => true
  | [p] => p.setreg.isNone
  | p :: q :: rest => p.setreg.isSome && framesOk (q :: rest)

/-- An interrupted SETREG has at most 255 values and has fetched at least one (45_control_ops R234). -/
def Pass.restOk (p : Pass) : Bool :=
  match p.setreg with
  | none => true
  | some r => decide (0 < r.next ∧ r.next ≤ r.n ∧ r.n < 256)

/-- While nothing has faulted: the pass depth counts the active passes, and the request flag of the IDLE block is 0
(10_state R26, R46, 42_list_processor R170). -/
structure PassesOk (s : State) : Prop where
  depth  : s.faulted = none → s.depth = s.passes.length
  idle   : s.faulted = none → s.passes = [] → s.regs.dlReq = 0
  frames : framesOk s.passes = true
  rests  : ∀ p ∈ s.passes, p.restOk = true

/-- What the bound of 42_list_processor R181 on the cursor rests on: the one shared cursor, the end addresses of R172, and
SETREGs of at most 255 values. -/
structure CursorOk (s : State) : Prop where
  shared : s.cfg.nestedReq = .sharedCursor
  span   : s.cfg.zeroCountSpan ≤ 0x3FFFFFC
  ends   : ∀ p ∈ s.passes, p.endAddr ≤ 0xFFFFFF + 0x3FFFFFC
  rests  : ∀ p ∈ s.passes, p.restOk = true

/-- The cursor while at most `depth` passes are nested: R181's bound, with one advance of at most 1024 bytes for every
SETREG that can still return into its caller with no fetch between (42_list_processor R178). -/
def CursorBelow (depth : Nat) (s : State) : Prop :=
  s.pc.toNat + 1024 * s.passes.length < 2 ^ 26 + 2 ^ 24 + 1024 * (depth + 1)

/-- The step from `s` to `t` starts a pass: at the end of the innermost one, or inside it, or from the host; the cursor is
at `DL_SRC` (42_list_processor R171, R178). -/
def PassStarts (s t : State) : Prop :=
  ∃ q around, (around = s.passes ∨ ∃ p, s.passes = p :: around ∧ p.endAddr ≤ s.pc.toNat) ∧
    t.passes = q :: around ∧ q.endAddr = endAddress t ∧ t.regs.dlReq = 1 ∧ t.pc = t.regs.dlSrc.setWidth 32

/-! ### Runs -/

/-- `t` is reached from `s` by steps that each answer a next state. -/
def Reaches (s t : State) : Prop := ∃ k, Sys2Proof.core.run k s = .next t

/-- The run of a list that is active in `s` is completed in `t`: the outermost pass has returned, for the first time
(70_reset_and_hazards R319 a). -/
def Completes (s t : State) : Prop :=
  ∃ k, Sys2Proof.core.run k s = .next t ∧ t.passes = [] ∧
    ∀ j < k, ∃ u, Sys2Proof.core.run j s = .next u ∧ u.passes ≠ []

/-- The run of a list that is active in `s` is stopped by a fault (70_reset_and_hazards R319 b). -/
def StopsWith (s : State) (r : Fault) : Prop :=
  ∃ k, Sys2Proof.core.run k s = .fault r ∧ ∀ j < k, ∃ u, Sys2Proof.core.run j s = .next u ∧ u.passes ≠ []

/-- The run of a list that is active in `s` never ends (70_reset_and_hazards R306, R319 c). -/
def Hangs (s : State) : Prop := ∀ k, ∃ u, Sys2Proof.core.run k s = .next u ∧ u.passes ≠ []

/-- The run of a list that is active in `s` is cut off by the MODEL where the cursor would reach 2^32 (log entry 9). -/
def CutOff (s : State) : Prop :=
  ∃ k, Sys2Proof.core.run k s = .refused .cursorWraps ∧
    ∀ j < k, ∃ u, Sys2Proof.core.run j s = .next u ∧ u.passes ≠ []

/-! ### Shorthand of the statements -/

/-- `MemRead(a, 4)` as a word. -/
def wordAt (s : State) (a : Nat) : Word := BitVec.ofNat 32 (loadValue s a 4)

/-- The operand words `W1 ... Wn` of the command at the cursor (30_encoding R92). -/
def operandWords (s : State) (n : Nat) : List Word := (interval 1 (n + 1)).map fun k => wordAt s (s.pc.toNat + 4 * k)

/-- The operand words `W1 ... Wn` of the command at the cursor lie inside video memory. -/
def OperandsInRange (s : State) (n : Nat) : Prop := ∀ k, 1 ≤ k → k ≤ n → s.pc.toNat + 4 * k + 4 ≤ s.cfg.vramSize

/-- A command with `n` operand words stops at the first operand fetch out of range, with nothing done. -/
def OperandFetchFaults (i : Instr) (n : Nat) (s : State) : Prop :=
  ∀ k, 1 ≤ k → k ≤ n → (∀ j, 1 ≤ j → j < k → s.pc.toNat + 4 * j + 4 ≤ s.cfg.vramSize) →
    s.cfg.vramSize < s.pc.toNat + 4 * k + 4 → exec i s = rangeFault s .operandFetch (s.pc.toNat + 4 * k) 4

/-- The effect of a command that fetches `n` operand words and does nothing with them: the cursor advance alone, or the
fault of the first operand fetch out of range. -/
def FetchesAndSkips (i : Instr) (n : Nat) (s : State) : Prop :=
  (OperandsInRange s n → exec i s = .next { s with pc := s.pc + BitVec.ofNat 32 (4 * (1 + n)) }) ∧
  OperandFetchFaults i n s

/-- The container write `(off, data, mask)` leaves the request flag alone or writes 0 to it. -/
def StartsNothing (m : List Slot) (off : Nat) (data mask : Word) : Prop :=
  ∀ e ∈ m, e.off = off → e.field = .dlReq → data.getLsbD e.lo = false ∨ mask.getLsbD e.lo = false

/-- The container write `(off, _, mask)` selects a bit of the slot (40_register_access R121). -/
def slotSelected (off : Nat) (mask : Word) (e : Slot) : Bool := e.off == off && (mask >>> e.lo) &&& ones e.width != 0

/-- The field write of a selected slot, data and mask aligned to bit 0 of the field (40_register_access R121). -/
def slotWrite (data mask : Word) (e : Slot) : PendingWrite :=
  ⟨e.field, (data >>> e.lo) &&& ones e.width, (mask >>> e.lo) &&& ones e.width⟩

/-- The nine CRTC fields, whose write validates (40_register_access R123). -/
def timingFields : List Field := [.hTotal, .hDisp, .hBound, .hSpos, .hSwid, .vTotal, .vSpos, .vSwid, .vDisp]

/-- The two interrupt fields, whose write evaluates (40_register_access R125, R126). -/
def irqFields : List Field := [.irqStat, .irqMask]

/-- The register writes of SETREG values `i`, for `i` in `is`, one after another (45_control_ops R234). -/
def setregWrites (imm16 : Half) (value : Nat → Word) (is : List Nat) (s : State) : State :=
  is.foldl (fun t i => regWrite (imm16.toNat * 4 + 4 * i) (value i) (BitVec.allOnes 32) t) s

/-- The result of a pixel loop that started in `s` and left memory `m`: a next state that differs in video memory and
in the cursor, or the fault of the first access out of range, with what was written before it, the request flag 1, and
the rest as log entry 7 has it: the passes dropped, the depth kept, the record put in the fault mark. -/
def PixelLoopEnds (o : Result) (s : State) (n : Nat) (e : (Nat → Byte) × Option (AccessKind × Nat)) : Prop :=
  match e.2 with
  | none => ∃ t, o = .next t ∧ t = { s with pc := s.pc + BitVec.ofNat 32 (4 * (1 + n)), vram := t.vram } ∧
      ∀ a, vramByte t a = e.1 a
  | some (kind, addr) => ∃ t, o = .fault (.vramRange ⟨addr, 2, kind, s.pc⟩ t) ∧
      t = { s with
        vram := t.vram, regs := { s.regs with dlReq := 1 }, faulted := some ⟨addr, 2, kind, s.pc⟩, passes := [] } ∧
      ∀ a, vramByte t a = e.1 a

/-! ### Pixel loops over a function from addresses to bytes -/

/-- A memory as a function, with two bytes replaced. -/
def setPair (m : Nat → Byte) (a : Nat) (b0 b1 : Byte) : Nat → Byte :=
  fun x => if x = a then b0 else if x = a + 1 then b1 else m x

/-- Copy pixels one after another, each read whole before it is written, up to the first access that is out of range:
the memory then, and the kind and address of that access if there is one (43_pixel_ops R193, 46 R250). -/
def copyPixels (size : Nat) (readKind writeKind : AccessKind) :
    List (Nat × Nat) → (Nat → Byte) → (Nat → Byte) × Option (AccessKind × Nat)
  | [], m => (m, none)
  | (src, dst) :: ps, m =>
    if size < src + 2 then (m, some (readKind, src))
    else if size < dst + 2 then (m, some (writeKind, dst))
    else copyPixels size readKind writeKind ps (setPair m dst (m src) (m (src + 1)))

/-- Write one pixel value at each address in turn, up to the first that is out of range (43_pixel_ops R190). `b0` is the
byte of the pixel at the lower address. -/
def fillPixels (size : Nat) (b0 b1 : Byte) :
    List Nat → (Nat → Byte) → (Nat → Byte) × Option (AccessKind × Nat)
  | [], m => (m, none)
  | dst :: ps, m =>
    if size < dst + 2 then (m, some (.fillWrite, dst))
    else fillPixels size b0 b1 ps (setPair m dst b0 b1)

/-- The coordinates of rows `[y0, y1)` and columns `[x0, x1)`, rows then columns, both increasing. -/
def gridCells (y0 y1 x0 x1 : Nat) : List (Nat × Nat) :=
  (interval y0 y1).flatMap fun y => (interval x0 x1).map fun x => (y, x)

end Sys2Proof.Machine
end

