-- ==== Sys2Proof/Certificates/Slice0/Obligations.lean ====
section
/-! DEFINITION. The statements for the provers. A docstring names the rule of spec/ a statement formalises, and the log
entry or decision of the spec where a clause rests on one. -/

open Sys2Proof Sys2Proof.Machine

/-! ### Encoding -/

/-- 30_encoding R90, R91: words written out from the encodings of R190 to R193, R210 to R216 and R230 to R235. -/
def Obligations.SpecWordsDecodeToTheirCommands : Prop :=
  decodeWord 0x09410000 = .rectFill 0 ∧ decodeWord 0x09E20000 = .rectMark 0 ∧
  decodeWord 0x09420000 = .rectOther 0x42 0 ∧ decodeWord 0x0F550000 = .bltcopy 0x55 0 ∧
  decodeWord 0x20FFFFFF = .nop 0xFF 0xFFFF ∧ decodeWord 0x40000000 = .init 0 0 ∧
  decodeWord 0x41000000 = .viewport 0 0 ∧ decodeWord 0x42000000 = .depthrange 0 0 ∧
  decodeWord 0x44000000 = .xyclip 0 0 ∧ decodeWord 0x45000000 = .zclip 0 0 ∧
  decodeWord 0xF0C10000 = .drawCommit 0 ∧ decodeWord 0xF0C20000 = .drawC2 0 ∧
  decodeWord 0xF0E10000 = .drawE1 0 ∧ decodeWord 0xF0000000 = .drawOther 0 0 ∧
  decodeWord 0xF1020402 = .setreg 2 0x0402 ∧ decodeWord 0xFD000000 = .interrupt 0 0 ∧
  decodeWord 0x77ABCDEF = .unknown 0x77 0xAB 0xCDEF

/-- 30_encoding R90 to R96: a whole command, written as bytes in either byte order and followed by anything, is read back
with every operand word. -/
def Obligations.CommandBytesRoundTrip : Prop :=
  ∀ (o : ByteOrder) (c : Command) (rest : List Byte), c.wellFormed = true →
    decodeCommand o (encodeBytes o (encode c) ++ rest) = .ok (c, rest)

/-- 30_encoding R97, R98: every word is a well-formed command, and no bit of it is lost. -/
def Obligations.EveryWordIsOneCommand : Prop :=
  ∀ cw : Word, (decodeWord cw).wellFormed = true ∧ encodeWord (decodeWord cw) = cw

/-- 30_encoding R97 with R91's lengths: the first row of the opcode table that matches is the command; its last row is
UNKNOWN; `imm16` never chooses the command, `op_command` only for 0x09 and 0xF0; the length is known from `op_type`, and
for 0xF1 from `op_command`. -/
def Obligations.DecoderTakesFirstTableRow : Prop :=
  (∀ cw : Word, ∃ row, opcodeTable.find? (fun r => cw &&& r.mask == r.pat) = some row ∧
    row.mnemonic = mnemonicOf (decodeWord cw)) ∧
  opcodeTable.getLast? = some ⟨"UNKNOWN", 0, 0⟩ ∧
  (∀ cw cw' : Word, opTypeOf cw = opTypeOf cw' →
    (opCommandOf cw = opCommandOf cw' ∨ (opTypeOf cw ≠ 0x09 ∧ opTypeOf cw ≠ 0xF0) →
      mnemonicOf (decodeWord cw) = mnemonicOf (decodeWord cw')) ∧
    (opTypeOf cw ≠ 0xF1 → operandCount (decodeWord cw) = operandCount (decodeWord cw'))) ∧
  (∀ cw : Word, operandCount (decodeWord cw) =
    if opTypeOf cw = 0x09 then 2 else if opTypeOf cw = 0x0F then 7
    else if opTypeOf cw = 0x41 ∨ opTypeOf cw = 0x44 then 4
    else if opTypeOf cw = 0x42 ∨ opTypeOf cw = 0x45 then 2
    else if opTypeOf cw = 0xF1 then (opCommandOf cw).toNat else 0)

/-! ### The step -/

/-- A step runs the decoded instruction (42_list_processor R173): while a pass is active and the cursor is below its end
address, the step is `exec` of the instruction whose bytes stand at the cursor, with nothing around it. -/
def Obligations.StepRunsTheDecodedCommand : Prop :=
  ∀ (s : State) (p : Pass) (rest : List Pass) (i : Instr) (bs : List Byte), s.passes = p :: rest →
    s.pc.toNat < p.endAddr → s.pc.toNat + 4 ≤ s.cfg.vramSize →
    decodeBytes s.cfg.byteOrder (vramBytes s s.pc.toNat 4) = .ok (i, bs) → step s = exec i s

/-- 42_list_processor R176: at or past the end address the step clears the request flag by a direct store and leaves the
cursor; nothing is signalled. Then the caller goes on: the field writes of the container write still to be made (log entry
27, DEDUCED from 40 R121 and R127), and the rest of the SETREG if one made it (R178, the spec's decision D15). -/
def Obligations.PassEndClearsTheRequest : Prop :=
  ∀ (s : State) (p : Pass) (rest : List Pass), s.passes = p :: rest → p.endAddr ≤ s.pc.toNat →
    s.cfg.nestedReq = .sharedCursor →
    let closed : State := { s with regs := { s.regs with dlReq := 0 }, depth := s.depth - 1, passes := rest }
    (p.writes = [] → p.setreg = none → step s = .next closed) ∧
    (p.writes = [] → ∀ r, p.setreg = some r → step s = resumeSetreg r closed) ∧
    ((runWrites p.writes p.setreg closed).2 = true → step s = .next (runWrites p.writes p.setreg closed).1) ∧
    ((runWrites p.writes p.setreg closed).2 = false → p.setreg = none →
      step s = .next (runWrites p.writes p.setreg closed).1) ∧
    ((runWrites p.writes p.setreg closed).2 = false → ∀ r, p.setreg = some r →
      step s = resumeSetreg r (runWrites p.writes p.setreg closed).1)

/-- MODEL's choices, log entries 5 and 6: the IDLE block with no move waiting stays as it is (70 R300: it "executes
nothing until the host writes 1 to `DL_REQ`"), and a vsync move that finds the event not armed is dropped (41 R157). -/
def Obligations.IdleBlockWaits : Prop :=
  ∀ s : State, s.passes = [] →
    (s.inputs = [] → step s = .next s) ∧
    (∀ rest, s.inputs = .vsyncFire :: rest → s.vsyncArmed = false → step s = .next { s with inputs := rest })

/-- 60_exceptions R270, R271, 42 R180, 70 R319 and the spec's decisions D3, D32: the only fault is `VramRangeFault` of an
access beyond `VRAM_SIZE`; the state it leaves is marked, keeps every event sent so far, and where it stopped a pass its
request flag is 1. That no pass is left running and that the mark holds this record even if there was one before are the
MODEL's choices (log entry 7); so is the one refusal, of a cursor that would reach 2^32 (log entry 9). -/
def Obligations.EveryStopIsARangeFault : Prop :=
  ∀ s : State, (∀ r, step s = .refused r → r = .cursorWraps ∧ s.passes ≠ []) ∧
    ∀ r after, step s = .fault (.vramRange r after) →
      s.cfg.vramSize < r.addr + r.n ∧ after.faulted = some r ∧ after.pc = r.pc ∧ after.passes = [] ∧
      after.cfg = s.cfg ∧ s.trace <+: after.trace ∧
      (s.passes ≠ [] → r.kind.ofPass = true ∧ after.inputs = s.inputs ∧ after.regs.dlReq = 1)

/-- 42_list_processor R179: while a pass is active no host move and no vsync event is served. -/
def Obligations.HostWaitsForThePass : Prop :=
  ∀ s t : State, s.passes ≠ [] → step s = .next t →
    t.inputs = s.inputs ∧ t.replies = s.replies ∧ t.draws = s.draws

/-- 42_list_processor R172, R176, R309 (the spec's inference): the end address of a running pass never changes. With the
cursor below it a step leaves the running passes as they are or starts one inside them; at or past it a step ends the
innermost pass, and may start one in its place. A pass that starts latches its end address from the registers. -/
def Obligations.EndAddressIsLatched : Prop :=
  ∀ (s t : State) (p : Pass) (rest : List Pass), s.passes = p :: rest → step s = .next t →
    (s.pc.toNat < p.endAddr → t.passes = p :: rest ∨
      ∃ q, t.passes = q :: p :: rest ∧ q.endAddr = endAddress t ∧ t.regs.dlReq = 1) ∧
    (p.endAddr ≤ s.pc.toNat → t.passes = rest ∨
      ∃ q, t.passes = q :: rest ∧ q.endAddr = endAddress t ∧ t.regs.dlReq = 1)

/-- 42_list_processor R175: a command that starts no inner pass leaves the cursor `(1 + n) * 4` further on, and so does
the end of an interrupted SETREG, from the cursor the inner pass left. -/
def Obligations.CursorAdvancesByCommandLength : Prop :=
  (∀ (i : Instr) (s t : State), exec i s = .next t → t.passes = s.passes →
    t.pc = s.pc + BitVec.ofNat 32 ((1 + operandCount i) * 4)) ∧
  (∀ (r : SetregRest) (s t : State), resumeSetreg r s = .next t → t.passes = s.passes →
    t.pc = s.pc + BitVec.ofNat 32 ((1 + r.n) * 4))

/-! ### Commands with no effect -/

/-- 44 R210, R211, R216, 45 R231, R232: encoding, no operand words, and no effect but the cursor advance of 4, for every
value of the ignored fields. -/
def Obligations.OneWordCommandsDoNothing : Prop :=
  ∀ (t c : Byte) (i : Half) (s : State),
    (decodeWord (packWord 0x20 c i) = .nop c i ∧ operandCount (.nop c i) = 0 ∧
      exec (.nop c i) s = .next { s with pc := s.pc + 4 }) ∧
    (decodeWord (packWord 0x40 c i) = .init c i ∧ operandCount (.init c i) = 0 ∧
      exec (.init c i) s = .next { s with pc := s.pc + 4 }) ∧
    (decodeWord (packWord 0xF0 0xC2 i) = .drawC2 i ∧ operandCount (.drawC2 i) = 0 ∧
      exec (.drawC2 i) s = .next { s with pc := s.pc + 4 }) ∧
    (decodeWord (packWord 0xF0 0xE1 i) = .drawE1 i ∧ operandCount (.drawE1 i) = 0 ∧
      exec (.drawE1 i) s = .next { s with pc := s.pc + 4 }) ∧
    ((t ∉ knownTypes → decodeWord (packWord t c i) = .unknown t c i) ∧ operandCount (.unknown t c i) = 0 ∧
      exec (.unknown t c i) s = .next { s with pc := s.pc + 4 })

/-- 43 R191, R192, 44 R212 to R215 (that the operand words are read is the spec's decision D29) and 45 R233 (its lack of
an effect is the spec's decision D14): encoding, and the operand words fetched in order and not used: the cursor advance,
or the fault of the first operand fetch out of range. -/
def Obligations.DecodeOnlyCommandsFetchAndSkip : Prop :=
  ∀ (c : Byte) (i : Half) (s : State),
    (decodeWord (packWord 0x09 0xE2 i) = .rectMark i ∧ FetchesAndSkips (.rectMark i) 2 s) ∧
    ((c ≠ 0x41 → c ≠ 0xE2 → decodeWord (packWord 0x09 c i) = .rectOther c i) ∧ FetchesAndSkips (.rectOther c i) 2 s) ∧
    (decodeWord (packWord 0x41 c i) = .viewport c i ∧ FetchesAndSkips (.viewport c i) 4 s) ∧
    (decodeWord (packWord 0x42 c i) = .depthrange c i ∧ FetchesAndSkips (.depthrange c i) 2 s) ∧
    (decodeWord (packWord 0x44 c i) = .xyclip c i ∧ FetchesAndSkips (.xyclip c i) 4 s) ∧
    (decodeWord (packWord 0x45 c i) = .zclip c i ∧ FetchesAndSkips (.zclip c i) 2 s) ∧
    ((c ≠ 0xC1 → c ≠ 0xC2 → c ≠ 0xE1 → decodeWord (packWord 0xF0 c i) = .drawOther c i) ∧
      exec (.drawOther c i) s = .next { s with pc := s.pc + 4 })

/-! ### Pixel commands and the compositor -/

/-- 43 R190 (operand halves by `PAIR_ORDER`, the spec's decision D10): with operands and pixels in range RECT.FILL
completes, every pixel of rows `[y_start, size_y)` and columns `[x_start, size_x)` holds `FG_COL`, every other byte and
everything else but the cursor is unchanged. -/
def Obligations.FillWritesExactlyItsRectangle : Prop :=
  ∀ (imm16 : Half) (s : State) (r : Rect), OperandsInRange s 2 → r = rectOf s.cfg (operandWords s 2) →
    (∀ row col, r.yStart ≤ row → row < r.sizeY → r.xStart ≤ col → col < r.sizeX →
      s.regs.fbBase.toNat + row * (s.regs.fbXres.toNat * 2) + col * 2 + 2 ≤ s.cfg.vramSize) →
    ∃ t, exec (.rectFill imm16) s = .next t ∧ t = { s with pc := s.pc + 12, vram := t.vram } ∧
      (∀ row col, r.yStart ≤ row → row < r.sizeY → r.xStart ≤ col → col < r.sizeX →
        loadValue t (s.regs.fbBase.toNat + row * (s.regs.fbXres.toNat * 2) + col * 2) 2 = s.regs.fgCol.toNat) ∧
      (∀ a, (∀ row col, r.yStart ≤ row → row < r.sizeY → r.xStart ≤ col → col < r.sizeX →
          a < s.regs.fbBase.toNat + row * (s.regs.fbXres.toNat * 2) + col * 2 ∨
          s.regs.fbBase.toNat + row * (s.regs.fbXres.toNat * 2) + col * 2 + 2 ≤ a) →
        vramByte t a = vramByte s a)

/-- 43 R190 with 42 R174, R180 (the spec's decisions D3, D32; of the state a fault leaves, the dropped passes, the kept
depth and the replaced record are the MODEL's, log entry 7): RECT.FILL faults on the first operand fetch out of range with
nothing drawn; else it is the pixel loop over memory, rows then columns, up to the first pixel out of range, whose fault
leaves the pixels before it written. -/
def Obligations.FillIsThePixelLoop : Prop :=
  ∀ (imm16 : Half) (s : State), OperandFetchFaults (.rectFill imm16) 2 s ∧
  ∀ (r : Rect) (b0 b1 : Byte), OperandsInRange s 2 →
    r = rectOf s.cfg (operandWords s 2) → splitBytes s.cfg.byteOrder 2 s.regs.fgCol.toNat = [b0, b1] →
    PixelLoopEnds (exec (.rectFill imm16) s) s 2
      (fillPixels s.cfg.vramSize b0 b1
        ((gridCells r.yStart r.sizeY r.xStart r.sizeX).map fun rc =>
          s.regs.fbBase.toNat + rc.1 * (s.regs.fbXres.toNat * 2) + rc.2 * 2)
        (vramByte s))

/-- 43 R193 on the tuple that `BLT_DECODE` gives, with 42 R174, R180 (the spec's decisions D11, D12, D13, and D3, D32 for
the faults; of the state a fault leaves, the dropped passes, the kept depth and the replaced record are the MODEL's, log
entry 7): BLTCOPY faults on the first operand fetch out of range with nothing copied; else it is the pixel loop over
memory, overlapping blocks among its cases, with the fault of the first access out of range. -/
def Obligations.BlitIsThePixelLoop : Prop :=
  ∀ (c : Byte) (imm16 : Half) (s : State), OperandFetchFaults (.bltcopy c imm16) 7 s ∧
  ∀ b : Blit, OperandsInRange s 7 → b = blitOf s.cfg (operandWords s 7) →
    PixelLoopEnds (exec (.bltcopy c imm16) s) s 7
      (copyPixels s.cfg.vramSize .bltRead .bltWrite
        ((gridCells 0 b.sizeY 0 b.sizeX).map fun rc =>
          (b.srcAddr + (b.srcY + rc.1) * b.srcStride * 2 + (b.srcX + rc.2) * 2,
           b.dstAddr + (b.dstY + rc.1) * b.dstStride * 2 + (b.dstX + rc.2) * 2))
        (vramByte s))

/-- 43 R193 (the spec's decisions D11, D12, D13): with operands and pixels in range BLTCOPY completes for every
`op_command` and changes nothing outside the destination block but the cursor; where source and destination do not
overlap and the destination pixels are distinct, the destination block equals the source block. -/
def Obligations.BlitCopiesTheBlock : Prop :=
  ∀ (c : Byte) (imm16 : Half) (s : State) (b : Blit), OperandsInRange s 7 → b = blitOf s.cfg (operandWords s 7) →
    (∀ r k, r < b.sizeY → k < b.sizeX →
      b.srcPixel r k + 2 ≤ s.cfg.vramSize ∧ b.dstPixel r k + 2 ≤ s.cfg.vramSize) →
    ∃ t, exec (.bltcopy c imm16) s = .next t ∧ t = { s with pc := s.pc + 32, vram := t.vram } ∧
      (∀ a, (∀ r k, r < b.sizeY → k < b.sizeX → a < b.dstPixel r k ∨ b.dstPixel r k + 2 ≤ a) →
        vramByte t a = vramByte s a) ∧
      ((∀ r k r' k', r < b.sizeY → k < b.sizeX → r' < b.sizeY → k' < b.sizeX →
          b.srcPixel r k + 2 ≤ b.dstPixel r' k' ∨ b.dstPixel r' k' + 2 ≤ b.srcPixel r k) →
        (∀ r k r' k', r < b.sizeY → k < b.sizeX → r' < b.sizeY → k' < b.sizeX →
          b.dstPixel r k = b.dstPixel r' k' → r = r' ∧ k = k') →
        ∀ r k, r < b.sizeY → k < b.sizeX →
          loadValue t (b.dstPixel r k) 2 = loadValue s (b.srcPixel r k) 2)

/-- 46 R250 with 42 R180 (the spec's decisions D3, D32; of the state a fault leaves, the dropped passes, the kept depth and
the replaced record are the MODEL's, log entry 7): DRAW.COMMIT is the pixel loop over memory: rows `0` to `V_DISP` and
columns `0` to `H_DISP` inclusive, rows then columns, each pixel read and then written before the next is read, up to the
first access out of range. -/
def Obligations.CommitIsThePixelLoop : Prop :=
  ∀ (imm16 : Half) (s : State),
    PixelLoopEnds (exec (.drawCommit imm16) s) s 0
      (copyPixels s.cfg.vramSize .commitRead .commitWrite
        ((gridCells 0 (s.regs.vDisp.toNat + 1) 0 (s.regs.hDisp.toNat + 1)).map fun rc =>
          (s.regs.clAddr.toNat + rc.1 * clWidth s * 2 + rc.2 * 2,
           s.regs.fbBase.toNat + rc.1 * s.regs.fbXres.toNat * 2 + rc.2 * 2))
        (vramByte s))

/-- 46 R250, R251 (the spec's inference): with its pixels in range DRAW.COMMIT completes whatever `crtc_valid` and
`DISP_EN` hold, changes nothing outside the frame-buffer pixels it writes but the cursor, and where the two buffers do not
overlap and the written pixels are distinct, each holds its console-layer pixel. -/
def Obligations.CommitCopiesTheConsoleLayer : Prop :=
  ∀ (imm16 : Half) (s : State),
    (∀ r k, r ≤ s.regs.vDisp.toNat → k ≤ s.regs.hDisp.toNat →
      consolePixel s r k + 2 ≤ s.cfg.vramSize ∧ framePixel s r k + 2 ≤ s.cfg.vramSize) →
    ∃ t, exec (.drawCommit imm16) s = .next t ∧ t = { s with pc := s.pc + 4, vram := t.vram } ∧
      (∀ a, (∀ r k, r ≤ s.regs.vDisp.toNat → k ≤ s.regs.hDisp.toNat →
          a < framePixel s r k ∨ framePixel s r k + 2 ≤ a) → vramByte t a = vramByte s a) ∧
      ((∀ r k r' k', r ≤ s.regs.vDisp.toNat → k ≤ s.regs.hDisp.toNat → r' ≤ s.regs.vDisp.toNat →
          k' ≤ s.regs.hDisp.toNat →
          consolePixel s r k + 2 ≤ framePixel s r' k' ∨ framePixel s r' k' + 2 ≤ consolePixel s r k) →
        (∀ r k r' k', r ≤ s.regs.vDisp.toNat → k ≤ s.regs.hDisp.toNat → r' ≤ s.regs.vDisp.toNat →
          k' ≤ s.regs.hDisp.toNat → framePixel s r k = framePixel s r' k' → r = r' ∧ k = k') →
        ∀ r k, r ≤ s.regs.vDisp.toNat → k ≤ s.regs.hDisp.toNat →
          loadValue t (framePixel s r k) 2 = loadValue s (consolePixel s r k) 2)

/-- The spec's reference layouts (its decisions D10, D11, D17, D19, D21; 30_encoding R93, R94, 10_state R43, 41 R156,
46 R253; for colours also log entry 14): which bits the operands of RECT and BLTCOPY, the console-layer values and the
colour channels are, the vsync line, and black. -/
def Obligations.ReferenceLayoutsAreTheSpecs : Prop :=
  (∀ (c : Config) (w1 w2 : Word), c.pairOrder = .firstHigh →
    rectOf c [w1, w2] = ⟨(w1 >>> 16).toNat, w1.toNat % 65536, (w2 >>> 16).toNat, w2.toNat % 65536⟩) ∧
  (∀ (c : Config) (w1 w2 w3 w4 w5 w6 w7 : Word), c.bltDecode = bltDecodeRef →
    blitOf c [w1, w2, w3, w4, w5, w6, w7] =
      ⟨w1.toNat, w2.toNat, w3.toNat % 65536, (w3 >>> 16).toNat, w4.toNat, w5.toNat, w6.toNat % 65536, (w6 >>> 16).toNat,
       w7.toNat % 65536, (w7 >>> 16).toNat⟩) ∧
  (∀ s : State, s.cfg.clDerive = clDeriveRef →
    clHeight s = s.regs.clMode.toNat % 4096 ∧ clWidth s = (s.regs.clMode >>> 16).toNat % 256 * 64 ∧
    clDepth s = (s.regs.clMode >>> 31).toNat) ∧
  (∀ s : State, s.cfg.vsyncLine = vsyncLineRef → vsyncLine s = s.regs.vDisp.toNat + 1) ∧
  (∀ p : Half, convertPixel pixelFormatRef p.toNat =
    ⟨p.extractLsb' 10 5, p.extractLsb' 5 5, p.extractLsb' 0 5⟩) ∧
  black = ⟨0, 0, 0⟩

/-! ### Control commands -/

/-- 45 R234 (its nested case is the spec's decision D15): where no value starts a pass, SETREG completes, unless its cursor
would reach 2^32, which 42 R181 rules out and the MODEL refuses (log entry 9): each value word
is written to its container in increasing `i`, the cursor advances by the length, and the rest of the state but the
registers and what `ValidateAndApply()` and `Evaluate()` write is unchanged. The same holds of a SETREG that an inner pass
interrupted, with its values fetched at the cursor the inner pass left (42 R178). -/
def Obligations.SetregWritesItsValuesInOrder : Prop :=
  (∀ (c : Byte) (imm16 : Half) (s : State), exec (.setreg c imm16) s = resumeSetreg ⟨imm16, c.toNat, 0⟩ s) ∧
  (∀ (c : Byte) (imm16 : Half) (s t : State),
    (∀ i, i < c.toNat → s.pc.toNat + 4 + 4 * i + 4 ≤ s.cfg.vramSize ∧
      StartsNothing s.cfg.slots (imm16.toNat * 4 + 4 * i) (wordAt s (s.pc.toNat + 4 + 4 * i)) (BitVec.allOnes 32)) →
    t = setregWrites imm16 (fun i => wordAt s (s.pc.toNat + 4 + 4 * i)) (List.range c.toNat) s →
    (s.pc.toNat + 4 * (1 + c.toNat) < 2 ^ 32 →
      exec (.setreg c imm16) s = .next { t with pc := s.pc + BitVec.ofNat 32 (4 * (1 + c.toNat)) }) ∧
    (2 ^ 32 ≤ s.pc.toNat + 4 * (1 + c.toNat) → exec (.setreg c imm16) s = .refused .cursorWraps) ∧
    t.vram = s.vram ∧ t.passes = s.passes ∧ t.depth = s.depth ∧ t.faulted = s.faulted ∧ t.cfg = s.cfg ∧
    t.inputs = s.inputs ∧ t.replies = s.replies ∧ t.draws = s.draws ∧
    ∀ f, (∀ e ∈ s.cfg.slots, e.field = f → ∀ i, i < c.toNat → e.off ≠ imm16.toNat * 4 + 4 * i) →
      t.regs.get f = s.regs.get f) ∧
  (∀ (r : SetregRest) (s t : State),
    (∀ i, r.next ≤ i → i < r.n → s.pc.toNat + 4 + 4 * i + 4 ≤ s.cfg.vramSize ∧
      StartsNothing s.cfg.slots (r.imm16.toNat * 4 + 4 * i) (wordAt s (s.pc.toNat + 4 + 4 * i)) (BitVec.allOnes 32)) →
    t = setregWrites r.imm16 (fun i => wordAt s (s.pc.toNat + 4 + 4 * i)) (List.range' r.next (r.n - r.next)) s →
    (s.pc.toNat + 4 * (1 + r.n) < 2 ^ 32 →
      resumeSetreg r s = .next { t with pc := s.pc + BitVec.ofNat 32 (4 * (1 + r.n)) }) ∧
    (2 ^ 32 ≤ s.pc.toNat + 4 * (1 + r.n) → resumeSetreg r s = .refused .cursorWraps))

/-- 45 R234, 42 R174 (the range policy is the spec's decision D3, the resumed case its D15): a value fetch out of range
stops a SETREG, or what is left of one after an inner pass, with the writes of the values before it done and nothing
after. -/
def Obligations.SetregStopsAtAValueOutOfRange : Prop :=
  (∀ (c : Byte) (imm16 : Half) (s : State) (j : Nat), j < c.toNat →
    (∀ i, i < j → s.pc.toNat + 4 + 4 * i + 4 ≤ s.cfg.vramSize ∧
      StartsNothing s.cfg.slots (imm16.toNat * 4 + 4 * i) (wordAt s (s.pc.toNat + 4 + 4 * i)) (BitVec.allOnes 32)) →
    s.cfg.vramSize < s.pc.toNat + 4 + 4 * j + 4 →
    exec (.setreg c imm16) s = rangeFault
      (setregWrites imm16 (fun i => wordAt s (s.pc.toNat + 4 + 4 * i)) (List.range j) s)
      .operandFetch (s.pc.toNat + 4 + 4 * j) 4) ∧
  (∀ (r : SetregRest) (s : State) (j : Nat), r.next ≤ j → j < r.n →
    (∀ i, r.next ≤ i → i < j → s.pc.toNat + 4 + 4 * i + 4 ≤ s.cfg.vramSize ∧
      StartsNothing s.cfg.slots (r.imm16.toNat * 4 + 4 * i) (wordAt s (s.pc.toNat + 4 + 4 * i)) (BitVec.allOnes 32)) →
    s.cfg.vramSize < s.pc.toNat + 4 + 4 * j + 4 →
    resumeSetreg r s = rangeFault
      (setregWrites r.imm16 (fun i => wordAt s (s.pc.toNat + 4 + 4 * i)) (List.range' r.next (j - r.next)) s)
      .operandFetch (s.pc.toNat + 4 + 4 * j) 4)

/-- 42 R178, 45 R234 (the spec's decision D15): a value that sets the request flag, alone in its container, starts an
inner pass at the registers as they stand then, after the writes of the values before it; the pass carries the rest of the
SETREG. -/
def Obligations.SetregOfRequestStartsInnerPass : Prop :=
  ∀ (c : Byte) (imm16 : Half) (s t : State) (j : Nat) (m : Word), j < c.toNat →
    (∀ i, i ≤ j → s.pc.toNat + 4 + 4 * i + 4 ≤ s.cfg.vramSize) →
    (∀ i, i < j → StartsNothing s.cfg.slots (imm16.toNat * 4 + 4 * i) (wordAt s (s.pc.toNat + 4 + 4 * i))
      (BitVec.allOnes 32)) →
    registerWrites s.cfg (imm16.toNat * 4 + 4 * j) (wordAt s (s.pc.toNat + 4 + 4 * j)) (BitVec.allOnes 32) =
      [⟨.dlReq, 1, m⟩] → m.getLsbD 0 = true →
    t = setregWrites imm16 (fun i => wordAt s (s.pc.toNat + 4 + 4 * i)) (List.range j) s →
    exec (.setreg c imm16) s = .next
      { t with
        regs := { t.regs with dlReq := 1 }, depth := s.depth + 1, pc := t.regs.dlSrc.setWidth 32,
        passes := ⟨t.regs.dlSrc.toNat + (if t.regs.dlCnt = 0 then s.cfg.zeroCountSpan else t.regs.dlCnt.toNat * 4),
          s.pc, [], some ⟨imm16, c.toNat, j + 1⟩⟩ :: s.passes }

/-- 45 R235: encoding, the command-list-end bit set whatever the mask holds, the level evaluated and sent, and the cursor
advance of 4. -/
def Obligations.InterruptRaisesCommandListEnd : Prop :=
  ∀ (c : Byte) (i : Half) (s : State) (stat : Word), stat = s.regs.irqStat ||| BitVec.twoPow 32 s.cfg.istCendBit →
    decodeWord (packWord 0xFD c i) = .interrupt c i ∧ operandCount (.interrupt c i) = 0 ∧
    exec (.interrupt c i) s = .next
      { s with
        regs := { s.regs with irqStat := stat }, irqLevel := stat &&& s.regs.irqMask != 0,
        trace := s.trace ++ [.irqOut (stat &&& s.regs.irqMask != 0)], pc := s.pc + 4 }

/-! ### Register access -/

/-- 40 R129 (the spec's inference from R122 and R125): only the bits a mask selects change, every other bit of the field
and every other field stays; `IRQ_STAT` instead loses the selected bits that are written 1. -/
def Obligations.MaskedWriteLaw : Prop :=
  ∀ (f : Field) (v m : Word) (s : State),
    (f ≠ .irqStat →
      (fieldWrite ⟨f, v, m⟩ s).regs.get f &&& ~~~m = s.regs.get f &&& ~~~m &&& ones (s.cfg.widthOf f) ∧
      (fieldWrite ⟨f, v, m⟩ s).regs.get f &&& m = v &&& m &&& ones (s.cfg.widthOf f)) ∧
    (fieldWrite ⟨.irqStat, v, m⟩ s).regs.irqStat &&& ~~~m = s.regs.irqStat &&& ~~~m ∧
    (fieldWrite ⟨.irqStat, v, m⟩ s).regs.irqStat &&& m = s.regs.irqStat &&& m &&& ~~~v ∧
    (∀ g, g ≠ f → (fieldWrite ⟨f, v, m⟩ s).regs.get g = s.regs.get g)

/-- 40 R128, R124: a write of `DL_SRC`, `DL_CNT`, `FB_BASE`, `FB_XRES`, `FG_COL`, `BG_COL`, `CL_ADDR`, `DISP_EN` or `CL_MODE`
is the masked merge and truncation, and nothing else; the console-layer values are then those of the new `CL_MODE`. -/
def Obligations.PlainFieldWriteIsTheMergeAlone : Prop :=
  ∀ (f : Field) (v m : Word) (s : State),
    f ∈ [Field.dlSrc, .dlCnt, .fbBase, .fbXres, .fgCol, .bgCol, .clAddr, .dispEn, .clMode] →
    fieldWrite ⟨f, v, m⟩ s = { s with regs := (fieldWrite ⟨f, v, m⟩ s).regs } ∧
    (fieldWrite ⟨f, v, m⟩ s).regs.get f = ((s.regs.get f &&& ~~~m) ||| (v &&& m)) &&& ones f.width ∧
    (∀ g, g ≠ f → (fieldWrite ⟨f, v, m⟩ s).regs.get g = s.regs.get g) ∧
    (f = .clMode → ∀ u : State, u.cfg = s.cfg → u.regs.clMode = (fieldWrite ⟨f, v, m⟩ s).regs.clMode →
      clHeight (fieldWrite ⟨f, v, m⟩ s) = clHeight u ∧ clWidth (fieldWrite ⟨f, v, m⟩ s) = clWidth u ∧
      clDepth (fieldWrite ⟨f, v, m⟩ s) = clDepth u)

/-- 40 R123: a write of any of the nine CRTC fields, whether or not it changes the field, is the merge and then one
validation of the new registers. -/
def Obligations.TimingWriteRevalidates : Prop :=
  ∀ (f : Field) (v m : Word) (s : State) (r : RegFile),
    f ∈ [Field.hTotal, .hDisp, .hBound, .hSpos, .hSwid, .vTotal, .vSpos, .vSwid, .vDisp] →
    r = s.regs.put f ((s.regs.get f &&& ~~~m) ||| (v &&& m)) →
    fieldWrite ⟨f, v, m⟩ s =
      { s with
        regs := r, crtcValid := timingOk r, vsyncArmed := timingOk r,
        geometry := if timingOk r then some (geometryOf (timingsOf r)) else none,
        trace := s.trace ++ if timingOk r then [configureEvent (timingsOf r) s.cfg.framePeriod] else [] }

/-- 40 R125: a write to `IRQ_STAT` clears the status bits that are written 1 under the mask, then evaluates, every
time. -/
def Obligations.StatusWriteClearsAndEvaluates : Prop :=
  ∀ (v m stat : Word) (s : State), stat = s.regs.irqStat &&& ~~~(v &&& m) →
    fieldWrite ⟨.irqStat, v, m⟩ s =
      { s with
        regs := { s.regs with irqStat := stat }, irqLevel := stat &&& s.regs.irqMask != 0,
        trace := s.trace ++ [.irqOut (stat &&& s.regs.irqMask != 0)] }

/-- 40 R126: a write to `IRQ_MASK` is the masked merge, truncated to `IRQ_WIDTH`, then one evaluation, every time. -/
def Obligations.MaskWriteMergesAndEvaluates : Prop :=
  ∀ (v m mask : Word) (s : State),
    mask = ((s.regs.irqMask &&& ~~~m) ||| (v &&& m)) &&& ones s.cfg.irqWidth →
    fieldWrite ⟨.irqMask, v, m⟩ s =
      { s with
        regs := { s.regs with irqMask := mask }, irqLevel := s.regs.irqStat &&& mask != 0,
        trace := s.trace ++ [.irqOut (s.regs.irqStat &&& mask != 0)] }

/-- 40 R121, R122 to R126, 20 R67, R68, 60 R278 (the spec's decisions D5, D7, D26): under a legal `REGMAP` the host's
write, served while no pass is active, is the container write; at an offset with no field that changes nothing at all; where
it starts no pass it is the field writes of the selected slots, one after another in the list's order, which is increasing
`pos`. So a field with a selected bit gets its bits of the data under its bits of the mask, `IRQ_STAT` loses the bits
written 1 (the host's acknowledgement), every other field stays; a selected interrupt field leaves the level evaluated and
sent, a selected CRTC field leaves the timing validated, and without one of those nothing but the register file changes. -/
def Obligations.ContainerWriteReachesItsFields : Prop :=
  ∀ (s u : State) (off : Nat) (data mask : Word), s.cfg.wellFormed = true → u = regWrite off data mask s →
    (∀ (w : State) (rest : List HostAction), w.passes = [] → w.inputs = .regWrite off data mask :: rest →
      s = { w with inputs := rest } → step w = .next u) ∧
    ((∀ e ∈ s.cfg.slots, e.off ≠ off) → u = s) ∧
    (StartsNothing s.cfg.slots off data mask →
      u = (s.cfg.slots.filter (slotSelected off mask)).foldl (fun t e => fieldWrite (slotWrite data mask e) t) s ∧
      (∀ e ∈ s.cfg.slots, slotSelected off mask e = true → e.field ≠ .irqStat →
        u.regs.get e.field =
          ((s.regs.get e.field &&& ~~~(mask >>> e.lo)) ||| ((data >>> e.lo) &&& (mask >>> e.lo))) &&& ones e.width) ∧
      (∀ e ∈ s.cfg.slots, slotSelected off mask e = true → e.field = .irqStat →
        u.regs.irqStat = s.regs.irqStat &&& ~~~((data >>> e.lo) &&& (mask >>> e.lo) &&& ones e.width)) ∧
      (∀ e ∈ s.cfg.slots, slotSelected off mask e = false → u.regs.get e.field = s.regs.get e.field) ∧
      (∀ e ∈ s.cfg.slots, slotSelected off mask e = true → e.field ∈ irqFields →
        u.irqLevel = irqPending u.regs ∧ ∃ sent, u.trace = s.trace ++ sent ∧ .irqOut u.irqLevel ∈ sent) ∧
      (∀ e ∈ s.cfg.slots, slotSelected off mask e = true → e.field ∈ timingFields →
        u.crtcValid = timingOk u.regs ∧ u.vsyncArmed = timingOk u.regs ∧
        u.geometry = if timingOk u.regs then some (geometryOf (timingsOf u.regs)) else none) ∧
      ((∀ e ∈ s.cfg.slots, slotSelected off mask e = true → e.field ∉ irqFields ∧ e.field ∉ timingFields) →
        u = { s with regs := u.regs }) ∧
      u.pc = s.pc ∧ u.vram = s.vram ∧ u.passes = s.passes ∧ u.depth = s.depth ∧ u.faulted = s.faulted ∧ u.cfg = s.cfg ∧
      u.inputs = s.inputs ∧ u.replies = s.replies ∧ u.draws = s.draws)

/-- 40 R127, 42 R171, R172 (the spec's decisions D8, D9): the host's write that leaves the request flag 1 starts a pass at
`DL_SRC` with its end address latched; one that leaves it 0 stores 0 and does nothing else. -/
def Obligations.HostRequestStartsAPass : Prop :=
  ∀ (s : State) (rest : List HostAction) (off : Nat) (data mask v m : Word) (flag : BitVec 1), s.passes = [] →
    s.inputs = .regWrite off data mask :: rest →
    registerWrites s.cfg off data mask = [⟨.dlReq, v, m⟩] →
    flag = (((s.regs.dlReq.setWidth 32 : Word) &&& ~~~m) ||| (v &&& m)).setWidth 1 →
    (flag = 1 → step s = .next
      { s with
        inputs := rest, regs := { s.regs with dlReq := 1 }, depth := s.depth + 1, pc := s.regs.dlSrc.setWidth 32,
        passes := [⟨s.regs.dlSrc.toNat + (if s.regs.dlCnt = 0 then s.cfg.zeroCountSpan else s.regs.dlCnt.toNat * 4),
          s.pc, [], none⟩] }) ∧
    (flag = 0 → step s = .next { s with inputs := rest, regs := { s.regs with dlReq := 0 } })

/-- 40 R120 (no side effect is the spec's decision D31; the free draw is log entry 3): a host read returns every field of
its container at the field's place, and changes nothing of the block. -/
def Obligations.RegReadReturnsFieldsAndChangesNothing : Prop :=
  ∀ (s : State) (rest : List HostAction) (off : Nat) (mask : Word), s.passes = [] →
    s.inputs = .regRead off mask :: rest →
    ∃ v, step s = .next { s with inputs := rest, replies := s.replies ++ [.regValue v], draws := s.draws + 1 } ∧
      (s.cfg.wellFormed = true → ∀ e ∈ s.cfg.slots, e.off = off →
        (v >>> e.lo) &&& ones e.width = s.regs.get e.field &&& ones e.width)

/-! ### The CRTC validator -/

/-- 41 R152, R153: the two constraint sets, in terms of the derived timings. -/
def Obligations.TimingConstraints : Prop :=
  ∀ t : Timings,
    (horizOk t = true ↔
      0 < t.hb ∧ t.hb ≤ t.hd ∧ t.hd < t.hs ∧ t.hs < t.he ∧ t.he < t.ht ∧ 320 ≤ t.hd) ∧
    (vertOk t = true ↔ 0 < t.vd ∧ t.vd ≤ t.vs ∧ t.vs < t.ve ∧ t.ve < t.vt ∧ 234 ≤ t.vd)

/-- 41 R150, R151 (the spec's decision D16): the verdict on the nine registers as they are stored. -/
def Obligations.ValidityOfTheStoredRegisters : Prop :=
  ∀ s : State, (validateAndApply s).crtcValid = true ↔
    s.regs.hBound.toNat ≤ s.regs.hDisp.toNat ∧ s.regs.hDisp.toNat < s.regs.hSpos.toNat ∧
    s.regs.hSpos.toNat + s.regs.hSwid.toNat + 1 < s.regs.hTotal.toNat ∧ 319 ≤ s.regs.hDisp.toNat ∧
    s.regs.vDisp.toNat ≤ s.regs.vSpos.toNat ∧
    s.regs.vSpos.toNat + s.regs.vSwid.toNat + 1 < s.regs.vTotal.toNat ∧ 233 ≤ s.regs.vDisp.toNat

/-- 41 R154, R155: a failed validation blanks and is silent; a passed one configures the geometry, sends it and arms the
vsync event. -/
def Obligations.ValidationAppliesOrBlanks : Prop :=
  ∀ (s : State) (t : Timings), t = timingsOf s.regs →
    ((horizOk t = false ∨ vertOk t = false) →
      validateAndApply s = { s with crtcValid := false, geometry := none, vsyncArmed := false }) ∧
    (horizOk t = true → vertOk t = true →
      validateAndApply s =
        { s with
          crtcValid := true, geometry := some ⟨t.ht, t.vt, t.hd, t.vd⟩, vsyncArmed := true,
          trace := s.trace ++ [.screenConfigure t.ht t.vt 0 0 (t.hd - 1) (t.vd - 1) s.cfg.framePeriod] })

/-- 41 R158: what a validation writes is a function of the nine fields alone; running it twice leaves the same state and
sends the geometry twice when valid. -/
def Obligations.ValidationIsPure : Prop :=
  (∀ s u : State, s.regs.hTotal = u.regs.hTotal → s.regs.hDisp = u.regs.hDisp → s.regs.hBound = u.regs.hBound →
    s.regs.hSpos = u.regs.hSpos → s.regs.hSwid = u.regs.hSwid → s.regs.vTotal = u.regs.vTotal →
    s.regs.vSpos = u.regs.vSpos → s.regs.vSwid = u.regs.vSwid → s.regs.vDisp = u.regs.vDisp →
    (validateAndApply s).crtcValid = (validateAndApply u).crtcValid ∧
    (validateAndApply s).geometry = (validateAndApply u).geometry ∧
    (validateAndApply s).vsyncArmed = (validateAndApply u).vsyncArmed) ∧
  (∀ (s : State) (e : List Event),
    e = (if timingOk s.regs then [configureEvent (timingsOf s.regs) s.cfg.framePeriod] else []) →
    { validateAndApply (validateAndApply s) with trace := [] } = { validateAndApply s with trace := [] } ∧
    (validateAndApply s).trace = s.trace ++ e ∧ (validateAndApply (validateAndApply s)).trace = s.trace ++ e ++ e)

/-- 41 R156, R154, R155 (`VSYNC_LINE` is the spec's decision D17): after a validation the vsync event is scheduled for the
line after `V_DISP` if the timing is valid, and is not scheduled otherwise, whatever was scheduled before; a field write
leaves it scheduled for the line of the registers as they are. -/
def Obligations.VsyncIsScheduledAfterTheDisplay : Prop :=
  (∀ s : State, s.cfg.vsyncLine = vsyncLineRef →
    scheduledVsync (validateAndApply s) = if timingOk s.regs then some (s.regs.vDisp.toNat + 1) else none) ∧
  (∀ (s : State) (w : PendingWrite), HiddenDerived s →
    scheduledVsync (fieldWrite w s) =
      if timingOk (fieldWrite w s).regs then some (vsyncLine (fieldWrite w s)) else none)

/-! ### Interrupts -/

/-- 41 R157: while armed, the vsync event sets its status bit whatever the mask holds, evaluates, and stays armed; and it
is the only way that bit becomes 1. -/
def Obligations.VsyncFireSetsItsBit : Prop :=
  (∀ (s : State) (rest : List HostAction) (stat : Word), s.passes = [] → s.inputs = .vsyncFire :: rest →
    s.vsyncArmed = true → stat = s.regs.irqStat ||| BitVec.twoPow 32 s.cfg.istVsyncBit →
    step s = .next
      { s with
        inputs := rest, regs := { s.regs with irqStat := stat }, irqLevel := stat &&& s.regs.irqMask != 0,
        trace := s.trace ++ [.irqOut (stat &&& s.regs.irqMask != 0)] }) ∧
  (∀ s t : State, s.cfg.wellFormed = true → step s = .next t →
    s.regs.irqStat.getLsbD s.cfg.istVsyncBit = false → t.regs.irqStat.getLsbD s.cfg.istVsyncBit = true →
    s.passes = [] ∧ s.vsyncArmed = true ∧ ∃ rest, s.inputs = .vsyncFire :: rest)

/-- 60 R272, R275, 45 R235: a status bit becomes 1 only by the vsync event or by the command INTERRUPT, which sets only the
command-list-end bit. -/
def Obligations.StatusBitsComeFromTheirSources : Prop :=
  ∀ (s t : State) (k : Nat), step s = .next t → s.regs.irqStat.getLsbD k = false → t.regs.irqStat.getLsbD k = true →
    (k = s.cfg.istVsyncBit ∧ s.passes = [] ∧ s.vsyncArmed = true ∧ ∃ rest, s.inputs = .vsyncFire :: rest) ∨
    (k = s.cfg.istCendBit ∧ ∃ p rest c i, s.passes = p :: rest ∧ s.pc.toNat < p.endAddr ∧
      decodeWord (wordAt s s.pc.toNat) = .interrupt c i)

/-! ### Memory -/

/-- 20 R62 (range policy: the spec's decision D3): a store in range completes in either byte order, at any alignment; the
same load gives the value back, every byte outside is as before, nothing else changes. -/
def Obligations.StoreThenLoadGivesTheValue : Prop :=
  ∀ (s : State) (kind : AccessKind) (a v : Nat) (size : AccessSize), a + size.bytes ≤ s.cfg.vramSize →
    v < 2 ^ (8 * size.bytes) →
    ∃ t, store s kind a size.bytes v = .next t ∧ t = { s with vram := t.vram } ∧
      (∀ kind' k, withLoad t kind' a size.bytes k = k v) ∧
      (∀ x, x < a ∨ a + size.bytes ≤ x → vramByte t x = vramByte s x)

/-- 20 R61, R62 (the spec's decision D1): in little-endian order the byte at the lowest address is the least significant,
in loads and in stores. -/
def Obligations.LittleEndianBytes : Prop :=
  ∀ (s : State) (a n v : Nat), s.cfg.byteOrder = .little →
    loadValue s a n = ((List.range n).map fun k => (vramByte s (a + k)).toNat * 2 ^ (8 * k)).sum ∧
    ∀ k, k < n → vramByte (storeValue s a n v) (a + k) = BitVec.ofNat 8 (v >>> (8 * k))

/-- 20 R64, 60 R271 (the spec's decisions D3, D32): an access that reaches beyond `VRAM_SIZE` is never performed, the
command fetch of a pass among them; the state it leaves is the state before it, marked, with the request flag 1 where a
pass was stopped (42 R180, 70 R319). The dropped passes, the kept depth and the replaced record are the MODEL's (log
entry 7). -/
def Obligations.OutOfRangeIsNeverPerformed : Prop :=
  (∀ (s : State) (kind : AccessKind) (a n v : Nat) (k : Nat → Result), s.cfg.vramSize < a + n →
    withLoad s kind a n k = .fault (.vramRange ⟨a, n, kind, s.pc⟩
      { s with
        regs := if kind.ofPass then { s.regs with dlReq := 1 } else s.regs,
        faulted := some ⟨a, n, kind, s.pc⟩, passes := [] }) ∧
    store s kind a n v = .fault (.vramRange ⟨a, n, kind, s.pc⟩
      { s with
        regs := if kind.ofPass then { s.regs with dlReq := 1 } else s.regs,
        faulted := some ⟨a, n, kind, s.pc⟩, passes := [] })) ∧
  (∀ (s : State) (p : Pass) (rest : List Pass), s.passes = p :: rest → s.pc.toNat < p.endAddr →
    s.cfg.vramSize < s.pc.toNat + 4 →
    step s = .fault (.vramRange ⟨s.pc.toNat, 4, .commandFetch, s.pc⟩
      { s with
        regs := { s.regs with dlReq := 1 }, faulted := some ⟨s.pc.toNat, 4, .commandFetch, s.pc⟩, passes := [] }))

/-- 20 R76, 60 R271 (the spec's decisions D3, D28): the host's direct accesses in range return the bytes, or write them and
nothing else, of a wider value its low bytes (the MODEL's log entry 26); out of range the step has no result but the fault
mark, which holds this record even if there was one before (log entry 7). -/
def Obligations.HostReachesVideoMemory : Prop :=
  ∀ (s : State) (rest : List HostAction) (a : Nat) (size : AccessSize), s.passes = [] →
    (s.inputs = .vramRead a size :: rest → a + size.bytes ≤ s.cfg.vramSize → step s = .next
      { s with inputs := rest, replies := s.replies ++ [.vramValue (BitVec.ofNat 32 (loadValue s a size.bytes))] }) ∧
    (∀ v : Word, s.inputs = .vramWrite a size v :: rest → a + size.bytes ≤ s.cfg.vramSize → ∃ t, step s = .next t ∧
      t = { s with inputs := rest, vram := t.vram } ∧
      loadValue t a size.bytes = v.toNat % 2 ^ (8 * size.bytes) ∧
      ∀ x, x < a ∨ a + size.bytes ≤ x → vramByte t x = vramByte s x) ∧
    (s.inputs = .vramRead a size :: rest ∨ (∃ v, s.inputs = .vramWrite a size v :: rest) →
      s.cfg.vramSize < a + size.bytes →
      step s = .fault (.vramRange ⟨a, size.bytes, .hostAccess, s.pc⟩
        { s with inputs := rest, faulted := some ⟨a, size.bytes, .hostAccess, s.pc⟩ }))

/-! ### Scanout -/

/-- 46 R252: with the display enabled each pixel of the region is read from the frame buffer and converted, with it
disabled each is black and nothing is read; no other state changes. When enabled, a pixel out of range makes the step
fault on such a pixel (60 R271, the spec's decisions D3, D32); that leaves all as it was but the fault mark, which holds
this record even if there was one before (the MODEL's log entry 7). -/
def Obligations.ScanoutReadsTheFrameBuffer : Prop :=
  ∀ (s : State) (rest : List HostAction) (region : List (Nat × Nat)) (enabled : Bool), s.passes = [] →
    s.inputs = .scanout region :: rest →
    enabled = (s.regs.dispEn.getLsbD 15 && decide (s.regs.dispEn.toNat % 16 ≠ 0)) →
    (enabled = false → step s = .next
      { s with inputs := rest, replies := s.replies ++ [.colors (region.map fun _ => black)] }) ∧
    (enabled = true →
      (∀ c ∈ region, s.regs.fbBase.toNat + c.2 * s.regs.fbXres.toNat * 2 + c.1 * 2 + 2 ≤ s.cfg.vramSize) →
      step s = .next
        { s with
          inputs := rest,
          replies := s.replies ++ [.colors (region.map fun c => convertPixel s.cfg.pixelFormat
            (loadValue s (s.regs.fbBase.toNat + c.2 * s.regs.fbXres.toNat * 2 + c.1 * 2) 2))] }) ∧
    (enabled = true →
      (∃ c ∈ region, s.cfg.vramSize < s.regs.fbBase.toNat + c.2 * s.regs.fbXres.toNat * 2 + c.1 * 2 + 2) →
      ∃ c ∈ region, s.cfg.vramSize < s.regs.fbBase.toNat + c.2 * s.regs.fbXres.toNat * 2 + c.1 * 2 + 2 ∧
        ∃ record, record = ⟨s.regs.fbBase.toNat + c.2 * s.regs.fbXres.toNat * 2 + c.1 * 2, 2, .scanoutRead, s.pc⟩ ∧
          step s = .fault (.vramRange record { s with inputs := rest, faulted := some record }))

/-- 46 R254 (the spec's decision D27): while the timing is invalid the displayed frame is black whatever `DISP_EN` and video
memory hold; while it is valid it is `Scanout` of the visible area. -/
def Obligations.DisplayedFrameIsBlankWithoutTiming : Prop :=
  ∀ (s : State) (region : List (Nat × Nat)),
    (s.crtcValid = false → displayed s region = .ok (region.map fun _ => black)) ∧
    (s.crtcValid = true → ∀ g, s.geometry = some g → displayedFrame s = scanout s (visibleArea g) ∧
      ∀ x y, (x, y) ∈ visibleArea g ↔ x < g.visW ∧ y < g.visH)

/-! ### Reset -/

/-- 70 R300, R301 (hidden state, no event, video memory and fault mark kept: the spec's decision D23): a `Reset` step. -/
def Obligations.ResetStepClearsTheRegisters : Prop :=
  ∀ (s : State) (rest : List HostAction), s.passes = [] → s.inputs = .reset :: rest →
    ∃ t, step s = .next t ∧ (∀ f, t.regs.get f = 0) ∧
      t = { s with
        inputs := rest, regs := t.regs, pc := 0, crtcValid := false, geometry := none, vsyncArmed := false,
        irqLevel := false, passes := [], depth := 0 }

/-- 10 R48 (hidden state: the spec's decision D23; the last four fields and the configuration are the MODEL's, log
entries 1, 3, 5): the power-on state, and that it meets every invariant below. -/
def Obligations.ResetStateMeetsTheInvariants : Prop :=
  (∀ f, State.reset.regs.get f = 0) ∧ State.reset.pc = 0 ∧ State.reset.crtcValid = false ∧
  State.reset.geometry = none ∧ State.reset.vsyncArmed = false ∧ State.reset.irqLevel = false ∧
  State.reset.trace = [] ∧ State.reset.depth = 0 ∧ State.reset.faulted = none ∧
  State.reset.cfg.wellFormed = true ∧ MemoryOk State.reset ∧ HiddenDerived State.reset ∧
  PassesOk State.reset ∧ StatusBitsHaveSource State.reset ∧ RegistersInWidth State.reset ∧ CursorOk State.reset ∧
  ∀ depth, CursorBelow depth State.reset

/-! ### Invariants that every step keeps -/

/-- Video memory stays inside `VRAM_SIZE` (10 R47, 20 R64) and in canonical form, addresses strictly rising, which is the
MODEL's choice (log entry 2), in what a step answers and in what a fault leaves. -/
def Obligations.StepKeepsMemoryCanonical : Prop :=
  ∀ s : State, MemoryOk s →
    (∀ t, step s = .next t → MemoryOk t) ∧ (∀ r t, step s = .fault (.vramRange r t) → MemoryOk t)

/-- 10 R49, 60 R273 (the spec's inferences): `crtc_valid`, `geometry` and `vsync_armed` stay the function of the nine
CRTC fields, and `irq_level` that of `IRQ_STAT` and `IRQ_MASK`, that the spec says they are. -/
def Obligations.StepKeepsHiddenStateDerived : Prop :=
  ∀ s : State, HiddenDerived s →
    (∀ t, step s = .next t → HiddenDerived t) ∧ (∀ r t, step s = .fault (.vramRange r t) → HiddenDerived t)

/-- 42 R170, 10 R26, R46: pass depth counts the active passes, the request flag of the IDLE block is 0, the host started
the outermost pass and SETREGs the others. -/
def Obligations.StepKeepsPassesOk : Prop :=
  ∀ s t : State, PassesOk s → step s = .next t → PassesOk t

/-- 10 R36 (the spec's inference): no status bit without a source is ever set. -/
def Obligations.StepKeepsStatusBitsSourced : Prop :=
  ∀ s : State, StatusBitsHaveSource s →
    (∀ t, step s = .next t → StatusBitsHaveSource t) ∧
    (∀ r t, step s = .fault (.vramRange r t) → StatusBitsHaveSource t)

/-- 10 R20, R24 to R45, 40 R122 (`IRQ_WIDTH` is the spec's decision D6): under legal parameters no field ever holds a bit
beyond its width. -/
def Obligations.StepKeepsRegistersInWidth : Prop :=
  ∀ s : State, s.cfg.wellFormed = true → RegistersInWidth s →
    (∀ t, step s = .next t → RegistersInWidth t) ∧
    (∀ r t, step s = .fault (.vramRange r t) → RegistersInWidth t)

/-- 42 R181, 10 R22, 00 R14 (the shared cursor is the spec's decision D15): the cursor never wraps. Whatever the nesting, a
step leaves it, puts it at `DL_SRC` where a pass starts, puts it at 0 where a Reset is served, or adds one advance of at
most 1024 bytes as a natural number; end addresses keep R181's bound. Where the advance would reach 2^32, which R181 says
never happens, the MODEL stops (log entry 9), and only there. -/
def Obligations.CursorNeverWraps : Prop :=
  ∀ s : State, CursorOk s →
    (∀ t, step s = .next t → CursorOk t ∧
      (t.pc = s.pc ∨ PassStarts s t ∨ (s.passes = [] ∧ t.pc = 0 ∧ ∃ rest, s.inputs = .reset :: rest) ∨
        ∃ n, n < 256 ∧ t.pc.toNat = s.pc.toNat + 4 * (1 + n))) ∧
    (∀ r, step s = .refused r → r = .cursorWraps ∧ 2 ^ 32 ≤ s.pc.toNat + 1024)

/-- 42 R181 (derived in the spec from one advance; R178's return of nested SETREGs one into another adds one for each): while
at most `depth` passes are nested, the cursor keeps R181's bound plus 1024 bytes a level. So it stays below 2^27 up to 49150
nested passes, and up to 4000000 no step is refused and it stays below 2^32. -/
def Obligations.CursorStaysBelowItsBound : Prop :=
  ∀ (depth : Nat) (s : State), CursorOk s → CursorBelow depth s →
    (∀ t, step s = .next t → t.passes.length ≤ depth → CursorBelow depth t) ∧
    (depth ≤ 49150 → s.pc.toNat < 2 ^ 27) ∧
    (depth ≤ 4000000 → s.pc.toNat < 2 ^ 32 - 1024 ∧ ∀ r, step s ≠ .refused r)

/-- 10 R46, 60 R271, 70 R301 and log entry 1: a step that goes on changes neither the fault mark nor the parameters, and
takes no event off the trace. -/
def Obligations.HistoryAndParametersAreKept : Prop :=
  ∀ s t : State, step s = .next t → t.faulted = s.faulted ∧ t.cfg = s.cfg ∧ s.trace <+: t.trace

/-! ### Whole runs -/

/-- 42 R171, R178 with 70 R306 (nesting is the spec's decision D15): whatever a `RegWrite` of the IDLE block does as the
recursive procedure of R171, under any fuel, the machine does command by command, to the same state or the same fault. Where
other fields share the request flag's container, both write those above it after the pass (log entry 27); where the cursor
would reach 2^32 both stop (log entry 9). -/
def Obligations.StepsRunTheListProcedure : Prop :=
  ∀ (fuel : Nat) (off : Nat) (data mask : Word) (s : State) (o : Result), s.passes = [] →
    s.cfg.nestedReq = .sharedCursor →
    runJob fuel (.writes (registerWrites s.cfg off data mask)) s = some o →
    (∃ k, Sys2Proof.core.run k (regWrite off data mask s) = o) ∧ ∀ t, o = .next t → t.passes = []

/-- 70 R319 (the spec's inference): the run of an active list is completed, or faulted, or hung, and only one of them;
completed, it leaves the request flag 0, depth 0 and the fault mark as it was; faulted, it leaves the request flag 1 and the
fault mark set. The one other end, cut off where the cursor would reach 2^32, is the MODEL's (log entry 9): no run that nests
at most 4000000 passes ends so, and 42 R181 says that none does. -/
def Obligations.RunHasOneOfThreeOutcomes : Prop :=
  ∀ s : State, PassesOk s → s.faulted = none → s.passes ≠ [] →
    ((∃ t, Completes s t) ∨ (∃ r, StopsWith s r) ∨ Hangs s ∨ CutOff s) ∧
    (CursorOk s → CursorBelow 4000000 s →
      (∀ k u, Sys2Proof.core.run k s = .next u → u.passes.length ≤ 4000000) → ¬ CutOff s) ∧
    (∀ t, Completes s t → t.regs.dlReq = 0 ∧ t.depth = 0 ∧ t.faulted = none ∧
      (∀ u, Completes s u → u = t) ∧ (∀ r, ¬ StopsWith s r) ∧ ¬ Hangs s ∧ ¬ CutOff s) ∧
    (∀ r t, StopsWith s (.vramRange r t) → t.regs.dlReq = 1 ∧ t.faulted = some r) ∧
    (∀ r, StopsWith s r → (∀ r', StopsWith s r' → r' = r) ∧ ¬ Hangs s ∧ ¬ CutOff s) ∧
    (CutOff s → ¬ Hangs s)
end

