-- ==== Sys2Proof/Laws/State.lean ====
section
/-! SUPPORT. For every update of the state, what each field of the result is: one lemma per field, true by `rfl`. -/

namespace Sys2Proof.Machine

/-! ### setField -/

@[simp] theorem setField_regs (s : State) (f : Field) (v : Word) : (setField s f v).regs = s.regs.put f v := rfl
@[simp] theorem setField_pc (s : State) (f : Field) (v : Word) : (setField s f v).pc = s.pc := rfl
@[simp] theorem setField_vram (s : State) (f : Field) (v : Word) : (setField s f v).vram = s.vram := rfl
@[simp] theorem setField_crtcValid (s : State) (f : Field) (v : Word) : (setField s f v).crtcValid = s.crtcValid := rfl
@[simp] theorem setField_geometry (s : State) (f : Field) (v : Word) : (setField s f v).geometry = s.geometry := rfl
@[simp] theorem setField_vsyncArmed (s : State) (f : Field) (v : Word) : (setField s f v).vsyncArmed = s.vsyncArmed := rfl
@[simp] theorem setField_irqLevel (s : State) (f : Field) (v : Word) : (setField s f v).irqLevel = s.irqLevel := rfl
@[simp] theorem setField_trace (s : State) (f : Field) (v : Word) : (setField s f v).trace = s.trace := rfl
@[simp] theorem setField_passes (s : State) (f : Field) (v : Word) : (setField s f v).passes = s.passes := rfl
@[simp] theorem setField_depth (s : State) (f : Field) (v : Word) : (setField s f v).depth = s.depth := rfl
@[simp] theorem setField_faulted (s : State) (f : Field) (v : Word) : (setField s f v).faulted = s.faulted := rfl
@[simp] theorem setField_cfg (s : State) (f : Field) (v : Word) : (setField s f v).cfg = s.cfg := rfl
@[simp] theorem setField_inputs (s : State) (f : Field) (v : Word) : (setField s f v).inputs = s.inputs := rfl
@[simp] theorem setField_replies (s : State) (f : Field) (v : Word) : (setField s f v).replies = s.replies := rfl
@[simp] theorem setField_draws (s : State) (f : Field) (v : Word) : (setField s f v).draws = s.draws := rfl

/-! ### emit -/

@[simp] theorem emit_regs (s : State) (e : Event) : (emit s e).regs = s.regs := rfl
@[simp] theorem emit_pc (s : State) (e : Event) : (emit s e).pc = s.pc := rfl
@[simp] theorem emit_vram (s : State) (e : Event) : (emit s e).vram = s.vram := rfl
@[simp] theorem emit_crtcValid (s : State) (e : Event) : (emit s e).crtcValid = s.crtcValid := rfl
@[simp] theorem emit_geometry (s : State) (e : Event) : (emit s e).geometry = s.geometry := rfl
@[simp] theorem emit_vsyncArmed (s : State) (e : Event) : (emit s e).vsyncArmed = s.vsyncArmed := rfl
@[simp] theorem emit_irqLevel (s : State) (e : Event) : (emit s e).irqLevel = s.irqLevel := rfl
@[simp] theorem emit_trace (s : State) (e : Event) : (emit s e).trace = s.trace ++ [e] := rfl
@[simp] theorem emit_passes (s : State) (e : Event) : (emit s e).passes = s.passes := rfl
@[simp] theorem emit_depth (s : State) (e : Event) : (emit s e).depth = s.depth := rfl
@[simp] theorem emit_faulted (s : State) (e : Event) : (emit s e).faulted = s.faulted := rfl
@[simp] theorem emit_cfg (s : State) (e : Event) : (emit s e).cfg = s.cfg := rfl
@[simp] theorem emit_inputs (s : State) (e : Event) : (emit s e).inputs = s.inputs := rfl
@[simp] theorem emit_replies (s : State) (e : Event) : (emit s e).replies = s.replies := rfl
@[simp] theorem emit_draws (s : State) (e : Event) : (emit s e).draws = s.draws := rfl

/-! ### advance -/

@[simp] theorem advance_regs (s : State) (n : Nat) : (advance s n).regs = s.regs := rfl
@[simp] theorem advance_pc (s : State) (n : Nat) : (advance s n).pc = s.pc + BitVec.ofNat 32 ((1 + n) * 4) := rfl
@[simp] theorem advance_vram (s : State) (n : Nat) : (advance s n).vram = s.vram := rfl
@[simp] theorem advance_crtcValid (s : State) (n : Nat) : (advance s n).crtcValid = s.crtcValid := rfl
@[simp] theorem advance_geometry (s : State) (n : Nat) : (advance s n).geometry = s.geometry := rfl
@[simp] theorem advance_vsyncArmed (s : State) (n : Nat) : (advance s n).vsyncArmed = s.vsyncArmed := rfl
@[simp] theorem advance_irqLevel (s : State) (n : Nat) : (advance s n).irqLevel = s.irqLevel := rfl
@[simp] theorem advance_trace (s : State) (n : Nat) : (advance s n).trace = s.trace := rfl
@[simp] theorem advance_passes (s : State) (n : Nat) : (advance s n).passes = s.passes := rfl
@[simp] theorem advance_depth (s : State) (n : Nat) : (advance s n).depth = s.depth := rfl
@[simp] theorem advance_faulted (s : State) (n : Nat) : (advance s n).faulted = s.faulted := rfl
@[simp] theorem advance_cfg (s : State) (n : Nat) : (advance s n).cfg = s.cfg := rfl
@[simp] theorem advance_inputs (s : State) (n : Nat) : (advance s n).inputs = s.inputs := rfl
@[simp] theorem advance_replies (s : State) (n : Nat) : (advance s n).replies = s.replies := rfl
@[simp] theorem advance_draws (s : State) (n : Nat) : (advance s n).draws = s.draws := rfl

/-! ### storeValue -/

@[simp] theorem storeValue_regs (s : State) (a n v : Nat) : (storeValue s a n v).regs = s.regs := rfl
@[simp] theorem storeValue_pc (s : State) (a n v : Nat) : (storeValue s a n v).pc = s.pc := rfl
@[simp] theorem storeValue_vram (s : State) (a n v : Nat) : (storeValue s a n v).vram = Memory.putBytes s.vram a (splitBytes s.cfg.byteOrder n v) := rfl
@[simp] theorem storeValue_crtcValid (s : State) (a n v : Nat) : (storeValue s a n v).crtcValid = s.crtcValid := rfl
@[simp] theorem storeValue_geometry (s : State) (a n v : Nat) : (storeValue s a n v).geometry = s.geometry := rfl
@[simp] theorem storeValue_vsyncArmed (s : State) (a n v : Nat) : (storeValue s a n v).vsyncArmed = s.vsyncArmed := rfl
@[simp] theorem storeValue_irqLevel (s : State) (a n v : Nat) : (storeValue s a n v).irqLevel = s.irqLevel := rfl
@[simp] theorem storeValue_trace (s : State) (a n v : Nat) : (storeValue s a n v).trace = s.trace := rfl
@[simp] theorem storeValue_passes (s : State) (a n v : Nat) : (storeValue s a n v).passes = s.passes := rfl
@[simp] theorem storeValue_depth (s : State) (a n v : Nat) : (storeValue s a n v).depth = s.depth := rfl
@[simp] theorem storeValue_faulted (s : State) (a n v : Nat) : (storeValue s a n v).faulted = s.faulted := rfl
@[simp] theorem storeValue_cfg (s : State) (a n v : Nat) : (storeValue s a n v).cfg = s.cfg := rfl
@[simp] theorem storeValue_inputs (s : State) (a n v : Nat) : (storeValue s a n v).inputs = s.inputs := rfl
@[simp] theorem storeValue_replies (s : State) (a n v : Nat) : (storeValue s a n v).replies = s.replies := rfl
@[simp] theorem storeValue_draws (s : State) (a n v : Nat) : (storeValue s a n v).draws = s.draws := rfl

/-! ### faultState -/

@[simp] theorem faultState_regs (s : State) (k : AccessKind) (a n : Nat) : (faultState s k a n).regs = if k.ofPass then s.regs.put .dlReq 1 else s.regs := rfl
@[simp] theorem faultState_pc (s : State) (k : AccessKind) (a n : Nat) : (faultState s k a n).pc = s.pc := rfl
@[simp] theorem faultState_vram (s : State) (k : AccessKind) (a n : Nat) : (faultState s k a n).vram = s.vram := rfl
@[simp] theorem faultState_crtcValid (s : State) (k : AccessKind) (a n : Nat) : (faultState s k a n).crtcValid = s.crtcValid := rfl
@[simp] theorem faultState_geometry (s : State) (k : AccessKind) (a n : Nat) : (faultState s k a n).geometry = s.geometry := rfl
@[simp] theorem faultState_vsyncArmed (s : State) (k : AccessKind) (a n : Nat) : (faultState s k a n).vsyncArmed = s.vsyncArmed := rfl
@[simp] theorem faultState_irqLevel (s : State) (k : AccessKind) (a n : Nat) : (faultState s k a n).irqLevel = s.irqLevel := rfl
@[simp] theorem faultState_trace (s : State) (k : AccessKind) (a n : Nat) : (faultState s k a n).trace = s.trace := rfl
@[simp] theorem faultState_passes (s : State) (k : AccessKind) (a n : Nat) : (faultState s k a n).passes = [] := rfl
@[simp] theorem faultState_depth (s : State) (k : AccessKind) (a n : Nat) : (faultState s k a n).depth = s.depth := rfl
@[simp] theorem faultState_faulted (s : State) (k : AccessKind) (a n : Nat) : (faultState s k a n).faulted = some (faultRecord s k a n) := rfl
@[simp] theorem faultState_cfg (s : State) (k : AccessKind) (a n : Nat) : (faultState s k a n).cfg = s.cfg := rfl
@[simp] theorem faultState_inputs (s : State) (k : AccessKind) (a n : Nat) : (faultState s k a n).inputs = s.inputs := rfl
@[simp] theorem faultState_replies (s : State) (k : AccessKind) (a n : Nat) : (faultState s k a n).replies = s.replies := rfl
@[simp] theorem faultState_draws (s : State) (k : AccessKind) (a n : Nat) : (faultState s k a n).draws = s.draws := rfl

/-! ### reply -/

@[simp] theorem reply_regs (s : State) (r : Reply) : (reply s r).regs = s.regs := rfl
@[simp] theorem reply_pc (s : State) (r : Reply) : (reply s r).pc = s.pc := rfl
@[simp] theorem reply_vram (s : State) (r : Reply) : (reply s r).vram = s.vram := rfl
@[simp] theorem reply_crtcValid (s : State) (r : Reply) : (reply s r).crtcValid = s.crtcValid := rfl
@[simp] theorem reply_geometry (s : State) (r : Reply) : (reply s r).geometry = s.geometry := rfl
@[simp] theorem reply_vsyncArmed (s : State) (r : Reply) : (reply s r).vsyncArmed = s.vsyncArmed := rfl
@[simp] theorem reply_irqLevel (s : State) (r : Reply) : (reply s r).irqLevel = s.irqLevel := rfl
@[simp] theorem reply_trace (s : State) (r : Reply) : (reply s r).trace = s.trace := rfl
@[simp] theorem reply_passes (s : State) (r : Reply) : (reply s r).passes = s.passes := rfl
@[simp] theorem reply_depth (s : State) (r : Reply) : (reply s r).depth = s.depth := rfl
@[simp] theorem reply_faulted (s : State) (r : Reply) : (reply s r).faulted = s.faulted := rfl
@[simp] theorem reply_cfg (s : State) (r : Reply) : (reply s r).cfg = s.cfg := rfl
@[simp] theorem reply_inputs (s : State) (r : Reply) : (reply s r).inputs = s.inputs := rfl
@[simp] theorem reply_replies (s : State) (r : Reply) : (reply s r).replies = s.replies ++ [r] := rfl
@[simp] theorem reply_draws (s : State) (r : Reply) : (reply s r).draws = s.draws := rfl

/-! ### openPass -/

@[simp] theorem openPass_regs (ws : List PendingWrite) (r : Option SetregRest) (s : State) : (openPass ws r s).regs = s.regs := rfl
@[simp] theorem openPass_pc (ws : List PendingWrite) (r : Option SetregRest) (s : State) : (openPass ws r s).pc = s.regs.dlSrc.setWidth 32 := rfl
@[simp] theorem openPass_vram (ws : List PendingWrite) (r : Option SetregRest) (s : State) : (openPass ws r s).vram = s.vram := rfl
@[simp] theorem openPass_crtcValid (ws : List PendingWrite) (r : Option SetregRest) (s : State) : (openPass ws r s).crtcValid = s.crtcValid := rfl
@[simp] theorem openPass_geometry (ws : List PendingWrite) (r : Option SetregRest) (s : State) : (openPass ws r s).geometry = s.geometry := rfl
@[simp] theorem openPass_vsyncArmed (ws : List PendingWrite) (r : Option SetregRest) (s : State) : (openPass ws r s).vsyncArmed = s.vsyncArmed := rfl
@[simp] theorem openPass_irqLevel (ws : List PendingWrite) (r : Option SetregRest) (s : State) : (openPass ws r s).irqLevel = s.irqLevel := rfl
@[simp] theorem openPass_trace (ws : List PendingWrite) (r : Option SetregRest) (s : State) : (openPass ws r s).trace = s.trace := rfl
@[simp] theorem openPass_passes (ws : List PendingWrite) (r : Option SetregRest) (s : State) : (openPass ws r s).passes = ⟨endAddress s, s.pc, ws, r⟩ :: s.passes := rfl
@[simp] theorem openPass_depth (ws : List PendingWrite) (r : Option SetregRest) (s : State) : (openPass ws r s).depth = s.depth + 1 := rfl
@[simp] theorem openPass_faulted (ws : List PendingWrite) (r : Option SetregRest) (s : State) : (openPass ws r s).faulted = s.faulted := rfl
@[simp] theorem openPass_cfg (ws : List PendingWrite) (r : Option SetregRest) (s : State) : (openPass ws r s).cfg = s.cfg := rfl
@[simp] theorem openPass_inputs (ws : List PendingWrite) (r : Option SetregRest) (s : State) : (openPass ws r s).inputs = s.inputs := rfl
@[simp] theorem openPass_replies (ws : List PendingWrite) (r : Option SetregRest) (s : State) : (openPass ws r s).replies = s.replies := rfl
@[simp] theorem openPass_draws (ws : List PendingWrite) (r : Option SetregRest) (s : State) : (openPass ws r s).draws = s.draws := rfl

/-! ### closePass -/

@[simp] theorem closePass_regs (p : Pass) (rest : List Pass) (s : State) : (closePass p rest s).regs = s.regs.put .dlReq 0 := rfl
@[simp] theorem closePass_pc (p : Pass) (rest : List Pass) (s : State) : (closePass p rest s).pc = cursorAfterPass s.cfg p s.pc := rfl
@[simp] theorem closePass_vram (p : Pass) (rest : List Pass) (s : State) : (closePass p rest s).vram = s.vram := rfl
@[simp] theorem closePass_crtcValid (p : Pass) (rest : List Pass) (s : State) : (closePass p rest s).crtcValid = s.crtcValid := rfl
@[simp] theorem closePass_geometry (p : Pass) (rest : List Pass) (s : State) : (closePass p rest s).geometry = s.geometry := rfl
@[simp] theorem closePass_vsyncArmed (p : Pass) (rest : List Pass) (s : State) : (closePass p rest s).vsyncArmed = s.vsyncArmed := rfl
@[simp] theorem closePass_irqLevel (p : Pass) (rest : List Pass) (s : State) : (closePass p rest s).irqLevel = s.irqLevel := rfl
@[simp] theorem closePass_trace (p : Pass) (rest : List Pass) (s : State) : (closePass p rest s).trace = s.trace := rfl
@[simp] theorem closePass_passes (p : Pass) (rest : List Pass) (s : State) : (closePass p rest s).passes = rest := rfl
@[simp] theorem closePass_depth (p : Pass) (rest : List Pass) (s : State) : (closePass p rest s).depth = s.depth - 1 := rfl
@[simp] theorem closePass_faulted (p : Pass) (rest : List Pass) (s : State) : (closePass p rest s).faulted = s.faulted := rfl
@[simp] theorem closePass_cfg (p : Pass) (rest : List Pass) (s : State) : (closePass p rest s).cfg = s.cfg := rfl
@[simp] theorem closePass_inputs (p : Pass) (rest : List Pass) (s : State) : (closePass p rest s).inputs = s.inputs := rfl
@[simp] theorem closePass_replies (p : Pass) (rest : List Pass) (s : State) : (closePass p rest s).replies = s.replies := rfl
@[simp] theorem closePass_draws (p : Pass) (rest : List Pass) (s : State) : (closePass p rest s).draws = s.draws := rfl

/-! ### evaluate -/

@[simp] theorem evaluate_regs (s : State) : (evaluate s).regs = s.regs := rfl
@[simp] theorem evaluate_pc (s : State) : (evaluate s).pc = s.pc := rfl
@[simp] theorem evaluate_vram (s : State) : (evaluate s).vram = s.vram := rfl
@[simp] theorem evaluate_crtcValid (s : State) : (evaluate s).crtcValid = s.crtcValid := rfl
@[simp] theorem evaluate_geometry (s : State) : (evaluate s).geometry = s.geometry := rfl
@[simp] theorem evaluate_vsyncArmed (s : State) : (evaluate s).vsyncArmed = s.vsyncArmed := rfl
@[simp] theorem evaluate_irqLevel (s : State) : (evaluate s).irqLevel = irqPending s.regs := rfl
@[simp] theorem evaluate_trace (s : State) : (evaluate s).trace = s.trace ++ [.irqOut (irqPending s.regs)] := rfl
@[simp] theorem evaluate_passes (s : State) : (evaluate s).passes = s.passes := rfl
@[simp] theorem evaluate_depth (s : State) : (evaluate s).depth = s.depth := rfl
@[simp] theorem evaluate_faulted (s : State) : (evaluate s).faulted = s.faulted := rfl
@[simp] theorem evaluate_cfg (s : State) : (evaluate s).cfg = s.cfg := rfl
@[simp] theorem evaluate_inputs (s : State) : (evaluate s).inputs = s.inputs := rfl
@[simp] theorem evaluate_replies (s : State) : (evaluate s).replies = s.replies := rfl
@[simp] theorem evaluate_draws (s : State) : (evaluate s).draws = s.draws := rfl

/-! ### raiseStatus -/

@[simp] theorem raiseStatus_regs (s : State) (b : Fin 32) : (raiseStatus s b).regs = s.regs.put .irqStat (s.regs.irqStat ||| BitVec.twoPow 32 b) := rfl
@[simp] theorem raiseStatus_pc (s : State) (b : Fin 32) : (raiseStatus s b).pc = s.pc := rfl
@[simp] theorem raiseStatus_vram (s : State) (b : Fin 32) : (raiseStatus s b).vram = s.vram := rfl
@[simp] theorem raiseStatus_crtcValid (s : State) (b : Fin 32) : (raiseStatus s b).crtcValid = s.crtcValid := rfl
@[simp] theorem raiseStatus_geometry (s : State) (b : Fin 32) : (raiseStatus s b).geometry = s.geometry := rfl
@[simp] theorem raiseStatus_vsyncArmed (s : State) (b : Fin 32) : (raiseStatus s b).vsyncArmed = s.vsyncArmed := rfl
@[simp] theorem raiseStatus_irqLevel (s : State) (b : Fin 32) : (raiseStatus s b).irqLevel = irqPending (s.regs.put .irqStat (s.regs.irqStat ||| BitVec.twoPow 32 b)) := rfl
@[simp] theorem raiseStatus_trace (s : State) (b : Fin 32) : (raiseStatus s b).trace = s.trace ++ [.irqOut (irqPending (s.regs.put .irqStat (s.regs.irqStat ||| BitVec.twoPow 32 b)))] := rfl
@[simp] theorem raiseStatus_passes (s : State) (b : Fin 32) : (raiseStatus s b).passes = s.passes := rfl
@[simp] theorem raiseStatus_depth (s : State) (b : Fin 32) : (raiseStatus s b).depth = s.depth := rfl
@[simp] theorem raiseStatus_faulted (s : State) (b : Fin 32) : (raiseStatus s b).faulted = s.faulted := rfl
@[simp] theorem raiseStatus_cfg (s : State) (b : Fin 32) : (raiseStatus s b).cfg = s.cfg := rfl
@[simp] theorem raiseStatus_inputs (s : State) (b : Fin 32) : (raiseStatus s b).inputs = s.inputs := rfl
@[simp] theorem raiseStatus_replies (s : State) (b : Fin 32) : (raiseStatus s b).replies = s.replies := rfl
@[simp] theorem raiseStatus_draws (s : State) (b : Fin 32) : (raiseStatus s b).draws = s.draws := rfl

/-! ### clearStatus -/

@[simp] theorem clearStatus_regs (s : State) (v m : Word) : (clearStatus s v m).regs = s.regs.put .irqStat (s.regs.irqStat &&& ~~~(v &&& m)) := rfl
@[simp] theorem clearStatus_pc (s : State) (v m : Word) : (clearStatus s v m).pc = s.pc := rfl
@[simp] theorem clearStatus_vram (s : State) (v m : Word) : (clearStatus s v m).vram = s.vram := rfl
@[simp] theorem clearStatus_crtcValid (s : State) (v m : Word) : (clearStatus s v m).crtcValid = s.crtcValid := rfl
@[simp] theorem clearStatus_geometry (s : State) (v m : Word) : (clearStatus s v m).geometry = s.geometry := rfl
@[simp] theorem clearStatus_vsyncArmed (s : State) (v m : Word) : (clearStatus s v m).vsyncArmed = s.vsyncArmed := rfl
@[simp] theorem clearStatus_irqLevel (s : State) (v m : Word) : (clearStatus s v m).irqLevel = irqPending (s.regs.put .irqStat (s.regs.irqStat &&& ~~~(v &&& m))) := rfl
@[simp] theorem clearStatus_trace (s : State) (v m : Word) : (clearStatus s v m).trace = s.trace ++ [.irqOut (irqPending (s.regs.put .irqStat (s.regs.irqStat &&& ~~~(v &&& m))))] := rfl
@[simp] theorem clearStatus_passes (s : State) (v m : Word) : (clearStatus s v m).passes = s.passes := rfl
@[simp] theorem clearStatus_depth (s : State) (v m : Word) : (clearStatus s v m).depth = s.depth := rfl
@[simp] theorem clearStatus_faulted (s : State) (v m : Word) : (clearStatus s v m).faulted = s.faulted := rfl
@[simp] theorem clearStatus_cfg (s : State) (v m : Word) : (clearStatus s v m).cfg = s.cfg := rfl
@[simp] theorem clearStatus_inputs (s : State) (v m : Word) : (clearStatus s v m).inputs = s.inputs := rfl
@[simp] theorem clearStatus_replies (s : State) (v m : Word) : (clearStatus s v m).replies = s.replies := rfl
@[simp] theorem clearStatus_draws (s : State) (v m : Word) : (clearStatus s v m).draws = s.draws := rfl

/-! ### mergeField -/

@[simp] theorem mergeField_regs (s : State) (f : Field) (v m : Word) : (mergeField s f v m).regs = s.regs.put f (clipField s.cfg f ((s.regs.get f &&& ~~~m) ||| (v &&& m))) := rfl
@[simp] theorem mergeField_pc (s : State) (f : Field) (v m : Word) : (mergeField s f v m).pc = s.pc := rfl
@[simp] theorem mergeField_vram (s : State) (f : Field) (v m : Word) : (mergeField s f v m).vram = s.vram := rfl
@[simp] theorem mergeField_crtcValid (s : State) (f : Field) (v m : Word) : (mergeField s f v m).crtcValid = s.crtcValid := rfl
@[simp] theorem mergeField_geometry (s : State) (f : Field) (v m : Word) : (mergeField s f v m).geometry = s.geometry := rfl
@[simp] theorem mergeField_vsyncArmed (s : State) (f : Field) (v m : Word) : (mergeField s f v m).vsyncArmed = s.vsyncArmed := rfl
@[simp] theorem mergeField_irqLevel (s : State) (f : Field) (v m : Word) : (mergeField s f v m).irqLevel = s.irqLevel := rfl
@[simp] theorem mergeField_trace (s : State) (f : Field) (v m : Word) : (mergeField s f v m).trace = s.trace := rfl
@[simp] theorem mergeField_passes (s : State) (f : Field) (v m : Word) : (mergeField s f v m).passes = s.passes := rfl
@[simp] theorem mergeField_depth (s : State) (f : Field) (v m : Word) : (mergeField s f v m).depth = s.depth := rfl
@[simp] theorem mergeField_faulted (s : State) (f : Field) (v m : Word) : (mergeField s f v m).faulted = s.faulted := rfl
@[simp] theorem mergeField_cfg (s : State) (f : Field) (v m : Word) : (mergeField s f v m).cfg = s.cfg := rfl
@[simp] theorem mergeField_inputs (s : State) (f : Field) (v m : Word) : (mergeField s f v m).inputs = s.inputs := rfl
@[simp] theorem mergeField_replies (s : State) (f : Field) (v m : Word) : (mergeField s f v m).replies = s.replies := rfl
@[simp] theorem mergeField_draws (s : State) (f : Field) (v m : Word) : (mergeField s f v m).draws = s.draws := rfl

end Sys2Proof.Machine
end

