-- ==== Sys2Proof/Laws/Memory.lean ====
section
/-! SUPPORT. Video memory: a read after a write, everything else unchanged, and every operation keeps the canonical
form. -/

namespace Sys2Proof.Machine

/-! ### One byte -/

theorem Memory.find_put_self (m : Memory) (a : Nat) (b : Byte) : Memory.find (Memory.put m a b) a = some b := by
  induction m with
  | nil => simp [Memory.put, Memory.find]
  | cons c m ih =>
    obtain ⟨x, y⟩ := c
    simp only [Memory.put]
    split
    · simp [Memory.find]
    · split
      · simp [Memory.find]
      · rename_i h1 h2
        have : ¬ x = a := fun h => h2 h.symm
        simp [Memory.find, this, ih]

theorem Memory.find_put_other (m : Memory) (a x : Nat) (b : Byte) (h : x ≠ a) :
    Memory.find (Memory.put m a b) x = Memory.find m x := by
  have h' : ¬ a = x := fun e => h e.symm
  induction m with
  | nil => simp [Memory.put, Memory.find, h']
  | cons c m ih =>
    obtain ⟨y, z⟩ := c
    simp only [Memory.put]
    split
    · simp [Memory.find, h']
    · split
      · rename_i _ hay
        subst hay
        simp [Memory.find, h']
      · simp only [Memory.find, ih]

theorem Memory.byteAt_put_self (m : Memory) (a : Nat) (b : Byte) : Memory.byteAt (Memory.put m a b) a = b := by
  simp [Memory.byteAt, Memory.find_put_self]

theorem Memory.byteAt_put_other (m : Memory) (a x : Nat) (b : Byte) (h : x ≠ a) :
    Memory.byteAt (Memory.put m a b) x = Memory.byteAt m x := by
  simp [Memory.byteAt, Memory.find_put_other m a x b h]

/-! ### Several bytes -/

/-- Outside the written bytes nothing changes. -/
theorem Memory.byteAt_putBytes_outside (m : Memory) (a x : Nat) (bs : List Byte)
    (h : x < a ∨ a + bs.length ≤ x) : Memory.byteAt (Memory.putBytes m a bs) x = Memory.byteAt m x := by
  induction bs generalizing a with
  | nil => rfl
  | cons b bs ih =>
    simp only [List.length_cons] at h
    rw [Memory.putBytes, Memory.byteAt_put_other _ _ _ _ (by omega)]
    exact ih (a + 1) (by omega)

/-- Inside the written bytes the byte written there is read. -/
theorem Memory.byteAt_putBytes_inside (m : Memory) (a k : Nat) (bs : List Byte) (h : k < bs.length) :
    Memory.byteAt (Memory.putBytes m a bs) (a + k) = bs[k] := by
  induction bs generalizing a k with
  | nil => simp at h
  | cons b bs ih =>
    cases k with
    | zero => simp [Memory.putBytes, Memory.byteAt_put_self]
    | succ k =>
      have hk : k < bs.length := by simpa using h
      rw [Memory.putBytes, Memory.byteAt_put_other _ _ _ _ (by omega)]
      have := ih (a + 1) k hk
      rw [show a + (k + 1) = a + 1 + k by omega, this]
      simp

/-! ### The canonical form -/

theorem Memory.risesFrom_mono {lo lo' : Nat} (h : lo' ≤ lo) :
    ∀ {m : Memory}, Memory.risesFrom lo m = true → Memory.risesFrom lo' m = true
  | [], _ => rfl
  | (x, _) :: m, hm => by
    simp only [Memory.risesFrom, Bool.and_eq_true, decide_eq_true_eq] at hm ⊢
    exact ⟨by omega, hm.2⟩

theorem Memory.risesFrom_put {lo a : Nat} (b : Byte) (h : lo < a) :
    ∀ {m : Memory}, Memory.risesFrom lo m = true → Memory.risesFrom lo (Memory.put m a b) = true
  | [], _ => by simp [Memory.put, Memory.risesFrom, h]
  | (x, y) :: m, hm => by
    simp only [Memory.risesFrom, Bool.and_eq_true, decide_eq_true_eq] at hm
    simp only [Memory.put]
    split
    · simp [Memory.risesFrom, *]
    · split
      · simp_all [Memory.risesFrom]
      · simp only [Memory.risesFrom, Bool.and_eq_true, decide_eq_true_eq]
        exact ⟨hm.1, Memory.risesFrom_put b (by omega) hm.2⟩

theorem Memory.wf_put (m : Memory) (a : Nat) (b : Byte) (h : Memory.wf m = true) :
    Memory.wf (Memory.put m a b) = true := by
  cases m with
  | nil => rfl
  | cons c m =>
    obtain ⟨x, y⟩ := c
    simp only [Memory.wf] at h
    simp only [Memory.put]
    split
    · simp [Memory.wf, Memory.risesFrom, *]
    · split
      · rename_i _ hax
        subst hax
        exact h
      · exact Memory.risesFrom_put b (by omega) h

theorem Memory.wf_putBytes (m : Memory) (a : Nat) (bs : List Byte) (h : Memory.wf m = true) :
    Memory.wf (Memory.putBytes m a bs) = true := by
  induction bs generalizing a with
  | nil => exact h
  | cons b bs ih => exact Memory.wf_put _ _ _ (ih (a + 1))

theorem Memory.mem_put {m : Memory} {a : Nat} {b : Byte} {c : Host.Cell} (h : c ∈ Memory.put m a b) :
    c = (a, b) ∨ c ∈ m := by
  induction m with
  | nil => simpa [Memory.put] using h
  | cons d m ih =>
    simp only [Memory.put] at h
    split at h
    · simpa using h
    · split at h
      · have := List.mem_cons.mp h
        exact this.imp_right (List.mem_cons_of_mem _)
      · rcases List.mem_cons.mp h with h | h
        · exact .inr (h ▸ List.mem_cons_self)
        · exact (ih h).imp_right (List.mem_cons_of_mem _)

/-- Writing inside a bound keeps every listed address inside it. -/
theorem Memory.putBytes_inside {m : Memory} {a size : Nat} {bs : List Byte} (hm : ∀ c ∈ m, c.1 < size)
    (ha : a + bs.length ≤ size) : ∀ c ∈ Memory.putBytes m a bs, c.1 < size := by
  induction bs generalizing a with
  | nil => exact hm
  | cons b bs ih =>
    simp only [List.length_cons] at ha
    intro c hc
    rcases Memory.mem_put hc with h | h
    · subst h
      show a < size
      omega
    · exact ih (a := a + 1) (by omega) c h

/-! ### Byte order -/

@[simp] theorem length_splitLittle (n v : Nat) : (splitLittle n v).length = n := by
  induction n generalizing v with
  | zero => rfl
  | succ n ih => simp [splitLittle, ih]

@[simp] theorem length_splitBytes (o : ByteOrder) (n v : Nat) : (splitBytes o n v).length = n := by
  cases o <;> simp [splitBytes]

theorem joinLittle_splitLittle (n v : Nat) (h : v < 256 ^ n) : joinLittle (splitLittle n v) = v := by
  induction n generalizing v with
  | zero => simp at h; simp [splitLittle, joinLittle, h]
  | succ n ih =>
    have hv : v / 256 < 256 ^ n := by
      rw [Nat.div_lt_iff_lt_mul (by decide)]
      rw [Nat.pow_succ] at h
      exact h
    simp only [splitLittle, joinLittle, ih _ hv, BitVec.toNat_ofNat]
    omega

/-- Joining what splitting gave, in either byte order. -/
theorem joinBytes_splitBytes (o : ByteOrder) (n v : Nat) (h : v < 256 ^ n) :
    joinBytes o (splitBytes o n v) = v := by
  cases o <;> simp [joinBytes, splitBytes, joinLittle_splitLittle n v h]

theorem joinLittle_lt (bs : List Byte) : joinLittle bs < 256 ^ bs.length := by
  induction bs with
  | nil => simp [joinLittle]
  | cons b bs ih =>
    simp only [joinLittle, List.length_cons, Nat.pow_succ]
    have := b.isLt
    omega

theorem joinBytes_lt (o : ByteOrder) (bs : List Byte) : joinBytes o bs < 256 ^ bs.length := by
  cases o
  · exact joinLittle_lt bs
  · simpa [joinBytes] using joinLittle_lt bs.reverse

theorem splitLittle_joinLittle (bs : List Byte) : splitLittle bs.length (joinLittle bs) = bs := by
  induction bs with
  | nil => rfl
  | cons b bs ih =>
    have hb := b.isLt
    simp only [List.length_cons, splitLittle, joinLittle]
    rw [show (b.toNat + 256 * joinLittle bs) / 256 = joinLittle bs by omega, ih]
    congr 1
    apply BitVec.eq_of_toNat_eq
    simp only [BitVec.toNat_ofNat]
    omega

/-- Splitting what joining gave, in either byte order: a copy of bytes through a number changes no byte. -/
theorem splitBytes_joinBytes (o : ByteOrder) (bs : List Byte) : splitBytes o bs.length (joinBytes o bs) = bs := by
  cases o with
  | little => exact splitLittle_joinLittle bs
  | big =>
    have h := splitLittle_joinLittle bs.reverse
    rw [List.length_reverse] at h
    simp [splitBytes, joinBytes, h]

/-! ### Loads and stores of the state -/

theorem vramBytes_length (s : State) (a n : Nat) : (vramBytes s a n).length = n := by
  simp [vramBytes, interval]

theorem loadValue_lt (s : State) (a n : Nat) : loadValue s a n < 256 ^ n := by
  have := joinBytes_lt s.cfg.byteOrder (vramBytes s a n)
  rwa [vramBytes_length] at this

/-- A store changes no byte outside it. -/
theorem vramByte_storeValue_outside (s : State) (a n v x : Nat) (h : x < a ∨ a + n ≤ x) :
    vramByte (storeValue s a n v) x = vramByte s x := by
  apply Memory.byteAt_putBytes_outside
  rw [length_splitBytes]
  exact h

/-- The bytes a store leaves where it stored. -/
theorem vramBytes_storeValue (s : State) (a n v : Nat) :
    vramBytes (storeValue s a n v) a n = splitBytes s.cfg.byteOrder n v := by
  have hl : (splitBytes s.cfg.byteOrder n v).length = n := length_splitBytes _ _ _
  apply List.ext_getElem
  · simp [vramBytes, interval]
  · intro k h1 h2
    simp only [vramBytes, interval, List.getElem_map, List.getElem_range', Nat.one_mul]
    exact Memory.byteAt_putBytes_inside s.vram a k _ h2

/-- A load of what was just stored. -/
theorem loadValue_storeValue (s : State) (a n v : Nat) (h : v < 256 ^ n) :
    loadValue (storeValue s a n v) a n = v := by
  rw [loadValue, vramBytes_storeValue]
  exact joinBytes_splitBytes _ _ _ h

end Sys2Proof.Machine
end

