-- ==== Sys2Proof/Laws/Answers.lean ====
section
/-! SUPPORT. What the shared operations, the commands and a step can answer, said once. A predicate that holds of the
state and that every primitive update keeps holds of whatever is answered; a fault is always `VramRangeFault` of an
access out of range, raised in a state where the predicate held; the only refusal is
`cursorWraps`, under a condition that a lemma names. -/

namespace Sys2Proof.Machine

/-- The fault is the range fault of an access out of range, of a kind in `K`, raised in a state where `P` held. -/
def FaultFrom (K : AccessKind → Prop) (P : State → Prop) (r : FaultRecord) (after : State) : Prop :=
  ∃ t kind a n, K kind ∧ P t ∧ inRange t a n = false ∧ r = faultRecord t kind a n ∧ after = faultState t kind a n

/-- An access made inside a pass. -/
abbrev PassKind (kind : AccessKind) : Prop := kind.ofPass = true

/-- A fault in a pass. -/
abbrev PassFault : (State → Prop) → FaultRecord → State → Prop := FaultFrom PassKind

/-- The answer is a next state with `N`, or a fault with `F`, or, only where `W` holds, the refusal of a cursor that would
wrap. -/
def Answers (o : Result) (N : State → Prop) (F : FaultRecord → State → Prop) (W : Prop) : Prop :=
  match o with
  | .next s => N s
  | .fault (.vramRange r a) => F r a
  | .refused r => r = .cursorWraps ∧ W

variable {W : Prop}

theorem Answers.next {o : Result} {N F} (h : Answers o N F W) {t : State} (ho : o = .next t) : N t := by
  subst ho
  exact h

theorem Answers.fault {o : Result} {N F} (h : Answers o N F W) {r : FaultRecord} {a : State}
    (ho : o = .fault (.vramRange r a)) : F r a := by
  subst ho
  exact h

theorem Answers.refused {o : Result} {N F} (h : Answers o N F W) {r : Refusal} (ho : o = .refused r) :
    r = .cursorWraps ∧ W := by
  subst ho
  exact h

theorem Answers.mono {o : Result} {N N' : State → Prop} {F F' : FaultRecord → State → Prop} {W' : Prop}
    (h : Answers o N F W) (hN : ∀ s, N s → N' s) (hF : ∀ r a, F r a → F' r a) (hW : W → W') : Answers o N' F' W' := by
  match o, h with
  | .next s, h => exact hN s h
  | .fault (.vramRange r a), h => exact hF r a h
  | .refused r, h => exact ⟨h.1, hW h.2⟩

theorem FaultFrom.mono {K K' : AccessKind → Prop} {P P' : State → Prop} {r a} (h : FaultFrom K P r a)
    (hK : ∀ k, K k → K' k) (hP : ∀ s, P s → P' s) : FaultFrom K' P' r a := by
  obtain ⟨t, k, x, n, hk, hp, rest⟩ := h
  exact ⟨t, k, x, n, hK k hk, hP t hp, rest⟩

/-! ### Shared operations -/

theorem andThen_answers {o : Result} {k : State → Result} {N N' F} (ho : Answers o N F W)
    (hk : ∀ s, N s → Answers (k s) N' F W) : Answers (andThen o k) N' F W := by
  match o, ho with
  | .next s, ho => exact hk s ho
  | .fault (.vramRange r a), ho => exact ho
  | .refused r, ho => exact ho

/-- Under the one policy the spec gives, an access out of range is the fault. -/
theorem rangeFault_eq (s : State) (kind : AccessKind) (a n : Nat) :
    rangeFault s kind a n = .fault (.vramRange (faultRecord s kind a n) (faultState s kind a n)) := by
  unfold rangeFault
  split
  rfl

theorem rangeFault_answers {K : AccessKind → Prop} {P : State → Prop} {s : State} {kind a n N} (hk : K kind) (hp : P s)
    (h : inRange s a n = false) : Answers (rangeFault s kind a n) N (FaultFrom K P) W := by
  rw [rangeFault_eq]
  exact ⟨s, kind, a, n, hk, hp, h, rfl, rfl⟩

theorem withLoad_answers {K : AccessKind → Prop} {P : State → Prop} {s : State} {kind a n k N} (hK : K kind) (hp : P s)
    (hk : inRange s a n = true → Answers (k (loadValue s a n)) N (FaultFrom K P) W) :
    Answers (withLoad s kind a n k) N (FaultFrom K P) W := by
  unfold withLoad
  split
  · exact hk ‹_›
  · rename_i h
    exact rangeFault_answers hK hp (Bool.eq_false_iff.mpr h)

theorem store_answers {K : AccessKind → Prop} {P : State → Prop} {s : State} {kind a n v N} (hK : K kind) (hp : P s)
    (hk : inRange s a n = true → N (storeValue s a n v)) : Answers (store s kind a n v) N (FaultFrom K P) W := by
  unfold store
  split
  · exact hk ‹_›
  · rename_i h
    exact rangeFault_answers hK hp (Bool.eq_false_iff.mpr h)

/-- A loop whose body keeps `P` keeps `P`. -/
theorem forEach_answers {α : Type} {P : State → Prop} {xs : List α} {f : α → State → Result} {F}
    (hf : ∀ x ∈ xs, ∀ s, P s → Answers (f x s) P F W) : ∀ {s}, P s → Answers (forEach xs f s) P F W := by
  induction xs with
  | nil => intro s h; exact h
  | cons x xs ih =>
    intro s h
    exact andThen_answers (hf x List.mem_cons_self s h)
      fun t ht => ih (fun y hy => hf y (List.mem_cons_of_mem _ hy)) ht

theorem copyPixel_answers {P : State → Prop} (hs : ∀ s a v, inRange s a 2 = true → P s → P (storeValue s a 2 v))
    {K : AccessKind → Prop} {rk wk src dst} (hr : K rk) (hw : K wk) {s : State} (hp : P s) :
    Answers (copyPixel rk wk src dst s) P (FaultFrom K P) W :=
  withLoad_answers hr hp fun _ => store_answers hw hp fun h => hs _ _ _ h hp

theorem withOperandWords_answers {P : State → Prop} {s : State} (hp : P s) {N} :
    ∀ {ks : List Nat} {k : List Word → Result}, (∀ ws, Answers (k ws) N (PassFault P) W) →
      Answers (withOperandWords s ks k) N (PassFault P) W
  | [], _, hk => hk _
  | _ :: _, _, hk => withLoad_answers rfl hp fun _ => withOperandWords_answers hp fun _ => hk _

theorem withOperands_answers {P : State → Prop} {s : State} (hp : P s) {N n} {k : List Word → Result}
    (hk : ∀ ws, Answers (k ws) N (PassFault P) W) : Answers (withOperands s n k) N (PassFault P) W :=
  withOperandWords_answers hp hk

/-! ### Register writes, SETREG and the end of a pass -/

/-- The advance that ends a SETREG adds without wrapping, or is refused. -/
theorem advanceBelowWrap_answers {Q : State → Prop} {s : State} {n : Nat} {F}
    (h : s.pc.toNat + (1 + n) * 4 < 2 ^ 32 → Q (advance s n)) (hw : 2 ^ 32 ≤ s.pc.toNat + (1 + n) * 4 → W) :
    Answers (advanceBelowWrap s n) Q F W := by
  unfold advanceBelowWrap
  split
  · exact h ‹_›
  · exact ⟨rfl, hw (Nat.le_of_not_lt ‹_›)⟩

/-- Field writes that start no pass keep `P`; a pass that starts, starts in a state with `P` and the flag 1. -/
theorem runWrites_cases {P Q : State → Prop} {r : Option SetregRest} (hf : ∀ w s, P s → P (fieldWrite w s))
    (ho : ∀ ws s, P s → s.regs.dlReq = 1 → Q (openPass ws r s)) :
    ∀ {ws : List PendingWrite} {s : State}, P s →
      ((runWrites ws r s).2 = false ∧ P (runWrites ws r s).1) ∨
      ((runWrites ws r s).2 = true ∧ Q (runWrites ws r s).1)
  | [], s, h => .inl ⟨rfl, h⟩
  | w :: ws, s, h => by
    unfold runWrites
    split
    · rename_i hs
      simp only [startsPass, Bool.and_eq_true, beq_iff_eq] at hs
      exact .inr ⟨rfl, ho _ _ (hf w s h) hs.2⟩
    · exact runWrites_cases hf ho (hf w s h)

theorem setregValues_answers {P Q : State → Prop} {imm16 : Half} {n : Nat} (hf : ∀ w s, P s → P (fieldWrite w s))
    (ha : ∀ s, P s → s.pc.toNat + (1 + n) * 4 < 2 ^ 32 → Q (advance s n))
    (hw : ∀ s, P s → 2 ^ 32 ≤ s.pc.toNat + (1 + n) * 4 → W) :
    ∀ {is : List Nat} {s : State},
      (∀ i ∈ is, ∀ ws s, P s → s.regs.dlReq = 1 → Q (openPass ws (some ⟨imm16, n, i + 1⟩) s)) → P s →
      Answers (setregValues imm16 n is s) Q (PassFault P) W
  | [], s, _, h => advanceBelowWrap_answers (ha s h) (hw s h)
  | i :: is, s, ho, h => by
    unfold setregValues
    refine withLoad_answers rfl h fun _ => ?_
    rcases runWrites_cases (r := some ⟨imm16, n, i + 1⟩) hf (ho i List.mem_cons_self)
      (ws := registerWrites s.cfg (setregOffset imm16 i)
        (BitVec.ofNat 32 (loadValue s (s.pc.toNat + 4 + 4 * i) 4)) (BitVec.allOnes 32)) h with ⟨h2, h1⟩ | ⟨h2, h1⟩
    · rw [← Prod.eta (runWrites _ _ _), h2]
      exact setregValues_answers hf ha hw (fun j hj => ho j (List.mem_cons_of_mem _ hj)) h1
    · rw [← Prod.eta (runWrites _ _ _), h2]
      exact h1

theorem mem_interval {a b i : Nat} : i ∈ interval a b ↔ a ≤ i ∧ i < b := by
  simp only [interval, List.mem_range'_1]
  omega

/-- The end of a pass: `P` of the closed state is kept by what follows, `Q` holds of what is answered. -/
theorem finishPass_answers {P Q : State → Prop} {p : Pass} {rest : List Pass} {s : State}
    (hf : ∀ w s, P s → P (fieldWrite w s))
    (ho : ∀ ws t, P t → t.regs.dlReq = 1 → Q (openPass ws p.setreg t))
    (hn : p.setreg = none → ∀ t, P t → Q t)
    (hr : ∀ r, p.setreg = some r → ∀ i, r.next ≤ i → i < r.n → ∀ ws t, P t → t.regs.dlReq = 1 →
      Q (openPass ws (some ⟨r.imm16, r.n, i + 1⟩) t))
    (ha : ∀ r, p.setreg = some r → ∀ t, P t → t.pc.toNat + (1 + r.n) * 4 < 2 ^ 32 → Q (advance t r.n))
    (hw : ∀ r, p.setreg = some r → ∀ t, P t → 2 ^ 32 ≤ t.pc.toNat + (1 + r.n) * 4 → W)
    (h : P (closePass p rest s)) : Answers (finishPass p rest s) Q (PassFault P) W := by
  unfold finishPass
  rcases runWrites_cases (r := p.setreg) (ws := p.writes) hf ho h with ⟨h2, h1⟩ | ⟨h2, h1⟩
  · rw [← Prod.eta (runWrites _ _ _), h2]
    dsimp only
    split
    · rename_i he
      exact hn he _ h1
    · rename_i r he
      refine setregValues_answers hf (ha r he) (hw r he) (fun i hi => hr r he i ?_ ?_) h1
      · exact (mem_interval.mp hi).1
      · exact (mem_interval.mp hi).2
  · rw [← Prod.eta (runWrites _ _ _), h2]
    exact h1

/-! ### The commands -/

/-- Whatever a command does, it does by stores, field writes, `raiseStatus`, the cursor advance, and for a SETREG that
sets the request flag the start of an inner pass. -/
theorem exec_answers {P Q : State → Prop} {i : Instr} {s : State}
    (hs : ∀ s a v, inRange s a 2 = true → P s → P (storeValue s a 2 v))
    (hf : ∀ w s, P s → P (fieldWrite w s))
    (hi : ∀ s, P s → P (raiseStatus s s.cfg.istCendBit))
    (ho : ∀ imm16 n j ws t, j < n → n < 256 → P t → t.regs.dlReq = 1 →
      Q (openPass ws (some ⟨imm16, n, j + 1⟩) t))
    (ha : ∀ s n, n < 256 → P s → Q (advance s n))
    (hw : ∀ s n, n < 256 → P s → 2 ^ 32 ≤ s.pc.toNat + (1 + n) * 4 → W) (h : P s) : Answers (exec i s) Q (PassFault P) W := by
  cases i with
  | rectFill imm16 =>
    refine withOperands_answers h fun ws => andThen_answers (N := P) ?_ fun t ht => ha t 2 (by decide) ht
    exact forEach_answers (F := PassFault P) (fun _ _ t ht => forEach_answers
      (fun _ _ u hu => store_answers (K := PassKind) rfl hu fun hr => hs _ _ _ hr hu) ht) h
  | bltcopy c imm16 =>
    refine withOperands_answers h fun ws => andThen_answers (N := P) ?_ fun t ht => ha t 7 (by decide) ht
    exact forEach_answers (F := PassFault P)
      (fun _ _ t ht => forEach_answers (fun _ _ u hu => copyPixel_answers (K := PassKind) hs rfl rfl hu) ht) h
  | drawCommit imm16 =>
    refine andThen_answers (N := P) ?_ fun t ht => ha t 0 (by decide) ht
    exact forEach_answers (F := PassFault P)
      (fun _ _ t ht => forEach_answers (fun _ _ u hu => copyPixel_answers (K := PassKind) hs rfl rfl hu) ht) h
  | setreg c imm16 =>
    exact setregValues_answers hf (fun t ht _ => ha t _ c.isLt ht) (fun t => hw t _ c.isLt)
      (fun j hj ws t ht h1 => ho _ _ _ _ _ (mem_interval.mp hj).2 c.isLt ht h1) h
  | interrupt c imm16 => exact ha _ 0 (by decide) (hi s h)
  | rectMark imm16 => exact withOperands_answers h fun ws => ha s 2 (by decide) h
  | rectOther c imm16 => exact withOperands_answers h fun ws => ha s 2 (by decide) h
  | viewport c imm16 => exact withOperands_answers h fun ws => ha s 4 (by decide) h
  | depthrange c imm16 => exact withOperands_answers h fun ws => ha s 2 (by decide) h
  | xyclip c imm16 => exact withOperands_answers h fun ws => ha s 4 (by decide) h
  | zclip c imm16 => exact withOperands_answers h fun ws => ha s 2 (by decide) h
  | nop c imm16 => exact ha s 0 (by decide) h
  | init c imm16 => exact ha s 0 (by decide) h
  | drawC2 imm16 => exact ha s 0 (by decide) h
  | drawE1 imm16 => exact ha s 0 (by decide) h
  | drawOther c imm16 => exact ha s 0 (by decide) h
  | unknown t c imm16 => exact ha s 0 (by decide) h

/-! ### What a field write leaves alone -/

theorem fieldWrite_cases (w : PendingWrite) (s : State) :
    (∃ f v, f ≠ .dlReq ∧ fieldWrite w s = evaluate (setField s f v)) ∨
    (∃ f v, f ≠ .dlReq ∧ fieldWrite w s = validateAndApply (setField s f v)) ∨
    (∃ v, fieldWrite w s = setField s w.field v) := by
  obtain ⟨f, v, m⟩ := w
  cases f
  case irqStat => exact .inl ⟨.irqStat, _, by decide, rfl⟩
  case irqMask => exact .inl ⟨.irqMask, _, by decide, rfl⟩
  case hTotal => exact .inr (.inl ⟨.hTotal, _, by decide, rfl⟩)
  case hDisp => exact .inr (.inl ⟨.hDisp, _, by decide, rfl⟩)
  case hBound => exact .inr (.inl ⟨.hBound, _, by decide, rfl⟩)
  case hSpos => exact .inr (.inl ⟨.hSpos, _, by decide, rfl⟩)
  case hSwid => exact .inr (.inl ⟨.hSwid, _, by decide, rfl⟩)
  case vTotal => exact .inr (.inl ⟨.vTotal, _, by decide, rfl⟩)
  case vSpos => exact .inr (.inl ⟨.vSpos, _, by decide, rfl⟩)
  case vSwid => exact .inr (.inl ⟨.vSwid, _, by decide, rfl⟩)
  case vDisp => exact .inr (.inl ⟨.vDisp, _, by decide, rfl⟩)
  all_goals exact .inr (.inr ⟨_, rfl⟩)

end Sys2Proof.Machine
end

