-- ==== Sys2Proof/Laws/Registers.lean ====
section
/-! SUPPORT. Register fields: what a store leaves in its own field and in the others, and what a field write leaves
alone. -/

namespace Sys2Proof.Machine

/-- A field holds what was stored into it, truncated to its width. -/
theorem RegFile.get_put_self (r : RegFile) (f : Field) (v : Word) :
    (r.put f v).get f = v &&& ones f.width := by
  have h : ∀ (w : Nat) (x : Word), w ≤ 32 → (x.setWidth w).setWidth 32 = x &&& ones w := by
    intro w x hw
    apply BitVec.eq_of_toNat_eq
    have hx := x.isLt
    have hp : 2 ^ w - 1 < 2 ^ 32 := by
      have := Nat.pow_le_pow_right (show 0 < 2 by decide) hw
      have := Nat.two_pow_pos w
      omega
    simp only [BitVec.toNat_setWidth, BitVec.toNat_and, ones, BitVec.toNat_ofNat, Nat.mod_eq_of_lt hp,
      Nat.and_two_pow_sub_one_eq_mod]
    exact Nat.mod_eq_of_lt (Nat.lt_of_le_of_lt (Nat.mod_le _ _) hx)
  have hall : v &&& ones 32 = v := by
    have := h 32 v (by decide)
    simpa using this.symm
  cases f
  case irqStat => exact hall.symm
  case irqMask => exact hall.symm
  case clMode => exact hall.symm
  all_goals exact h _ v (by decide)

/-- A store into one field leaves every other field. -/
theorem RegFile.get_put_other (r : RegFile) (f g : Field) (v : Word) (h : g ≠ f) :
    (r.put f v).get g = r.get g := by
  cases f <;> cases g <;> first | rfl | exact absurd rfl h

/-- Two register files with equal fields are equal. -/
theorem RegFile.ext_get {r r' : RegFile} (h : ∀ f, r.get f = r'.get f) : r = r' := by
  have inj : ∀ {w : Nat} {a b : BitVec w}, w ≤ 32 → a.setWidth 32 = b.setWidth 32 → a = b := by
    intro w a b hw e
    have e' := congrArg BitVec.toNat e
    simp only [BitVec.toNat_setWidth] at e'
    have ha := a.isLt
    have hb := b.isLt
    have hp := Nat.pow_le_pow_right (show 0 < 2 by decide) hw
    rw [Nat.mod_eq_of_lt (by omega), Nat.mod_eq_of_lt (by omega)] at e'
    exact BitVec.eq_of_toNat_eq e'
  cases r
  cases r'
  congr 1
  · exact inj (by decide) (h .dlSrc)
  · exact inj (by decide) (h .dlCnt)
  · exact inj (by decide) (h .dlReq)
  · exact inj (by decide) (h .hTotal)
  · exact inj (by decide) (h .hDisp)
  · exact inj (by decide) (h .hBound)
  · exact inj (by decide) (h .hSpos)
  · exact inj (by decide) (h .hSwid)
  · exact inj (by decide) (h .vTotal)
  · exact inj (by decide) (h .vSpos)
  · exact inj (by decide) (h .vSwid)
  · exact inj (by decide) (h .vDisp)
  · exact h .irqStat
  · exact h .irqMask
  · exact inj (by decide) (h .fbBase)
  · exact inj (by decide) (h .fbXres)
  · exact inj (by decide) (h .fgCol)
  · exact inj (by decide) (h .bgCol)
  · exact h .clMode
  · exact inj (by decide) (h .clAddr)
  · exact inj (by decide) (h .dispEn)

/-! ### `ValidateAndApply()` and field writes, field by field -/

@[simp] theorem validateAndApply_regs (s : State) : (validateAndApply s).regs = s.regs := by
  unfold validateAndApply; split <;> rfl
@[simp] theorem validateAndApply_pc (s : State) : (validateAndApply s).pc = s.pc := by
  unfold validateAndApply; split <;> rfl
@[simp] theorem validateAndApply_vram (s : State) : (validateAndApply s).vram = s.vram := by
  unfold validateAndApply; split <;> rfl
@[simp] theorem validateAndApply_irqLevel (s : State) : (validateAndApply s).irqLevel = s.irqLevel := by
  unfold validateAndApply; split <;> rfl
@[simp] theorem validateAndApply_passes (s : State) : (validateAndApply s).passes = s.passes := by
  unfold validateAndApply; split <;> rfl
@[simp] theorem validateAndApply_depth (s : State) : (validateAndApply s).depth = s.depth := by
  unfold validateAndApply; split <;> rfl
@[simp] theorem validateAndApply_faulted (s : State) : (validateAndApply s).faulted = s.faulted := by
  unfold validateAndApply; split <;> rfl
@[simp] theorem validateAndApply_cfg (s : State) : (validateAndApply s).cfg = s.cfg := by
  unfold validateAndApply; split <;> rfl
@[simp] theorem validateAndApply_inputs (s : State) : (validateAndApply s).inputs = s.inputs := by
  unfold validateAndApply; split <;> rfl
@[simp] theorem validateAndApply_replies (s : State) : (validateAndApply s).replies = s.replies := by
  unfold validateAndApply; split <;> rfl
@[simp] theorem validateAndApply_draws (s : State) : (validateAndApply s).draws = s.draws := by
  unfold validateAndApply; split <;> rfl
@[simp] theorem validateAndApply_crtcValid (s : State) : (validateAndApply s).crtcValid = timingOk s.regs := by
  unfold validateAndApply; split <;> simp_all [applyTiming, blank]
@[simp] theorem validateAndApply_vsyncArmed (s : State) : (validateAndApply s).vsyncArmed = timingOk s.regs := by
  unfold validateAndApply; split <;> simp_all [applyTiming, blank]
@[simp] theorem validateAndApply_geometry (s : State) : (validateAndApply s).geometry =
    if timingOk s.regs then some (geometryOf (timingsOf s.regs)) else none := by
  unfold validateAndApply; split <;> simp_all [applyTiming, blank]
@[simp] theorem validateAndApply_trace (s : State) : (validateAndApply s).trace =
    s.trace ++ if timingOk s.regs then [configureEvent (timingsOf s.regs) s.cfg.framePeriod] else [] := by
  unfold validateAndApply; split <;> simp_all [applyTiming, blank]

@[simp] theorem fieldWrite_pc (w : PendingWrite) (s : State) : (fieldWrite w s).pc = s.pc := by
  rcases fieldWrite_cases w s with ⟨f, v, _, h⟩ | ⟨f, v, _, h⟩ | ⟨v, h⟩ <;> rw [h] <;> simp
@[simp] theorem fieldWrite_vram (w : PendingWrite) (s : State) : (fieldWrite w s).vram = s.vram := by
  rcases fieldWrite_cases w s with ⟨f, v, _, h⟩ | ⟨f, v, _, h⟩ | ⟨v, h⟩ <;> rw [h] <;> simp
@[simp] theorem fieldWrite_passes (w : PendingWrite) (s : State) : (fieldWrite w s).passes = s.passes := by
  rcases fieldWrite_cases w s with ⟨f, v, _, h⟩ | ⟨f, v, _, h⟩ | ⟨v, h⟩ <;> rw [h] <;> simp
@[simp] theorem fieldWrite_depth (w : PendingWrite) (s : State) : (fieldWrite w s).depth = s.depth := by
  rcases fieldWrite_cases w s with ⟨f, v, _, h⟩ | ⟨f, v, _, h⟩ | ⟨v, h⟩ <;> rw [h] <;> simp
@[simp] theorem fieldWrite_faulted (w : PendingWrite) (s : State) : (fieldWrite w s).faulted = s.faulted := by
  rcases fieldWrite_cases w s with ⟨f, v, _, h⟩ | ⟨f, v, _, h⟩ | ⟨v, h⟩ <;> rw [h] <;> simp
@[simp] theorem fieldWrite_cfg (w : PendingWrite) (s : State) : (fieldWrite w s).cfg = s.cfg := by
  rcases fieldWrite_cases w s with ⟨f, v, _, h⟩ | ⟨f, v, _, h⟩ | ⟨v, h⟩ <;> rw [h] <;> simp
@[simp] theorem fieldWrite_inputs (w : PendingWrite) (s : State) : (fieldWrite w s).inputs = s.inputs := by
  rcases fieldWrite_cases w s with ⟨f, v, _, h⟩ | ⟨f, v, _, h⟩ | ⟨v, h⟩ <;> rw [h] <;> simp
@[simp] theorem fieldWrite_replies (w : PendingWrite) (s : State) : (fieldWrite w s).replies = s.replies := by
  rcases fieldWrite_cases w s with ⟨f, v, _, h⟩ | ⟨f, v, _, h⟩ | ⟨v, h⟩ <;> rw [h] <;> simp
@[simp] theorem fieldWrite_draws (w : PendingWrite) (s : State) : (fieldWrite w s).draws = s.draws := by
  rcases fieldWrite_cases w s with ⟨f, v, _, h⟩ | ⟨f, v, _, h⟩ | ⟨v, h⟩ <;> rw [h] <;> simp

/-- A field write appends to the trace and takes nothing off it. -/
theorem fieldWrite_trace (w : PendingWrite) (s : State) : s.trace <+: (fieldWrite w s).trace := by
  rcases fieldWrite_cases w s with ⟨f, v, _, h⟩ | ⟨f, v, _, h⟩ | ⟨v, h⟩ <;> rw [h] <;> simp

/-- A field write leaves the register file with one field stored. -/
theorem fieldWrite_regs (w : PendingWrite) (s : State) : (fieldWrite w s).regs = s.regs.put w.field
    (if w.field = .irqStat then s.regs.irqStat &&& ~~~(w.value &&& w.mask)
     else clipField s.cfg w.field ((s.regs.get w.field &&& ~~~w.mask) ||| (w.value &&& w.mask))) := by
  obtain ⟨f, v, m⟩ := w
  cases f <;> simp [fieldWrite]

end Sys2Proof.Machine
end

