-- ==== Sys2Proof/Laws/Step.lean ====
section
/-! SUPPORT. What a host move and a step can answer, said once (the inversion lemma of `step`). -/

namespace Sys2Proof.Machine

/-- The updates a host move is made of keep `P`; the only one that leaves it for `Q` is the start of a pass. -/
theorem hostStep_answers {W : Prop} {K : AccessKind → Prop} {P Q : State → Prop} {act : HostAction} {s : State}
    (hs : ∀ s a n v, inRange s a n = true → P s → P (storeValue s a n v))
    (hf : ∀ w s, P s → P (fieldWrite w s))
    (hi : ∀ s, s.vsyncArmed = true → P s → P (raiseStatus s s.cfg.istVsyncBit))
    (hr : ∀ s r, P s → P (reply s r))
    (hd : ∀ s : State, P s → P { s with draws := s.draws + 1 })
    (hx : ∀ s, P s → P (applyReset s))
    (ho : ∀ ws t, P t → t.regs.dlReq = 1 → Q (openPass ws none t))
    (hPQ : ∀ s, P s → Q s) (hscan : K .scanoutRead) (hhost : K .hostAccess) (h : P s) :
    Answers (hostStep act s) Q (FaultFrom K P) W := by
  cases act with
  | regWrite off data mask =>
    show Q (regWrite off data mask s)
    rcases runWrites_cases (r := none) (ws := registerWrites s.cfg off data mask) hf ho h with
      ⟨_, h1⟩ | ⟨_, h1⟩
    · exact hPQ _ h1
    · exact h1
  | regRead off mask => exact hPQ _ (hr _ _ (hd _ h))
  | vsyncFire =>
    show Q (vsyncFire s)
    unfold vsyncFire
    split
    · exact hPQ _ (hi s ‹_› h)
    · exact hPQ _ h
  | scanout region =>
    show Answers (hostScanout region s) Q (FaultFrom K P) W
    unfold hostScanout
    split
    · exact hPQ _ (hr _ _ h)
    · rename_i a ha
      refine rangeFault_answers hscan h ?_
      have key : ∀ region, scanout s region = .error a → inRange s a 2 = false := by
        intro region
        induction region with
        | nil => intro h; cases h
        | cons c region ih =>
          obtain ⟨px, py⟩ := c
          intro h
          simp only [scanout] at h
          split at h
          · split at h
            · split at h
              · cases h
              · rename_i e he
                cases h
                exact ih he
            · cases h
              exact Bool.eq_false_iff.mpr ‹_›
          · split at h
            · cases h
            · rename_i e he
              cases h
              exact ih he
      exact key region ha
  | vramRead addr size =>
    show Answers (hostVramRead addr size s) Q (FaultFrom K P) W
    exact withLoad_answers hhost h fun _ => hPQ _ (hr _ _ h)
  | vramWrite addr size v =>
    show Answers (hostVramWrite addr size v s) Q (FaultFrom K P) W
    exact store_answers hhost h fun hin => hPQ _ (hs _ _ _ _ hin h)
  | reset => exact hPQ _ (hx s h)

/-- Every update a step is made of keeps `P`. -/
structure Keeps (P : State → Prop) : Prop where
  store   : ∀ s a n v, inRange s a n = true → P s → P (storeValue s a n v)
  field   : ∀ w s, P s → P (fieldWrite w s)
  cend    : ∀ s, P s → P (raiseStatus s s.cfg.istCendBit)
  vsync   : ∀ s, s.vsyncArmed = true → P s → P (raiseStatus s s.cfg.istVsyncBit)
  opened  : ∀ ws r s, P s → s.regs.dlReq = 1 → P (openPass ws r s)
  closed  : ∀ p rest s, s.passes = p :: rest → P s → P (closePass p rest s)
  advance : ∀ s n, P s → P (advance s n)
  reply   : ∀ s r, P s → P (reply s r)
  draw    : ∀ s : State, P s → P { s with draws := s.draws + 1 }
  served  : ∀ (s : State) inputs, P s → P { s with inputs := inputs }
  reset   : ∀ s, P s → P (applyReset s)

/-- An update-closed predicate is kept by a step; if the step faults, the predicate held when it did; only a step of an
active pass can be refused. -/
theorem Keeps.step {P : State → Prop} (k : Keeps P) {s : State} (h : P s) : Answers (step s) P (FaultFrom (fun _ => True) P) (s.passes ≠ []) := by
  unfold Machine.step
  split
  · unfold idleStep
    split
    · exact h
    · exact hostStep_answers k.store k.field k.vsync k.reply k.draw k.reset (fun ws t => k.opened ws none t)
        (fun _ hp => hp) trivial trivial (k.served s _ h)
  · rename_i p rest hp
    refine Answers.mono (F := PassFault P) ?_ (fun _ h => h) (fun _ _ h => h.mono (fun _ _ => trivial) fun _ h => h) fun h => h
    unfold runningStep
    split
    · refine withLoad_answers rfl h fun _ => ?_
      exact exec_answers (fun t a v => k.store t a 2 v) k.field k.cend (fun _ _ _ ws t _ _ => k.opened ws _ t)
        (fun t n _ => k.advance t n) (fun _ _ _ _ _ => by simp [hp]) h
    · exact finishPass_answers k.field (fun ws t => k.opened ws _ t) (fun _ _ ht => ht)
        (fun _ _ _ _ _ ws t => k.opened ws _ t) (fun _ _ t ht _ => k.advance t _ ht) (fun _ _ _ _ _ => by simp [hp]) (k.closed p rest s hp h)

end Sys2Proof.Machine
end

