-- ==== Sys2Proof/Laws/Access.lean ====
section
/-! SUPPORT. Accesses and operand fetches in range and out of range, as equations, what a step of a running list
answers, and runs step by step. -/

namespace Sys2Proof.Machine

/-! ### One access -/

theorem withLoad_of_le {s : State} {kind a n} (k : Nat → Result) (h : a + n ≤ s.cfg.vramSize) :
    withLoad s kind a n k = k (loadValue s a n) := by
  simp [withLoad, inRange, h]

theorem withLoad_of_lt {s : State} {kind a n} (k : Nat → Result) (h : s.cfg.vramSize < a + n) :
    withLoad s kind a n k = rangeFault s kind a n := by
  simp [withLoad, inRange, h]

theorem store_of_le {s : State} {kind a n v} (h : a + n ≤ s.cfg.vramSize) :
    store s kind a n v = .next (storeValue s a n v) := by
  simp [store, inRange, h]

theorem store_of_lt {s : State} {kind a n v} (h : s.cfg.vramSize < a + n) :
    store s kind a n v = rangeFault s kind a n := by
  simp [store, inRange, h]

/-! ### Operand words -/

theorem withOperandWords_next (s : State) : ∀ (ks : List Nat) (k : List Word → Result),
    (∀ j ∈ ks, s.pc.toNat + 4 * j + 4 ≤ s.cfg.vramSize) →
    withOperandWords s ks k = k (ks.map fun j => wordAt s (s.pc.toNat + 4 * j))
  | [], _, _ => rfl
  | j :: js, k, h => by
    rw [withOperandWords, withLoad_of_le _ (h j List.mem_cons_self),
      withOperandWords_next s js _ fun i hi => h i (List.mem_cons_of_mem _ hi)]
    rfl

theorem withOperandWords_fault (s : State) : ∀ (l m b : Nat) (k : List Word → Result), m < l →
    (∀ j, j < m → s.pc.toNat + 4 * (b + j) + 4 ≤ s.cfg.vramSize) → s.cfg.vramSize < s.pc.toNat + 4 * (b + m) + 4 →
    withOperandWords s (List.range' b l) k = rangeFault s .operandFetch (s.pc.toNat + 4 * (b + m)) 4
  | 0, m, b, k, hm, _, _ => by omega
  | l + 1, 0, b, k, _, _, hf => by
    exact withLoad_of_lt _ hf
  | l + 1, m + 1, b, k, hm, h, hf => by
    have h0 : s.pc.toNat + 4 * b + 4 ≤ s.cfg.vramSize := h 0 (Nat.succ_pos m)
    rw [List.range'_succ, withOperandWords, withLoad_of_le _ h0,
      withOperandWords_fault s l m (b + 1) _ (by omega)
        (fun j hj => by rw [Nat.add_right_comm b 1 j]; exact h (j + 1) (by omega))
        (by rw [Nat.add_right_comm b 1 m]; exact hf),
      Nat.add_right_comm b 1 m]
    rfl

/-- Operand words in range are handed on. -/
theorem withOperands_next {s : State} {n : Nat} (k : List Word → Result) (h : OperandsInRange s n) :
    withOperands s n k = k (operandWords s n) :=
  withOperandWords_next s _ k fun j hj => h j (mem_interval.mp hj).1 (Nat.le_of_lt_succ (mem_interval.mp hj).2)

/-- The first operand word out of range faults. -/
theorem withOperands_fault {s : State} {n m : Nat} (k : List Word → Result) (h1 : 1 ≤ m) (hn : m ≤ n)
    (h : ∀ j, 1 ≤ j → j < m → s.pc.toNat + 4 * j + 4 ≤ s.cfg.vramSize)
    (hf : s.cfg.vramSize < s.pc.toNat + 4 * m + 4) :
    withOperands s n k = rangeFault s .operandFetch (s.pc.toNat + 4 * m) 4 := by
  obtain ⟨d, rfl⟩ : ∃ d, m = 1 + d := ⟨m - 1, by omega⟩
  exact withOperandWords_fault s (n + 1 - 1) d 1 k (by omega) (fun j hj => h _ (by omega) (by omega)) hf

/-! ### A step of a running list -/

/-- While a pass is active a step is a command or the end of the innermost pass, and never a host move. -/
theorem running_answers {W : Prop} {P Q : State → Prop} {s : State} {p : Pass} {rest : List Pass} (hp : s.passes = p :: rest)
    (hs : ∀ s a v, inRange s a 2 = true → P s → P (storeValue s a 2 v))
    (hf : ∀ w s, P s → P (fieldWrite w s))
    (hi : ∀ s, P s → P (raiseStatus s s.cfg.istCendBit))
    (ho : ∀ ws r t, P t → t.regs.dlReq = 1 → Q (openPass ws r t))
    (ha : ∀ s n, P s → Q (advance s n)) (hw : ∀ t n, P t → 2 ^ 32 ≤ t.pc.toNat + (1 + n) * 4 → W) (hn : ∀ t, P t → Q t)
    (hcommand : s.pc.toNat < p.endAddr → P s)
    (hend : ¬ s.pc.toNat < p.endAddr → P (closePass p rest s)) : Answers (step s) Q (PassFault P) W := by
  unfold step
  rw [hp]
  dsimp only
  unfold runningStep
  split
  · rename_i h
    exact withLoad_answers rfl (hcommand h) fun _ =>
      exec_answers hs hf hi (fun _ _ _ ws t _ _ => ho ws _ t) (fun t n _ => ha t n) (fun t n _ => hw t n) (hcommand h)
  · rename_i h
    exact finishPass_answers hf (fun ws t => ho ws _ t) (fun _ t => hn t) (fun _ _ _ _ _ ws t => ho ws _ t)
      (fun _ _ t ht _ => ha t _ ht) (fun _ _ t ht => hw t _ ht) (hend h)

/-! ### Runs -/

/-- A run goes on from the state its first step answers. -/
theorem run_succ_next {k : Nat} {s t : State} (h : step s = .next t) :
    Sys2Proof.core.run (k + 1) s = Sys2Proof.core.run k t := by
  have h' : Sys2Proof.core.step s = .next t := h
  simp only [Host.Core.run, h']

/-- A run ends with the fault of its first step. -/
theorem run_succ_fault {k : Nat} {s : State} {r : Fault} (h : step s = .fault r) :
    Sys2Proof.core.run (k + 1) s = .fault r := by
  have h' : Sys2Proof.core.step s = .fault r := h
  simp only [Host.Core.run, h']

end Sys2Proof.Machine
end

