-- ==== Sys2Proof/Laws/Decode.lean ====
section
/-! SUPPORT. The three fields of a command word and words as bytes. -/

namespace Sys2Proof

@[simp] theorem opTypeOf_packWord (t c : Byte) (i : Half) : opTypeOf (packWord t c i) = t := by
  ext k hk
  simp only [opTypeOf, packWord, BitVec.getElem_extractLsb', BitVec.getLsbD_append]
  simp [show ¬ 24 + k < 16 by omega, show 24 + k - 16 = 8 + k by omega, BitVec.getLsbD_eq_getElem hk]

@[simp] theorem opCommandOf_packWord (t c : Byte) (i : Half) : opCommandOf (packWord t c i) = c := by
  ext k hk
  simp only [opCommandOf, packWord, BitVec.getElem_extractLsb', BitVec.getLsbD_append]
  simp [hk]

@[simp] theorem imm16Of_packWord (t c : Byte) (i : Half) : imm16Of (packWord t c i) = i := by
  ext k hk
  simp only [imm16Of, packWord, BitVec.getElem_extractLsb', BitVec.getLsbD_append]
  simp [hk]

theorem packWord_fields (cw : Word) : packWord (opTypeOf cw) (opCommandOf cw) (imm16Of cw) = cw := by
  apply BitVec.eq_of_getLsbD_eq
  intro k hk
  simp only [opTypeOf, opCommandOf, imm16Of, packWord, BitVec.getLsbD_append, BitVec.getLsbD_extractLsb']
  split
  · simp [*]
  · split
    · simp only [show k - 16 < 8 by assumption, decide_true, Bool.true_and]
      rw [show 16 + (k - 16) = k by omega]
    · simp only [show k - 16 - 8 < 8 by omega, decide_true, Bool.true_and]
      rw [show 24 + (k - 16 - 8) = k by omega]

/-- What the decoder can answer for a word, with what it then knows of the word: one case a row of the table. -/
theorem decodeWord_cases {P : Instr → Prop} (cw : Word)
    (fill : opTypeOf cw = 0x09 → opCommandOf cw = 0x41 → P (.rectFill (imm16Of cw)))
    (mark : opTypeOf cw = 0x09 → opCommandOf cw = 0xE2 → P (.rectMark (imm16Of cw)))
    (rectOther : opTypeOf cw = 0x09 → opCommandOf cw ≠ 0x41 → opCommandOf cw ≠ 0xE2 →
      P (.rectOther (opCommandOf cw) (imm16Of cw)))
    (blt : opTypeOf cw = 0x0F → P (.bltcopy (opCommandOf cw) (imm16Of cw)))
    (nop : opTypeOf cw = 0x20 → P (.nop (opCommandOf cw) (imm16Of cw)))
    (init : opTypeOf cw = 0x40 → P (.init (opCommandOf cw) (imm16Of cw)))
    (viewport : opTypeOf cw = 0x41 → P (.viewport (opCommandOf cw) (imm16Of cw)))
    (depth : opTypeOf cw = 0x42 → P (.depthrange (opCommandOf cw) (imm16Of cw)))
    (xyclip : opTypeOf cw = 0x44 → P (.xyclip (opCommandOf cw) (imm16Of cw)))
    (zclip : opTypeOf cw = 0x45 → P (.zclip (opCommandOf cw) (imm16Of cw)))
    (commit : opTypeOf cw = 0xF0 → opCommandOf cw = 0xC1 → P (.drawCommit (imm16Of cw)))
    (c2 : opTypeOf cw = 0xF0 → opCommandOf cw = 0xC2 → P (.drawC2 (imm16Of cw)))
    (e1 : opTypeOf cw = 0xF0 → opCommandOf cw = 0xE1 → P (.drawE1 (imm16Of cw)))
    (drawOther : opTypeOf cw = 0xF0 → opCommandOf cw ≠ 0xC1 → opCommandOf cw ≠ 0xC2 → opCommandOf cw ≠ 0xE1 →
      P (.drawOther (opCommandOf cw) (imm16Of cw)))
    (setreg : opTypeOf cw = 0xF1 → P (.setreg (opCommandOf cw) (imm16Of cw)))
    (interrupt : opTypeOf cw = 0xFD → P (.interrupt (opCommandOf cw) (imm16Of cw)))
    (unknown : opTypeOf cw ∉ knownTypes → P (.unknown (opTypeOf cw) (opCommandOf cw) (imm16Of cw))) :
    P (decodeWord cw) := by
  unfold decodeWord
  dsimp only
  by_cases t1 : opTypeOf cw = 0x09
  · rw [if_pos t1]
    by_cases c1 : opCommandOf cw = 0x41
    · rw [if_pos c1]; exact fill t1 c1
    by_cases c2 : opCommandOf cw = 0xE2
    · rw [if_neg c1, if_pos c2]; exact mark t1 c2
    rw [if_neg c1, if_neg c2]; exact rectOther t1 c1 c2
  rw [if_neg t1]
  by_cases t2 : opTypeOf cw = 0x0F
  · rw [if_pos t2]; exact blt t2
  rw [if_neg t2]
  by_cases t3 : opTypeOf cw = 0x20
  · rw [if_pos t3]; exact nop t3
  rw [if_neg t3]
  by_cases t4 : opTypeOf cw = 0x40
  · rw [if_pos t4]; exact init t4
  rw [if_neg t4]
  by_cases t5 : opTypeOf cw = 0x41
  · rw [if_pos t5]; exact viewport t5
  rw [if_neg t5]
  by_cases t6 : opTypeOf cw = 0x42
  · rw [if_pos t6]; exact depth t6
  rw [if_neg t6]
  by_cases t7 : opTypeOf cw = 0x44
  · rw [if_pos t7]; exact xyclip t7
  rw [if_neg t7]
  by_cases t8 : opTypeOf cw = 0x45
  · rw [if_pos t8]; exact zclip t8
  rw [if_neg t8]
  by_cases t9 : opTypeOf cw = 0xF0
  · rw [if_pos t9]
    by_cases c1 : opCommandOf cw = 0xC1
    · rw [if_pos c1]; exact commit t9 c1
    by_cases d2 : opCommandOf cw = 0xC2
    · rw [if_neg c1, if_pos d2]; exact c2 t9 d2
    by_cases d3 : opCommandOf cw = 0xE1
    · rw [if_neg c1, if_neg d2, if_pos d3]; exact e1 t9 d3
    rw [if_neg c1, if_neg d2, if_neg d3]; exact drawOther t9 c1 d2 d3
  rw [if_neg t9]
  by_cases t10 : opTypeOf cw = 0xF1
  · rw [if_pos t10]; exact setreg t10
  rw [if_neg t10]
  by_cases t11 : opTypeOf cw = 0xFD
  · rw [if_pos t11]; exact interrupt t11
  rw [if_neg t11]
  refine unknown ?_
  simp only [knownTypes, List.mem_cons, List.not_mem_nil, or_false, not_or]
  exact ⟨t1, t2, t3, t4, t5, t6, t7, t8, t9, t10, t11⟩

end Sys2Proof
end

