-- ==== Sys2Proof/Laws/Loops.lean ====
section
/-! SUPPORT. Loops: sequencing, nested loops as one loop over pairs, and one pixel stored as two bytes. -/

namespace Sys2Proof.Machine

theorem andThen_assoc (o : Result) (f g : State → Result) :
    andThen (andThen o f) g = andThen o fun s => andThen (f s) g := by
  cases o <;> rfl

theorem forEach_append {α : Type} (xs ys : List α) (f : α → State → Result) (s : State) :
    forEach (xs ++ ys) f s = andThen (forEach xs f s) (forEach ys f) := by
  induction xs generalizing s with
  | nil => rfl
  | cons x xs ih =>
    simp only [List.cons_append, forEach, andThen_assoc]
    congr 1
    funext t
    exact ih t

theorem forEach_map {α β : Type} (xs : List α) (g : α → β) (f : β → State → Result) (s : State) :
    forEach (xs.map g) f s = forEach xs (fun x => f (g x)) s := by
  induction xs generalizing s with
  | nil => rfl
  | cons x xs ih =>
    simp only [List.map_cons, forEach]
    congr 1
    funext t
    exact ih t

/-- A loop in a loop is one loop over the pairs, the inner index running faster. -/
theorem forEach_nested {α β : Type} (xs : List α) (ys : List β) (f : α → β → State → Result) (s : State) :
    forEach xs (fun x => forEach ys (f x)) s =
      forEach (xs.flatMap fun x => ys.map fun y => (x, y)) (fun p => f p.1 p.2) s := by
  induction xs generalizing s with
  | nil => rfl
  | cons x xs ih =>
    simp only [List.flatMap_cons, forEach_append, forEach_map, forEach]
    congr 1
    funext t
    exact ih t

theorem mem_gridCells {y0 y1 x0 x1 : Nat} {p : Nat × Nat} :
    p ∈ gridCells y0 y1 x0 x1 ↔ (y0 ≤ p.1 ∧ p.1 < y1) ∧ x0 ≤ p.2 ∧ p.2 < x1 := by
  obtain ⟨y, x⟩ := p
  simp [gridCells, mem_interval]

/-- A pixel store replaces two bytes. -/
theorem vramByte_storeValue_pair (s : State) (a v : Nat) (b0 b1 : Byte)
    (h : splitBytes s.cfg.byteOrder 2 v = [b0, b1]) :
    vramByte (storeValue s a 2 v) = setPair (vramByte s) a b0 b1 := by
  funext x
  simp only [storeValue, h, vramByte, setPair, Memory.putBytes]
  by_cases h0 : x = a
  · subst h0
    simp [Memory.byteAt_put_self]
  · rw [Memory.byteAt_put_other _ _ _ _ h0]
    simp only [h0, if_false]
    by_cases h1 : x = a + 1
    · subst h1
      simp [Memory.byteAt_put_self]
    · rw [Memory.byteAt_put_other _ _ _ _ h1]
      simp only [h1, if_false]

/-- A pixel that is loaded is the two bytes that stand there. -/
theorem splitBytes_loadValue_pair (s : State) (a : Nat) :
    splitBytes s.cfg.byteOrder 2 (loadValue s a 2) = [vramByte s a, vramByte s (a + 1)] := by
  have h := splitBytes_joinBytes s.cfg.byteOrder (vramBytes s a 2)
  rw [vramBytes_length] at h
  rw [loadValue, h]
  simp [vramBytes, interval, List.range']

end Sys2Proof.Machine
end

