-- ==== Sys2Proof/Laws/PerInstr.lean ====
section
/-! SUPPORT. Per constructor: the command word of a well-formed instruction is decoded to that instruction. -/

namespace Sys2Proof.Laws.WordRoundTrip

/-- The decoder reads back the command word of a well-formed instruction. -/
def Statement (i : Instr) : Prop := i.wellFormed = true → decodeWord (encodeWord i) = i

theorem rectFill (i : Half) : Statement (.rectFill i) := fun _ => by simp [encodeWord, decodeWord]
theorem rectMark (i : Half) : Statement (.rectMark i) := fun _ => by simp [encodeWord, decodeWord]
theorem rectOther (c : Byte) (i : Half) : Statement (.rectOther c i) := fun h => by
  simp_all [encodeWord, decodeWord, Instr.wellFormed]
theorem bltcopy (c : Byte) (i : Half) : Statement (.bltcopy c i) := fun _ => by simp [encodeWord, decodeWord]
theorem nop (c : Byte) (i : Half) : Statement (.nop c i) := fun _ => by simp [encodeWord, decodeWord]
theorem init (c : Byte) (i : Half) : Statement (.init c i) := fun _ => by simp [encodeWord, decodeWord]
theorem viewport (c : Byte) (i : Half) : Statement (.viewport c i) := fun _ => by simp [encodeWord, decodeWord]
theorem depthrange (c : Byte) (i : Half) : Statement (.depthrange c i) := fun _ => by simp [encodeWord, decodeWord]
theorem xyclip (c : Byte) (i : Half) : Statement (.xyclip c i) := fun _ => by simp [encodeWord, decodeWord]
theorem zclip (c : Byte) (i : Half) : Statement (.zclip c i) := fun _ => by simp [encodeWord, decodeWord]
theorem drawCommit (i : Half) : Statement (.drawCommit i) := fun _ => by simp [encodeWord, decodeWord]
theorem drawC2 (i : Half) : Statement (.drawC2 i) := fun _ => by simp [encodeWord, decodeWord]
theorem drawE1 (i : Half) : Statement (.drawE1 i) := fun _ => by simp [encodeWord, decodeWord]
theorem drawOther (c : Byte) (i : Half) : Statement (.drawOther c i) := fun h => by
  simp_all [encodeWord, decodeWord, Instr.wellFormed]
theorem setreg (c : Byte) (i : Half) : Statement (.setreg c i) := fun _ => by simp [encodeWord, decodeWord]
theorem interrupt (c : Byte) (i : Half) : Statement (.interrupt c i) := fun _ => by simp [encodeWord, decodeWord]
theorem unknown (t c : Byte) (i : Half) : Statement (.unknown t c i) := fun h => by
  simp only [Instr.wellFormed, knownTypes, List.contains_eq_mem, List.mem_cons, List.not_mem_nil, or_false,
    Bool.not_eq_true', decide_eq_false_iff_not, not_or] at h
  simp only [encodeWord, decodeWord, opTypeOf_packWord, opCommandOf_packWord, imm16Of_packWord, h, if_false]

end Sys2Proof.Laws.WordRoundTrip
end

