-- ==== Sys2Proof/Laws/Terms.lean ====
section
/-! SUPPORT. Every function of a fixed number of words is the value of a term, so a parameter of 00_scope R11 that the
spec calls a function (`BLT_DECODE`, `CL_DERIVE`, `PIXEL_FORMAT`, `VSYNC_LINE`) can be any function at all. -/

namespace Sys2Proof

/-- `t` where words `k`, `k + 1`, ... are those of the list, else `e`. -/
def WordTerm.ifWords : List Word → Nat → WordTerm → WordTerm → WordTerm
  | [], _, t, _ => t
  | w :: ws, k, t, e => .ifEq (.word k) (.num w.toNat) (WordTerm.ifWords ws (k + 1) t e) e

namespace Machine

theorem termValue_ifWords (xs : List Word) (t e : WordTerm) : ∀ (ws : List Word) (k : Nat), k + ws.length = xs.length →
    termValue xs (.ifWords ws (k + 1) t e) = if xs.drop k = ws then termValue xs t else termValue xs e
  | [], k, h => by
    have : xs.length ≤ k := by simp only [List.length_nil] at h; omega
    simp [WordTerm.ifWords, List.drop_of_length_le this]
  | w :: ws, k, h => by
    simp only [List.length_cons] at h
    have hlt : k < xs.length := by omega
    rw [List.drop_eq_getElem_cons hlt]
    simp only [WordTerm.ifWords, termValue, operand, Nat.add_sub_cancel, List.getD_eq_getElem _ _ hlt,
      termValue_ifWords xs t e ws (k + 1) (by omega), List.cons.injEq, ← BitVec.toNat_inj]
    by_cases hw : (xs[k]).toNat = w.toNat <;> simp [hw]

/-- There are finitely many words. -/
theorem words_finite : ∃ W : List Word, ∀ w, w ∈ W :=
  ⟨(List.range (2 ^ 32)).map (BitVec.ofNat 32), fun w =>
    List.mem_map.mpr ⟨w.toNat, List.mem_range.mpr w.isLt, by simp⟩⟩

/-- There are finitely many lists of `n` words. -/
theorem wordLists_finite (n : Nat) : ∃ L : List (List Word), ∀ ws, ws ∈ L ↔ ws.length = n := by
  obtain ⟨W, hW⟩ := words_finite
  induction n with
  | zero => exact ⟨[[]], by simp⟩
  | succ n ih =>
    obtain ⟨L, hL⟩ := ih
    refine ⟨L.flatMap fun ws => W.map fun w => w :: ws, fun ws => ?_⟩
    cases ws with
    | nil => simp
    | cons w ws => simp [hL, hW]

/-- A parameter that is a function of `n` words can be any function. -/
theorem exists_term (n : Nat) (f : List Word → Nat) :
    ∃ t : WordTerm, ∀ ws : List Word, ws.length = n → termValue ws t = f ws := by
  obtain ⟨L, hL⟩ := wordLists_finite n
  have h : ∀ K : List (List Word), (∀ ws ∈ K, ws.length = n) → ∃ t : WordTerm, ∀ ws ∈ K, termValue ws t = f ws := by
    intro K hK
    induction K with
    | nil => exact ⟨.num 0, by simp⟩
    | cons x K ih =>
      obtain ⟨t, ht⟩ := ih fun ws hws => hK ws (List.mem_cons_of_mem _ hws)
      refine ⟨.ifWords x 1 (.num (f x)) t, fun ws hws => ?_⟩
      have hx := hK x List.mem_cons_self
      have := termValue_ifWords ws (.num (f x)) t x 0 (by simp [hx, hK ws hws])
      simp only [Nat.zero_add, List.drop_zero] at this
      rw [this]
      split
      · rename_i he
        rw [he]
        rfl
      · rename_i he
        exact ht ws ((List.mem_cons.mp hws).resolve_left he)
  obtain ⟨t, ht⟩ := h L fun ws hws => (hL ws).mp hws
  exact ⟨t, fun ws hws => ht ws ((hL ws).mpr hws)⟩

end Machine

end Sys2Proof
end

