-- ==== Sys2Proof/Laws/Writes.lean ====
section
/-! SUPPORT. Container writes: which field writes a container write is made of, and what a run of field writes that
starts no pass does, from the host or from a SETREG. -/

namespace Sys2Proof.Machine

/-- The field write starts no pass, whatever the state. -/
def PendingWrite.quiet (w : PendingWrite) : Prop := ∀ s, startsPass w (fieldWrite w s) = false

/-- Field writes that start no pass are made one after another. -/
theorem runWrites_quiet : ∀ (ws : List PendingWrite) (r : Option SetregRest) (s : State), (∀ w ∈ ws, w.quiet) →
    runWrites ws r s = (ws.foldl (fun t w => fieldWrite w t) s, false)
  | [], _, _, _ => rfl
  | w :: ws, r, s, h => by
    rw [runWrites, h w List.mem_cons_self]
    exact runWrites_quiet ws r _ fun w hw => h w (List.mem_cons_of_mem _ hw)

/-- A predicate that every field write keeps is kept by a run of them. -/
theorem foldl_fieldWrite_keeps {P : State → Prop} (hf : ∀ w s, P s → P (fieldWrite w s)) :
    ∀ (ws : List PendingWrite) (s : State), P s → P (ws.foldl (fun t w => fieldWrite w t) s)
  | [], _, h => h
  | w :: ws, s, h => foldl_fieldWrite_keeps hf ws _ (hf w s h)

/-- A field that none of the writes names stays. -/
theorem foldl_fieldWrite_other (g : Field) : ∀ (ws : List PendingWrite) (s : State), (∀ w ∈ ws, w.field ≠ g) →
    (ws.foldl (fun t w => fieldWrite w t) s).regs.get g = s.regs.get g
  | [], _, _ => rfl
  | w :: ws, s, h => by
    rw [List.foldl_cons, foldl_fieldWrite_other g ws _ fun w hw => h w (List.mem_cons_of_mem _ hw), fieldWrite_regs]
    exact RegFile.get_put_other _ _ _ _ (h w List.mem_cons_self).symm

/-- A field holds no bit beyond the places the register file has for it. -/
theorem RegFile.get_and_ones (r : RegFile) (f : Field) : r.get f &&& ones f.width = r.get f := by
  rw [← RegFile.get_put_self r f (r.get f)]
  cases f <;> simp [RegFile.get, RegFile.put]

/-- Every field write of a container write is of a field mapped at the offset. -/
theorem mem_containerWrites {m : List Slot} {off : Nat} {data mask : Word} {w : PendingWrite}
    (h : w ∈ containerWrites m off data mask) : ∃ e ∈ m, e.off = off ∧ e.field = w.field := by
  induction m with
  | nil => simp [containerWrites] at h
  | cons e es ih =>
    unfold containerWrites at h
    split at h
    · rename_i hc
      rcases List.mem_cons.mp h with rfl | h
      · exact ⟨e, List.mem_cons_self, hc.1, rfl⟩
      · obtain ⟨e', h1, h2⟩ := ih h
        exact ⟨e', List.mem_cons_of_mem _ h1, h2⟩
    · obtain ⟨e', h1, h2⟩ := ih h
      exact ⟨e', List.mem_cons_of_mem _ h1, h2⟩

/-- An offset that maps no field is written by no field write. -/
theorem containerWrites_unmapped {m : List Slot} {off : Nat} {data mask : Word} (h : ∀ e ∈ m, e.off ≠ off) :
    containerWrites m off data mask = [] := by
  induction m with
  | nil => rfl
  | cons e es ih =>
    rw [containerWrites, if_neg (fun hc => h e List.mem_cons_self hc.1), ih fun e he => h e (List.mem_cons_of_mem _ he)]

/-- The only bit of `ones 1`. -/
theorem getLsbD_ones_one (k : Nat) : (ones 1).getLsbD k = decide (k = 0) := by
  cases k <;> simp [ones]

/-- The `FieldWrite`s of a container write are those of the selected slots. -/
theorem containerWrites_eq (m : List Slot) (off : Nat) (data mask : Word) :
    containerWrites m off data mask = (m.filter (slotSelected off mask)).map (slotWrite data mask) := by
  induction m with
  | nil => rfl
  | cons e es ih =>
    by_cases h : slotSelected off mask e = true
    · rw [List.filter_cons_of_pos h, List.map_cons, ← ih, containerWrites, if_pos (by simpa [slotSelected] using h)]
      rfl
    · rw [List.filter_cons_of_neg h, ← ih, containerWrites, if_neg (by simpa [slotSelected] using h)]

/-- Under the one reading of `UNMAPPED_WRITE`, a register write is the field writes of the mapped slots. -/
theorem registerWrites_eq (c : Config) (off : Nat) (data mask : Word) :
    registerWrites c off data mask = containerWrites c.slots off data mask := by
  unfold registerWrites
  split
  rfl

/-- The slot of the request flag is one bit wide, whatever the parameters. -/
theorem width_of_request {c : Config} {e : Slot} (h : e ∈ c.slots) (hf : e.field = .dlReq) : e.width = 1 := by
  simp only [Config.slots, List.mem_map] at h
  obtain ⟨x, _, rfl⟩ := h
  have hx : x.field = .dlReq := hf
  simp [Config.slotOf, hx, Config.widthOf, Field.width]

/-- What `StartsNothing` says of a container write is that none of its field writes starts a pass. -/
theorem registerWrites_quiet {c : Config} {off : Nat} {data mask : Word} (h : StartsNothing c.slots off data mask) :
    ∀ w ∈ registerWrites c off data mask, w.quiet := by
  intro w hw s
  rw [registerWrites_eq, containerWrites_eq, List.mem_map] at hw
  obtain ⟨e, he, rfl⟩ := hw
  obtain ⟨hm, hsel⟩ := List.mem_filter.mp he
  by_cases hf : e.field = .dlReq
  · have hw1 := width_of_request hm hf
    simp only [slotSelected, Bool.and_eq_true, beq_iff_eq, bne_iff_ne, hw1] at hsel
    have hb : mask.getLsbD e.lo = true := by
      by_contra hb
      apply hsel.2
      apply BitVec.eq_of_getLsbD_eq
      intro k _
      simp only [BitVec.getLsbD_and, BitVec.getLsbD_ushiftRight, getLsbD_ones_one]
      by_cases h0 : k = 0
      · subst h0
        simpa using hb
      · simp [h0]
    have hd := (h e hm hsel.1 hf).resolve_right (by rw [hb]; simp)
    simp only [startsPass, slotWrite, hf, hw1, beq_self_eq_true, Bool.true_and, fieldWrite, mergeField, clipField,
      setField, RegFile.put, beq_eq_false_iff_ne]
    intro e'
    have := congrArg (fun b => BitVec.getLsbD b 0) e'
    simp [ones, hb, hd] at this
  · simp [startsPass, slotWrite, hf]

/-- A container write that starts no pass is its field writes, one after another. -/
theorem regWrite_quiet {off : Nat} {data mask : Word} {s : State} (h : StartsNothing s.cfg.slots off data mask) :
    regWrite off data mask s = (registerWrites s.cfg off data mask).foldl (fun t w => fieldWrite w t) s := by
  rw [regWrite, runWrites_quiet _ _ _ (registerWrites_quiet h)]

/-- A predicate that every field write keeps is kept by a container write that starts no pass. -/
theorem regWrite_quiet_keeps {P : State → Prop} (hf : ∀ w s, P s → P (fieldWrite w s)) {off : Nat} {data mask : Word}
    {s : State} (h : StartsNothing s.cfg.slots off data mask) (hp : P s) : P (regWrite off data mask s) := by
  rw [regWrite_quiet h]
  exact foldl_fieldWrite_keeps hf _ _ hp

/-! ### SETREG values that start no pass -/

/-- A state with the cursor, the parameters and the memory of `s`: what a field write leaves alone and the value fetches of
a SETREG depend on. -/
structure SameFetch (s t : State) : Prop where
  pc   : t.pc = s.pc
  cfg  : t.cfg = s.cfg
  vram : t.vram = s.vram

theorem SameFetch.fieldWrite {s t : State} (w : PendingWrite) (h : SameFetch s t) : SameFetch s (fieldWrite w t) :=
  ⟨by simp [h.pc], by simp [h.cfg], by simp [h.vram]⟩

theorem SameFetch.loadValue {s t : State} (h : SameFetch s t) (a n : Nat) : loadValue t a n = Machine.loadValue s a n := by
  have hb : vramByte t = vramByte s := by
    funext x
    simp only [vramByte, h.vram]
  simp only [Machine.loadValue, vramBytes, hb, h.cfg]

/-- SETREG values in range that start no pass are the container writes, one after another, and then the values behind
them. -/
theorem setregValues_quiet (imm16 : Half) (n : Nat) (s : State) (is : List Nat) : ∀ (l : List Nat) (t : State),
    SameFetch s t →
    (∀ i ∈ l, s.pc.toNat + 4 + 4 * i + 4 ≤ s.cfg.vramSize ∧
      StartsNothing s.cfg.slots (imm16.toNat * 4 + 4 * i) (wordAt s (s.pc.toNat + 4 + 4 * i)) (BitVec.allOnes 32)) →
    setregValues imm16 n (l ++ is) t =
        setregValues imm16 n is (setregWrites imm16 (fun i => wordAt s (s.pc.toNat + 4 + 4 * i)) l t) ∧
      SameFetch s (setregWrites imm16 (fun i => wordAt s (s.pc.toNat + 4 + 4 * i)) l t)
  | [], _, h, _ => ⟨rfl, h⟩
  | i :: l, t, h, hl => by
    obtain ⟨hr, hq⟩ := hl i List.mem_cons_self
    have hv : BitVec.ofNat 32 (loadValue t (t.pc.toNat + 4 + 4 * i) 4) = wordAt s (s.pc.toNat + 4 + 4 * i) := by
      rw [h.loadValue, h.pc, wordAt]
    obtain ⟨h1, h2⟩ := setregValues_quiet imm16 n s is l
      (regWrite (imm16.toNat * 4 + 4 * i) (wordAt s (s.pc.toNat + 4 + 4 * i)) (BitVec.allOnes 32) t)
      (regWrite_quiet_keeps (fun w _ => SameFetch.fieldWrite w) (by rw [h.cfg]; exact hq) h)
      fun j hj => hl j (List.mem_cons_of_mem _ hj)
    refine ⟨?_, h2⟩
    rw [List.cons_append, setregValues, withLoad_of_le _ (by rw [h.pc, h.cfg]; exact hr), hv, setregOffset,
      runWrites_quiet _ _ _ (by rw [h.cfg]; exact registerWrites_quiet hq)]
    dsimp only
    rw [← regWrite_quiet (by rw [h.cfg]; exact hq), h1]
    rfl

end Sys2Proof.Machine
end

