-- ==== Sys2Proof/Tests/Slice0.lean ====
section
/-! SUPPORT. Tests: what WellFormed refuses, decoding from words written out from 30_encoding, one step on a small state
(expected results from 95_test_vectors, each named), and for every obligation with hypotheses a state and operands that
meet all of them (`witness_...`). -/

namespace Sys2Proof.Tests

open Sys2Proof Sys2Proof.Machine

/-! ### Helpers -/

/-- The reference configuration with a frame period a test can compare. -/
def cfg : Config := { refConfig with framePeriod := 7 }

/-- An IDLE block with register file `r`. -/
def idle (r : RegFile) : State := { State.reset with cfg := cfg, regs := r }

/-- `idle r` with moves waiting. -/
def asked (r : RegFile) (ins : List HostAction) : State := { idle r with inputs := ins }

/-- A pass at `base` over exactly the words `ws`, whose first command is next. -/
def at_ (base : Nat) (r : RegFile) (ws : List Word) : State :=
  { idle r with
    regs := { r with dlReq := 1 }, pc := BitVec.ofNat 32 base, depth := 1,
    passes := [⟨base + 4 * ws.length, 0, [], none⟩], vram := Memory.putBytes [] base (encodeBytes .little ws) }

/-- A pass at 0x1000. -/
def running (r : RegFile) (ws : List Word) : State := at_ 0x1000 r ws

/-- What a next state shows. -/
def seen {α : Type} (o : Result) (f : State → α) : Option α :=
  match o with
  | .next t => some (f t)
  | .fault _ => none
  | .refused _ => none

/-- What a fault records. -/
def stopped (o : Result) : Option FaultRecord :=
  match o with
  | .next _ => none
  | .fault (.vramRange r _) => some r
  | .refused _ => none

/-- What the state a fault leaves shows. -/
def stoppedIn {α : Type} (o : Result) (f : State → α) : Option α :=
  match o with
  | .next _ => none
  | .fault (.vramRange _ t) => some (f t)
  | .refused _ => none

/-- Why a step is refused. -/
def refusedBy (o : Result) : Option Refusal :=
  match o with
  | .next _ => none
  | .fault _ => none
  | .refused r => some r

/-- A valid timing: V-CRTC-2. -/
def vga : RegFile :=
  { RegFile.zero with
    hTotal := 799, hDisp := 639, hBound := 639, hSpos := 655, hSwid := 63, vTotal := 524, vDisp := 479, vSpos := 489,
    vSwid := 1 }

/-- The smallest legal raster: V-CRTC-3. -/
def smallest : RegFile :=
  { RegFile.zero with hTotal := 322, hDisp := 319, hBound := 319, hSpos := 320, vTotal := 235, vDisp := 233, vSpos := 233 }

/-- The pixel vectors' start: `FB_BASE` 0x20000, `FB_XRES` 512, `FG_COL` 0x1234. -/
def canvas : RegFile := { RegFile.zero with fbBase := 0x20000, fbXres := 512, fgCol := 0x1234 }

/-! ### WellFormed -/

theorem test_wf_rect_other : (Instr.rectOther 0x41 0).wellFormed = false ∧ (Instr.rectOther 0xE2 0).wellFormed = false ∧
    (Instr.rectOther 0x42 0).wellFormed = true := by decide
theorem test_wf_draw_other : (Instr.drawOther 0xC1 0).wellFormed = false ∧ (Instr.drawOther 0xC2 0).wellFormed = false ∧
    (Instr.drawOther 0xE1 0).wellFormed = false ∧ (Instr.drawOther 0x00 0).wellFormed = true := by decide
theorem test_wf_unknown : (∀ t ∈ knownTypes, (Instr.unknown t 0 0).wellFormed = false) ∧
    (Instr.unknown 0x43 0 0).wellFormed = true := by decide
theorem test_wf_operand_count : Command.wellFormed ⟨.setreg 2 0, [1]⟩ = false ∧
    Command.wellFormed ⟨.bltcopy 0 0, []⟩ = false ∧ Command.wellFormed ⟨.setreg 2 0, [1, 2]⟩ = true := by decide
/-- The test configuration with another `REGMAP`. -/
def mapped (m : List RegEntry) : Config := { cfg with regmap := m }

theorem test_wf_regmap_missing_field : (mapped (regmapRef.drop 1)).wellFormed = false := by decide
theorem test_wf_regmap_field_twice : (mapped (⟨0x0004, .irqMask, 0⟩ :: regmapRef.drop 1)).wellFormed = false := by decide
theorem test_wf_regmap_outside_container : (mapped (⟨0x0000, .irqStat, 1⟩ :: regmapRef.drop 1)).wellFormed = false := by
  decide
theorem test_wf_regmap_odd_offset : (mapped (⟨0x0002, .irqStat, 0⟩ :: regmapRef.drop 1)).wellFormed = false := by decide
theorem test_wf_regmap_overlap : (mapped (⟨0x0004, .irqStat, 0⟩ :: regmapRef.drop 1)).wellFormed = false := by decide
theorem test_wf_request_bit_outside : Config.wellFormed { cfg with reqBit := 32 } = false ∧
    Config.wellFormed { cfg with reqBit := 31 } = true := by decide
theorem test_wf_irq_width : Config.wellFormed { cfg with irqWidth := 2 } = false ∧
    Config.wellFormed { cfg with irqWidth := 33 } = false ∧ Config.wellFormed { cfg with irqWidth := 3 } = true := by decide
theorem test_wf_status_bits_equal : Config.wellFormed { cfg with istVsyncBit := 1 } = false := by decide
theorem test_wf_reference : cfg.wellFormed = true := by decide

/-! ### Encoding: words written out from R91 and the command rules, ignored fields set -/

theorem test_decode_rect : decodeWord 0b00001001010000011111111111111111 = .rectFill 0xFFFF ∧
    decodeWord 0b00001001111000100000000000000001 = .rectMark 1 ∧
    decodeWord 0b00001001010000100000000000000000 = .rectOther 0x42 0 := by decide
theorem test_decode_blt : decodeWord 0b00001111010101011000000000000000 = .bltcopy 0x55 0x8000 := by decide
theorem test_decode_noop : decodeWord 0b00100000111111111111111111111111 = .nop 0xFF 0xFFFF ∧
    decodeWord 0b01000000000000010000000000000000 = .init 1 0 := by decide
theorem test_decode_geometry : decodeWord 0b01000001000000000000000000000010 = .viewport 0 2 ∧
    decodeWord 0b01000010000000010000000000000000 = .depthrange 1 0 ∧
    decodeWord 0b01000100000000000000000000000000 = .xyclip 0 0 ∧
    decodeWord 0b01000101100000000000000000000000 = .zclip 0x80 0 := by decide
theorem test_decode_draw : decodeWord 0b11110000110000010000000000000000 = .drawCommit 0 ∧
    decodeWord 0b11110000110000100000000000000111 = .drawC2 7 ∧
    decodeWord 0b11110000111000010000000000000000 = .drawE1 0 ∧
    decodeWord 0b11110000111000100000000000000000 = .drawOther 0xE2 0 := by decide
theorem test_decode_control : decodeWord 0b11110001000000010000010000000010 = .setreg 1 0x0402 ∧
    decodeWord 0b11111101000000000000000000000000 = .interrupt 0 0 := by decide
theorem test_decode_unknown : decodeWord 0b01110111101010111100110111101111 = .unknown 0x77 0xAB 0xCDEF ∧
    decodeWord 0x00000000 = .unknown 0 0 0 ∧ decodeWord 0xFFFFFFFF = .unknown 0xFF 0xFF 0xFFFF := by decide
theorem test_decode_table_word : decodeTableWord 32 0xF1010402 = some (.setreg 1 0x0402) := by decide
theorem test_encode : encodeWord (.setreg 1 0x0402) = 0xF1010402 ∧ encodeWord (.unknown 0x77 0xAB 0xCDEF) = 0x77ABCDEF := by
  decide
/-- P2's list. -/
theorem test_assemble : assemble (.setreg 0x0402 [0x1234]) ++ assemble (.rectFill 5 10 10 20) ++ assemble .interrupt =
    [0xF1010402, 0x00001234, 0x09410000, 0x0005000A, 0x000A0014, 0xFD000000] := by decide
/-- P3's BLTCOPY. -/
theorem test_assemble_blt : assemble (.bltcopy 0 0x30000 16 1 2 0x40000 8 0 0 4 4) =
    [0x0F000000, 0x30000, 16, 0x00010002, 0x40000, 8, 0, 0x00040004] := by decide
/-- V-MEM-1. -/
theorem test_word_bytes : wordBytes .little 0xF1010402 = [0x02, 0x04, 0x01, 0xF1] := by decide

/-! ### Commands -/

/-- V-RECT-5. -/
theorem test_fill_one_pixel : seen (step (at_ 0 canvas [0x09410000, 0x00000000, 0x00010001]))
    (fun t => (t.vram.drop 12, t.pc)) = some ([(0x20000, 0x34), (0x20001, 0x12)], 12) := by decide
/-- V-RECT-7. -/
theorem test_fill_out_of_range : stopped (step (at_ 0 canvas [0x09410000, 0x03FF0000, 0x04000001])) =
    some ⟨0x11FC00, 2, .fillWrite, 0⟩ := by decide
/-- V-RECT-8. -/
theorem test_mark : seen (step (running canvas [0x09E20000, 0x0005000A, 0x000A0014])) (fun t => (t.vram.length, t.pc)) =
    some (12, 0x100C) := by decide
/-- V-RECT-9. -/
theorem test_rect_other : seen (step (running canvas [0x09420000, 0x0005000A, 0x000A0014]))
    (fun t => (t.vram.length, t.pc)) = some (12, 0x100C) := by decide
/-- V-BLT-4, one pixel of the overlap: A B becomes A A A. -/
theorem test_blt_overlap : seen (step
      { running .zero [0x0F000000, 0x30000, 16, 0, 0x30002, 16, 0, 0x00010002] with
        vram := Memory.putBytes (Memory.putBytes [] 0x1000
          (encodeBytes .little [0x0F000000, 0x30000, 16, 0, 0x30002, 16, 0, 0x00010002])) 0x30000 [0xA, 0, 0xB, 0] })
    (fun t => (t.vram.drop 32, t.pc)) =
    some ([(0x30000, 0xA), (0x30001, 0), (0x30002, 0xA), (0x30003, 0), (0x30004, 0xA), (0x30005, 0)], 0x1020) := by
  decide
/-- R94: a layout that joins two halves of different words and scales another. -/
theorem test_blt_layout : (blitOf { cfg with bltDecode := { bltDecodeRef with
      srcAddr := .add (.mul (.bits 0 16 (.word 2)) (.num 65536)) (.bits 0 16 (.word 1)), srcStride := .mul (.word 3) (.num 64) } }
    [0x1234, 0x0002, 3, 0, 0, 0, 0]).srcAddr = 0x21234 ∧ termValue [0x1234, 0x0002, 3] (.mul (.word 3) (.num 64)) = 192 := by
  decide
/-- V-BLT-5. -/
theorem test_blt_no_wrap : stopped (step (running .zero [0x0F000000, 0xFFFFFFF0, 1, 0, 0, 1, 0, 0x00010001])) =
    some ⟨0xFFFFFFF0, 2, .bltRead, 0x1000⟩ := by decide
/-- V-NOP-1, V-NOP-2. -/
theorem test_nop_init : seen (step (running .zero [0x20FFFFFF])) (fun t => t.pc) = some 0x1004 ∧
    seen (step (running .zero [0x40000000])) (fun t => t.pc) = some 0x1004 := by decide
/-- V-NOP-3. -/
theorem test_unknown : seen (step (running .zero [0x77ABCDEF])) (fun t => (t.pc, t.regs.irqStat, t.trace)) =
    some (0x1004, 0, []) := by decide
/-- V-GEO-1, V-GEO-3. -/
theorem test_four_words : seen (step (running .zero [0x41000000, 1, 2, 3, 4])) (fun t => t.pc) = some 0x1014 ∧
    seen (step (running .zero [0x44000000, 1, 2, 3, 4])) (fun t => t.pc) = some 0x1014 := by decide
/-- V-GEO-2, V-GEO-4. -/
theorem test_two_words : seen (step (running .zero [0x42000000, 1, 2])) (fun t => t.pc) = some 0x100C ∧
    seen (step (running .zero [0x45000000, 1, 2])) (fun t => t.pc) = some 0x100C := by decide
/-- V-DRAW-1. -/
theorem test_draw_no_effect : seen (step (running .zero [0xF0C20000])) (fun t => t.pc) = some 0x1004 ∧
    seen (step (running .zero [0xF0E10000])) (fun t => t.pc) = some 0x1004 ∧
    seen (step (running .zero [0xF0000000])) (fun t => t.pc) = some 0x1004 := by decide
/-- P4's last command on its first pixel pair: `V_DISP` 0, `H_DISP` 1. -/
theorem test_commit : seen (step
      { running { RegFile.zero with clMode := 0x00010000, clAddr := 0x50000, fbBase := 0x20000, hDisp := 1 }
          [0xF0C10000] with
        vram := Memory.putBytes (Memory.putBytes [] 0x1000 (encodeBytes .little [0xF0C10000])) 0x50000
          [0x00, 0xA0, 0x01, 0xA0] })
    (fun t => ((t.vram.drop 4).take 4, t.pc)) =
    some ([(0x20000, 0x00), (0x20001, 0xA0), (0x20002, 0x01), (0x20003, 0xA0)], 0x1004) := by decide
/-- R180, R319 b: the request flag is 1 after a fault in a list that has written 0 to it. -/
theorem test_fault_leaves_request : stoppedIn (step (at_ 0xFFFF4 .zero [0xF1030006, 0, 0])) (fun t => (t.regs.dlReq, t.passes)) =
    some (1, []) := by decide
/-- R64: a fault outside a pass leaves the registers. -/
theorem test_host_fault_leaves_request : stoppedIn (step (asked .zero [.vramRead 0xFFFFD .word])) (fun t => t.regs.dlReq) =
    some 0 := by decide
/-- V-SET-3. -/
theorem test_setreg_two : seen (step (running .zero [0xF1020402, 0x1111, 0x2222]))
    (fun t => (t.regs.fgCol, t.regs.bgCol, t.pc)) = some (0x1111, 0x2222, 0x100C) := by decide
/-- P5 up to the start of the inner pass. -/
theorem test_setreg_nested : seen (step (running .zero [0xF1030004, 0x3000, 1, 1, 0xFD000000]))
    (fun t => (t.pc, t.depth, t.passes)) =
    some (0x3000, 2, [⟨0x3004, 0x1000, [], some ⟨4, 3, 3⟩⟩, ⟨0x1014, 0, [], none⟩]) := by decide
/-- R234: a value fetch out of range comes after the writes of the values before it. -/
theorem test_setreg_value_out_of_range :
    stoppedIn (step (at_ 0xFFFF4 .zero [0xF1030402, 0x1111, 0x2222]))
      (fun t => (t.regs.fgCol, t.regs.bgCol, t.faulted)) =
    some (0x1111, 0x2222, some ⟨0x100000, 4, .operandFetch, 0xFFFF4⟩) := by decide
/-- V-INT-2. -/
theorem test_interrupt : seen (step (running { RegFile.zero with irqMask := 2 } [0xFD000000]))
    (fun t => (t.regs.irqStat, t.irqLevel, t.trace, t.pc)) = some (2, true, [.irqOut true], 0x1004) := by decide
/-- V-INT-1. -/
theorem test_interrupt_masked : seen (step (running .zero [0xFD000000])) (fun t => (t.regs.irqStat, t.trace)) =
    some (2, [.irqOut false]) := by decide
/-- V-LIST-6. -/
theorem test_command_fetch_out_of_range :
    stopped (step { running .zero [0] with pc := 0xFFFFE, passes := [⟨0x100002, 0, [], none⟩] }) =
    some ⟨0xFFFFE, 4, .commandFetch, 0xFFFFE⟩ := by decide
/-- V-LIST-1, the end of the pass. -/
theorem test_pass_end : seen (step { running .zero [0x20000000] with pc := 0x1004 })
    (fun t => (t.pc, t.regs.dlReq, t.depth, t.passes)) = some (0x1004, 0, 0, []) := by decide
/-- P5, the end of the inner pass: the SETREG advances from the inner pass's cursor. -/
theorem test_inner_pass_end : seen (step
      { running .zero [0] with
        pc := 0x3004, depth := 2, passes := [⟨0x3004, 0x1000, [], some ⟨4, 3, 3⟩⟩, ⟨0x1014, 0, [], none⟩] })
    (fun t => (t.pc, t.regs.dlReq, t.depth, t.passes)) = some (0x3014, 0, 1, [⟨0x1014, 0, [], none⟩]) := by decide
/-- A pass that has reached its end at `pc`, whose caller is a SETREG with nothing left to write. -/
def returning (pc : Word) : State :=
  { running .zero [0] with
    pc := pc, depth := 2, passes := [⟨0x3004, 0x1000, [], some ⟨4, 3, 3⟩⟩, ⟨0x1014, 0, [], none⟩] }

/-- R181: the advance of the SETREG that is returned to never wraps. -/
theorem test_cursor_never_wraps : (seen (step (returning 0xFFFFFFEC)) fun t => t.pc) = some 0xFFFFFFFC ∧
    refusedBy (step (returning 0xFFFFFFF0)) = some .cursorWraps := by decide
/-- P5's reading that the spec set aside: the outer pass resumes at 0x1010. -/
theorem test_inner_pass_end_saved_cursor : seen (step
      { running .zero [0] with
        cfg := { cfg with nestedReq := .savedCursor }, pc := 0x3004, depth := 2,
        passes := [⟨0x3004, 0x1000, [], some ⟨4, 3, 3⟩⟩, ⟨0x1014, 0, [], none⟩] })
    (fun t => t.pc) = some 0x1010 := by decide

/-! ### Host moves -/

/-- V-REG-1. -/
theorem test_write_truncates : seen (step (asked .zero [.regWrite 0x0010 0xFF001000 0xFFFFFFFF])) (fun t => t.regs.dlSrc) =
    some 0x001000 := by decide
/-- V-REG-2. -/
theorem test_write_masked : seen (step (asked { RegFile.zero with hDisp := 0x27F } [.regWrite 0x0044 0xF00 0xFF00]))
    (fun t => t.regs.hDisp) = some 0xF7F := by decide
/-- V-REG-3. -/
theorem test_write_byte : seen (step (asked { RegFile.zero with fgCol := 0xAAAA } [narrowWrite .byte 0x1008 0x78]))
    (fun t => t.regs.fgCol) = some 0xAA78 := by decide
/-- V-REG-6. -/
theorem test_console_layer : seen (step (asked .zero [.regWrite 0x0070 0x80020010 0xFFFFFFFF]))
    (fun t => (clDepth t, clWidth t, clHeight t)) = some (1, 128, 0x010) := by decide
/-- V-REG-7. -/
theorem test_write_unmapped : seen (step (asked vga [.regWrite 0x0800 1 0xFFFFFFFF])) (fun t => (t.regs, t.trace)) =
    some (vga, []) := by decide
/-- V-REG-10. -/
theorem test_request_zero : seen (step (asked .zero [.regWrite 0x0018 0xFFFFFFFE 0xFFFFFFFF]))
    (fun t => (t.regs.dlReq, t.depth)) = some (0, 0) := by decide
/-- V-LIST-3, the start: a count of 0 spans 0x1000000 bytes. -/
theorem test_zero_count : seen (step (asked { RegFile.zero with dlSrc := 0x100 } [.regWrite 0x0018 1 0xFFFFFFFF]))
    (fun t => (t.pc, t.depth, t.passes)) = some (0x100, 1, [⟨0x1000100, 0, [], none⟩]) := by decide
/-- R122 with an `IRQ_WIDTH` of 8. -/
theorem test_irq_mask_truncates : seen (step { asked .zero [.regWrite 0x0004 0x1FF 0xFFFFFFFF] with
      cfg := { cfg with irqWidth := 8 } }) (fun t => t.regs.irqMask) = some 0xFF := by decide
/-- R26 with a `REQ_BIT` of 4: bit 0 of the container is not the flag. -/
theorem test_request_bit : (seen (step { asked .zero [.regWrite 0x0018 0x01 0xFFFFFFFF] with cfg := { cfg with reqBit := 4 } })
      fun t => t.depth) = some 0 ∧
    (seen (step { asked .zero [.regWrite 0x0018 0x10 0xFFFFFFFF] with cfg := { cfg with reqBit := 4 } })
      fun t => t.depth) = some 1 := by decide
/-- V-IRQ-3. -/
theorem test_status_no_debounce : seen (step (asked { RegFile.zero with irqStat := 2, irqMask := 2 }
      [.regWrite 0x0000 5 0xFFFFFFFF]))
    (fun t => (t.regs.irqStat, t.trace)) = some (2, [.irqOut true]) := by decide
/-- V-IRQ-4. -/
theorem test_status_clear : seen (step (asked { RegFile.zero with irqStat := 2, irqMask := 2 }
      [.regWrite 0x0000 2 0xFFFFFFFF]))
    (fun t => (t.regs.irqStat, t.trace)) = some (0, [.irqOut false]) := by decide
/-- V-IRQ-5. -/
theorem test_vsync_masked : seen (step { asked { vga with irqMask := 2 } [.vsyncFire] with vsyncArmed := true })
    (fun t => (t.regs.irqStat, t.trace, t.vsyncArmed)) = some (4, [.irqOut false], true) := by decide
/-- V-CRTC-2. -/
theorem test_valid_timing : seen (step (asked vga [.regWrite 0x0044 639 0xFFFFFFFF]))
    (fun t => (t.crtcValid, t.geometry, t.vsyncArmed, t.trace)) =
    some (true, some ⟨800, 525, 640, 480⟩, true, [.screenConfigure 800 525 0 0 639 479 7]) := by decide
/-- V-CRTC-3 to V-CRTC-11. -/
theorem test_timing_boundaries : timingOk smallest = true ∧ timingOk { smallest with hBound := 318, hDisp := 318 } = false ∧
    timingOk { smallest with hTotal := 321 } = false ∧ timingOk { smallest with hSpos := 319 } = false ∧
    timingOk { smallest with hBound := 320 } = false ∧ timingOk { smallest with hBound := 0 } = true ∧
    timingOk { smallest with vDisp := 232 } = false ∧ timingOk { smallest with vSpos := 232 } = false ∧
    timingOk { smallest with vTotal := 234 } = false := by decide
/-- V-CRTC-14: the sum is not wrapped. -/
theorem test_timing_sum_wide : timingOk
    { smallest with hTotal := 4095, hDisp := 4000, hBound := 0, hSpos := 4094, hSwid := 63 } = false := by decide
/-- V-SCAN-1, V-SCAN-5. -/
theorem test_scanout : seen (step { asked { canvas with dispEn := 0x8001 } [.scanout [(10, 5), (11, 5)]] with
      vram := [(0x21414, 0x1F), (0x21415, 0x7C), (0x21416, 0xFF), (0x21417, 0xFF)] })
    (fun t => t.replies) = some [.colors [⟨31, 0, 31⟩, ⟨31, 31, 31⟩]] := by decide
/-- V-SCAN-2, V-SCAN-3. -/
theorem test_scanout_disabled :
    seen (step (asked { canvas with dispEn := 0x8000 } [.scanout [(10, 5)]])) (fun t => t.replies) =
      some [.colors [⟨0, 0, 0⟩]] ∧
    seen (step (asked { canvas with dispEn := 0x000F } [.scanout [(10, 5)]])) (fun t => t.replies) =
      some [.colors [⟨0, 0, 0⟩]] := by decide
/-- V-SCAN-7. -/
theorem test_scanout_out_of_range :
    stopped (step (asked { RegFile.zero with dispEn := 0x8001, fbBase := 0xFFFFF } [.scanout [(0, 0)]])) =
    some ⟨0xFFFFF, 2, .scanoutRead, 0⟩ := by decide
/-- V-MEM-2. -/
theorem test_memory_order : seen (step { asked .zero [.vramRead 0x200 .word] with
      vram := Memory.putBytes (Memory.putBytes [] 0x200 (splitBytes .little 2 0x1234)) 0x202 (splitBytes .little 2 0xABCD) })
    (fun t => t.replies) = some [.vramValue 0xABCD1234] := by decide
/-- V-MEM-3. -/
theorem test_memory_edge : stopped (step (asked .zero [.vramRead 0xFFFFD .word])) = some ⟨0xFFFFD, 4, .hostAccess, 0⟩ ∧
    (seen (step (asked .zero [.vramWrite 0xFFFFC .word 1])) fun t => t.vram.length) = some 4 := by decide
/-- R300: registers and cursor cleared, the event armed before it gone. -/
theorem test_reset : seen (step { asked vga [.reset] with crtcValid := true, vsyncArmed := true, pc := 4, irqLevel := true })
    (fun t => (t.regs, t.pc, t.crtcValid, t.vsyncArmed, t.irqLevel)) = some (RegFile.zero, 0, false, false, false) := by decide
/-- The host's question of a row: the first step after reset runs the placed command. -/
theorem test_with_fetch_word : seen (step (State.reset.withFetchWord 32 0xF1010402)) (fun t => (t.pc, t.regs.fgCol)) =
    some (8, 0) := by decide
theorem test_with_fetch_word_interrupt : seen (step (State.reset.withFetchWord 32 0xFD000000))
    (fun t => (t.pc, t.regs.irqStat)) = some (4, 2) := by decide

/-! ### Witnesses: for each obligation with hypotheses, a state and operands that meet all of them -/

/-- A list of one RECT.FILL of one pixel. -/
def fillOne : State := running canvas [0x09410000, 0x00000000, 0x00010001]

/-- A list of one BLTCOPY of one pixel from 0x30000 to 0x40000. -/
def blitOne : State := running .zero [0x0F000000, 0x30000, 16, 0, 0x40000, 8, 0, 0x00010001]

/-- A list of one DRAW.COMMIT of one pixel from 0x50000 to 0x20000. -/
def commitOne : State := running { RegFile.zero with clAddr := 0x50000, fbBase := 0x20000 } [0xF0C10000]

/-- A list of one VIEWPORT whose third operand word is the first beyond video memory. -/
def cutShort : State := at_ 0xFFFF4 .zero [0x41000000, 1, 2]

/-- A pass that has reached its end, with `ws` and `r` left to its caller. -/
def ending (ws : List PendingWrite) (r : Option SetregRest) : State :=
  { running .zero [0x20000000] with pc := 0x1004, passes := [⟨0x1004, 0, ws, r⟩] }

theorem witness_CommandBytesRoundTrip :
    Command.wellFormed ⟨.setreg 2 0x0402, [0x1111, 0x2222]⟩ = true ∧
    Command.wellFormed ⟨.unknown 0x43 1 2, []⟩ = true := by decide

theorem witness_DecoderTakesFirstTableRow :
    (opTypeOf 0x20000000 = opTypeOf 0x20FFFFFF ∧ opTypeOf 0x20000000 ≠ 0x09 ∧ opTypeOf 0x20000000 ≠ 0xF0 ∧
      opTypeOf 0x20000000 ≠ 0xF1) ∧
    (opTypeOf 0xF0C10000 = opTypeOf 0xF0C1FFFF ∧ opCommandOf 0xF0C10000 = opCommandOf 0xF0C1FFFF) := by decide

theorem witness_StepRunsTheDecodedCommand :
    fillOne.passes = ⟨0x100C, 0, [], none⟩ :: [] ∧ fillOne.pc.toNat < 0x100C ∧
    fillOne.pc.toNat + 4 ≤ fillOne.cfg.vramSize ∧
    decodeBytes fillOne.cfg.byteOrder (vramBytes fillOne fillOne.pc.toNat 4) = .ok (.rectFill 0, []) :=
  ⟨by decide, by decide, by decide, rfl⟩

theorem witness_PassEndClearsTheRequest :
    (ending [] none).passes = ⟨0x1004, 0, [], none⟩ :: [] ∧ 0x1004 ≤ (ending [] none).pc.toNat ∧
    (ending [] none).cfg.nestedReq = .sharedCursor ∧
    (ending [] (some ⟨4, 3, 3⟩)).passes = ⟨0x1004, 0, [], some ⟨4, 3, 3⟩⟩ :: [] ∧
    (runWrites [⟨.dlReq, 1, 1⟩] none { ending [] none with passes := [] }).2 = true ∧
    (runWrites [⟨.fgCol, 1, 1⟩] none { ending [] none with passes := [] }).2 = false ∧
    (runWrites [⟨.fgCol, 1, 1⟩] (some ⟨4, 3, 3⟩) { ending [] none with passes := [] }).2 = false := by decide

theorem witness_IdleBlockWaits :
    (idle .zero).passes = [] ∧ (idle .zero).inputs = [] ∧ (asked .zero [.vsyncFire]).passes = [] ∧
    (asked .zero [.vsyncFire]).inputs = .vsyncFire :: [] ∧ (asked .zero [.vsyncFire]).vsyncArmed = false := by decide

theorem witness_EveryStopIsARangeFault :
    cutShort.passes ≠ [] ∧ stopped (step cutShort) = some ⟨0x100000, 4, .operandFetch, 0xFFFF4⟩ ∧
    refusedBy (step (returning 0xFFFFFFF0)) = some .cursorWraps := by decide

theorem witness_HostWaitsForThePass : fillOne.passes ≠ [] ∧ (seen (step fillOne) fun t => t.pc) = some 0x100C := by decide

theorem witness_EndAddressIsLatched :
    (fillOne.passes = ⟨0x100C, 0, [], none⟩ :: [] ∧ fillOne.pc.toNat < 0x100C ∧
      (seen (step fillOne) fun t => decide (t.passes = fillOne.passes)) = some true) ∧
    ((ending [] none).passes = ⟨0x1004, 0, [], none⟩ :: [] ∧ 0x1004 ≤ (ending [] none).pc.toNat ∧
      (seen (step (ending [] none)) fun t => t.passes.length) = some 0) := by decide

theorem witness_CursorAdvancesByCommandLength :
    (seen (exec (.rectFill 0) fillOne) fun t => decide (t.passes = fillOne.passes)) = some true ∧
    (seen (resumeSetreg ⟨4, 3, 3⟩ fillOne) fun t => decide (t.passes = fillOne.passes)) = some true := by decide

theorem witness_OneWordCommandsDoNothing : (0x77 : Byte) ∉ knownTypes ∧ (0x00 : Byte) ∉ knownTypes ∧
    (0xFF : Byte) ∉ knownTypes := by decide

/-- The last two words of video memory are operand words in range. -/
theorem operands_of_two : OperandsInRange (at_ 0xFFFF4 .zero [0x42000000, 1, 2]) 2 := by
  intro k h1 h2
  show 0xFFFF4 + 4 * k + 4 ≤ 0x100000
  omega

theorem operands_of_four : OperandsInRange (at_ 0xFFFEC .zero [0x44000000, 1, 2, 3, 4]) 4 := by
  intro k h1 h2
  show 0xFFFEC + 4 * k + 4 ≤ 0x100000
  omega

/-- The third operand word of `cutShort` is the first out of range. -/
theorem first_operand_out : (1 ≤ 3 ∧ 3 ≤ 4) ∧ (∀ j, 1 ≤ j → j < 3 → cutShort.pc.toNat + 4 * j + 4 ≤ cutShort.cfg.vramSize) ∧
    cutShort.cfg.vramSize < cutShort.pc.toNat + 4 * 3 + 4 := by
  refine ⟨by decide, ?_, by decide⟩
  intro j h1 h2
  show 0xFFFF4 + 4 * j + 4 ≤ 0x100000
  omega

/-- The first operand word of a two-word command at the end of video memory is out of range. -/
theorem no_operand_in : (∀ j, 1 ≤ j → j < 1 →
      (at_ 0xFFFFC .zero [0x42000000]).pc.toNat + 4 * j + 4 ≤ (at_ 0xFFFFC .zero [0x42000000]).cfg.vramSize) ∧
    (at_ 0xFFFFC .zero [0x42000000]).cfg.vramSize < (at_ 0xFFFFC .zero [0x42000000]).pc.toNat + 4 * 1 + 4 :=
  ⟨fun j h1 h2 => by omega, by decide⟩

theorem witness_DecodeOnlyCommandsFetchAndSkip :
    ((0x42 : Byte) ≠ 0x41 ∧ (0x42 : Byte) ≠ 0xE2) ∧ ((0 : Byte) ≠ 0xC1 ∧ (0 : Byte) ≠ 0xC2 ∧ (0 : Byte) ≠ 0xE1) ∧
    OperandsInRange (at_ 0xFFFF4 .zero [0x42000000, 1, 2]) 2 ∧ OperandsInRange (at_ 0xFFFEC .zero [0x44000000, 1, 2, 3, 4]) 4 ∧
    cutShort.cfg.vramSize < cutShort.pc.toNat + 4 * 3 + 4 :=
  ⟨by decide, by decide, operands_of_two, operands_of_four, first_operand_out.2.2⟩

theorem fillOne_operands : OperandsInRange fillOne 2 := by
  intro k h1 h2
  show 0x1000 + 4 * k + 4 ≤ 0x100000
  omega

theorem fillOne_rect : rectOf fillOne.cfg (operandWords fillOne 2) = ⟨0, 0, 1, 1⟩ := by decide

theorem witness_FillWritesExactlyItsRectangle :
    OperandsInRange fillOne 2 ∧ (⟨0, 0, 1, 1⟩ : Rect) = rectOf fillOne.cfg (operandWords fillOne 2) ∧
    ∀ row col, 0 ≤ row → row < 1 → 0 ≤ col → col < 1 →
      fillOne.regs.fbBase.toNat + row * (fillOne.regs.fbXres.toNat * 2) + col * 2 + 2 ≤ fillOne.cfg.vramSize := by
  refine ⟨fillOne_operands, fillOne_rect.symm, ?_⟩
  intro row col _ h1 _ h2
  show 0x20000 + row * (512 * 2) + col * 2 + 2 ≤ 0x100000
  omega

theorem witness_FillIsThePixelLoop :
    OperandsInRange fillOne 2 ∧ (⟨0, 0, 1, 1⟩ : Rect) = rectOf fillOne.cfg (operandWords fillOne 2) ∧
    splitBytes fillOne.cfg.byteOrder 2 fillOne.regs.fgCol.toNat = [0x34, 0x12] ∧
    ((∀ j, 1 ≤ j → j < 2 → (at_ 0xFFFF8 canvas [0x09410000, 0]).pc.toNat + 4 * j + 4 ≤ 0x100000) ∧
      (at_ 0xFFFF8 canvas [0x09410000, 0]).cfg.vramSize < (at_ 0xFFFF8 canvas [0x09410000, 0]).pc.toNat + 4 * 2 + 4) :=
  ⟨fillOne_operands, fillOne_rect.symm, by decide,
    fun j _ h => by show 0xFFFF8 + 4 * j + 4 ≤ 0x100000; omega, by decide⟩

theorem blitOne_operands : OperandsInRange blitOne 7 := by
  intro k h1 h2
  show 0x1000 + 4 * k + 4 ≤ 0x100000
  omega

/-- The operands of `blitOne`. -/
def blitOperands : Blit := ⟨0x30000, 16, 0, 0, 0x40000, 8, 0, 0, 1, 1⟩

theorem witness_BlitIsThePixelLoop :
    OperandsInRange blitOne 7 ∧ blitOperands = blitOf blitOne.cfg (operandWords blitOne 7) ∧
    ((∀ j, 1 ≤ j → j < 7 → (at_ 0xFFFE4 .zero [0x0F000000]).pc.toNat + 4 * j + 4 ≤ 0x100000) ∧
      (at_ 0xFFFE4 .zero [0x0F000000]).cfg.vramSize < (at_ 0xFFFE4 .zero [0x0F000000]).pc.toNat + 4 * 7 + 4) :=
  ⟨blitOne_operands, by decide, fun j _ h => by show 0xFFFE4 + 4 * j + 4 ≤ 0x100000; omega, by decide⟩

theorem witness_BlitCopiesTheBlock :
    OperandsInRange blitOne 7 ∧ blitOperands = blitOf blitOne.cfg (operandWords blitOne 7) ∧
    (∀ r k, r < blitOperands.sizeY → k < blitOperands.sizeX →
      blitOperands.srcPixel r k + 2 ≤ blitOne.cfg.vramSize ∧ blitOperands.dstPixel r k + 2 ≤ blitOne.cfg.vramSize) ∧
    (∀ r k r' k', r < blitOperands.sizeY → k < blitOperands.sizeX → r' < blitOperands.sizeY → k' < blitOperands.sizeX →
      blitOperands.srcPixel r k + 2 ≤ blitOperands.dstPixel r' k' ∨
        blitOperands.dstPixel r' k' + 2 ≤ blitOperands.srcPixel r k) ∧
    (∀ r k r' k', r < blitOperands.sizeY → k < blitOperands.sizeX → r' < blitOperands.sizeY → k' < blitOperands.sizeX →
      blitOperands.dstPixel r k = blitOperands.dstPixel r' k' → r = r' ∧ k = k') := by
  have h : ∀ r : Nat, r < blitOperands.sizeY → r = 0 := fun r hr => Nat.lt_one_iff.mp hr
  have h' : ∀ k : Nat, k < blitOperands.sizeX → k = 0 := fun k hk => Nat.lt_one_iff.mp hk
  refine ⟨blitOne_operands, by decide, ?_, ?_, ?_⟩
  · intro r k hr hk
    rw [h r hr, h' k hk]
    decide
  · intro r k r' k' hr hk hr' hk'
    rw [h r hr, h' k hk, h r' hr', h' k' hk']
    decide
  · intro r k r' k' hr hk hr' hk' _
    rw [h r hr, h' k hk, h r' hr', h' k' hk']
    decide

theorem witness_CommitCopiesTheConsoleLayer :
    (∀ r k, r ≤ commitOne.regs.vDisp.toNat → k ≤ commitOne.regs.hDisp.toNat →
      consolePixel commitOne r k + 2 ≤ commitOne.cfg.vramSize ∧ framePixel commitOne r k + 2 ≤ commitOne.cfg.vramSize) ∧
    (∀ r k r' k', r ≤ commitOne.regs.vDisp.toNat → k ≤ commitOne.regs.hDisp.toNat → r' ≤ commitOne.regs.vDisp.toNat →
      k' ≤ commitOne.regs.hDisp.toNat →
      consolePixel commitOne r k + 2 ≤ framePixel commitOne r' k' ∨
        framePixel commitOne r' k' + 2 ≤ consolePixel commitOne r k) ∧
    (∀ r k r' k', r ≤ commitOne.regs.vDisp.toNat → k ≤ commitOne.regs.hDisp.toNat → r' ≤ commitOne.regs.vDisp.toNat →
      k' ≤ commitOne.regs.hDisp.toNat → framePixel commitOne r k = framePixel commitOne r' k' → r = r' ∧ k = k') := by
  have h : ∀ r : Nat, r ≤ commitOne.regs.vDisp.toNat → r = 0 := fun r hr => Nat.le_zero.mp hr
  have h' : ∀ k : Nat, k ≤ commitOne.regs.hDisp.toNat → k = 0 := fun k hk => Nat.le_zero.mp hk
  refine ⟨?_, ?_, ?_⟩
  · intro r k hr hk
    rw [h r hr, h' k hk]
    decide
  · intro r k r' k' hr hk hr' hk'
    rw [h r hr, h' k hk, h r' hr', h' k' hk']
    decide
  · intro r k r' k' hr hk hr' hk' _
    rw [h r hr, h' k hk, h r' hr', h' k' hk']
    decide

theorem witness_ReferenceLayoutsAreTheSpecs :
    cfg.pairOrder = .firstHigh ∧ cfg.bltDecode = bltDecodeRef ∧ (idle .zero).cfg.clDerive = clDeriveRef ∧
    (idle .zero).cfg.vsyncLine = vsyncLineRef := by decide

/-- V-SET-3's list. -/
def setTwo : State := running .zero [0xF1020402, 0x1111, 0x2222]

/-- P5's list. -/
def setRequest : State := running .zero [0xF1030004, 0x3000, 1, 1, 0xFD000000]

/-- Decides `StartsNothing`. -/
def startsNothing (m : List Slot) (off : Nat) (data mask : Word) : Bool :=
  m.all fun e => e.off != off || e.field != .dlReq || !data.getLsbD e.lo || !mask.getLsbD e.lo

theorem startsNothing_iff {m : List Slot} {off : Nat} {data mask : Word} (h : startsNothing m off data mask = true) :
    StartsNothing m off data mask := by
  intro e he ho hf
  have := List.all_eq_true.mp h e he
  simp only [ho, hf, bne_self_eq_false, Bool.false_or, Bool.or_eq_true, Bool.not_eq_true'] at this
  exact this

theorem witness_SetregWritesItsValuesInOrder :
    (∀ i, i < (2 : Byte).toNat → setTwo.pc.toNat + 4 + 4 * i + 4 ≤ setTwo.cfg.vramSize ∧
      StartsNothing setTwo.cfg.slots ((0x0402 : Half).toNat * 4 + 4 * i) (wordAt setTwo (setTwo.pc.toNat + 4 + 4 * i))
        (BitVec.allOnes 32)) ∧
    (∀ e ∈ setTwo.cfg.slots, e.field = .clAddr → ∀ i, i < (2 : Byte).toNat → e.off ≠ (0x0402 : Half).toNat * 4 + 4 * i) := by
  refine ⟨?_, by decide⟩
  intro i hi
  have : i < 2 := hi
  refine ⟨by show 0x1000 + 4 + 4 * i + 4 ≤ 0x100000; omega, startsNothing_iff ?_⟩
  have h2 : ∀ i, i < 2 → startsNothing setTwo.cfg.slots ((0x0402 : Half).toNat * 4 + 4 * i)
      (wordAt setTwo (setTwo.pc.toNat + 4 + 4 * i)) (BitVec.allOnes 32) = true := by decide
  exact h2 i this

/-- P5's second value and what is left when only the third is: none of its hypotheses' writes starts a pass. -/
theorem witness_SetregWritesItsValuesInOrder_rest :
    ∀ i, (1 : Nat) ≤ i → i < 2 → setRequest.pc.toNat + 4 + 4 * i + 4 ≤ setRequest.cfg.vramSize ∧
      StartsNothing setRequest.cfg.slots ((4 : Half).toNat * 4 + 4 * i) (wordAt setRequest (setRequest.pc.toNat + 4 + 4 * i))
        (BitVec.allOnes 32) := by
  intro i h1 h2
  obtain rfl : i = 1 := by omega
  exact ⟨by decide, startsNothing_iff (by decide)⟩

/-- R181's two sides: SETREGs without values whose advance stays below 2^32, and would not. -/
theorem witness_SetregWritesItsValuesInOrder_wrap :
    setTwo.pc.toNat + 4 * (1 + (2 : Byte).toNat) < 2 ^ 32 ∧
    2 ^ 32 ≤ (returning 0xFFFFFFFC).pc.toNat + 4 * (1 + (0 : Byte).toNat) ∧
    refusedBy (exec (.setreg 0 0) (returning 0xFFFFFFFC)) = some .cursorWraps ∧
    setRequest.pc.toNat + 4 * (1 + 2) < 2 ^ 32 ∧ 2 ^ 32 ≤ (returning 0xFFFFFFF0).pc.toNat + 4 * (1 + 3) ∧
    refusedBy (resumeSetreg ⟨4, 3, 3⟩ (returning 0xFFFFFFF0)) = some .cursorWraps := by decide

/-- A list of one SETREG whose third value word is the first beyond video memory. -/
def setCut : State := at_ 0xFFFF4 .zero [0xF1030402, 0x1111, 0x2222]

theorem witness_SetregStopsAtAValueOutOfRange :
    2 < (3 : Byte).toNat ∧ setCut.cfg.vramSize < setCut.pc.toNat + 4 + 4 * 2 + 4 ∧
    ∀ i, i < 2 → setCut.pc.toNat + 4 + 4 * i + 4 ≤ setCut.cfg.vramSize ∧
      StartsNothing setCut.cfg.slots ((0x0402 : Half).toNat * 4 + 4 * i) (wordAt setCut (setCut.pc.toNat + 4 + 4 * i))
        (BitVec.allOnes 32) := by
  have h2 : ∀ i, i < 2 → startsNothing setCut.cfg.slots ((0x0402 : Half).toNat * 4 + 4 * i)
      (wordAt setCut (setCut.pc.toNat + 4 + 4 * i)) (BitVec.allOnes 32) = true := by decide
  refine ⟨by decide, by decide, fun i hi => ⟨?_, startsNothing_iff (h2 i hi)⟩⟩
  show 0xFFFF4 + 4 + 4 * i + 4 ≤ 0x100000
  omega

theorem witness_SetregOfRequestStartsInnerPass :
    2 < (3 : Byte).toNat ∧ (∀ i, i ≤ 2 → setRequest.pc.toNat + 4 + 4 * i + 4 ≤ setRequest.cfg.vramSize) ∧
    (∀ i, i < 2 → StartsNothing setRequest.cfg.slots ((4 : Half).toNat * 4 + 4 * i)
      (wordAt setRequest (setRequest.pc.toNat + 4 + 4 * i)) (BitVec.allOnes 32)) ∧
    registerWrites setRequest.cfg ((4 : Half).toNat * 4 + 4 * 2) (wordAt setRequest (setRequest.pc.toNat + 4 + 4 * 2))
      (BitVec.allOnes 32) = [⟨.dlReq, 1, 1⟩] ∧ (1 : Word).getLsbD 0 = true := by
  refine ⟨by decide, ?_, ?_, by decide, by decide⟩
  · intro i hi
    show 0x1000 + 4 + 4 * i + 4 ≤ 0x100000
    omega
  · intro i hi
    have h2 : ∀ i, i < 2 → startsNothing setRequest.cfg.slots ((4 : Half).toNat * 4 + 4 * i)
        (wordAt setRequest (setRequest.pc.toNat + 4 + 4 * i)) (BitVec.allOnes 32) = true := by decide
    exact startsNothing_iff (h2 i hi)

theorem witness_InterruptRaisesCommandListEnd :
    (2 : Word) = (idle .zero).regs.irqStat ||| BitVec.twoPow 32 (idle .zero).cfg.istCendBit := by decide

theorem witness_MaskedWriteLaw : Field.fgCol ≠ .irqStat ∧ Field.bgCol ≠ .fgCol := by decide

theorem witness_PlainFieldWriteIsTheMergeAlone :
    Field.clMode ∈ [Field.dlSrc, .dlCnt, .fbBase, .fbXres, .fgCol, .bgCol, .clAddr, .dispEn, .clMode] ∧
    (idle { RegFile.zero with clMode := 5, fgCol := 1 }).cfg = (idle .zero).cfg ∧
    (idle { RegFile.zero with clMode := 5, fgCol := 1 }).regs.clMode =
      (fieldWrite ⟨.clMode, 5, BitVec.allOnes 32⟩ (idle .zero)).regs.clMode ∧ Field.fgCol ≠ .clMode := by decide

theorem witness_TimingWriteRevalidates :
    Field.vDisp ∈ [Field.hTotal, .hDisp, .hBound, .hSpos, .hSwid, .vTotal, .vSpos, .vSwid, .vDisp] ∧
    { vga with vDisp := 100 } = vga.put .vDisp
      ((vga.get .vDisp &&& ~~~(BitVec.allOnes 32)) ||| (100 &&& BitVec.allOnes 32)) := by decide

theorem witness_StatusWriteClearsAndEvaluates :
    (0 : Word) = (idle { RegFile.zero with irqStat := 2 }).regs.irqStat &&& ~~~((2 : Word) &&& BitVec.allOnes 32) := by
  decide

theorem witness_MaskWriteMergesAndEvaluates :
    (3 : Word) = (((idle { RegFile.zero with irqMask := 2 }).regs.irqMask &&& ~~~(1 : Word)) ||| ((1 : Word) &&& 1)) &&&
      ones (idle { RegFile.zero with irqMask := 2 }).cfg.irqWidth := by
  decide

/-- A block that shares a container between `IRQ_STAT` and `DISP_EN`, with a status bit to acknowledge; the host's write
of the container. -/
def sharedAck : State :=
  { asked { RegFile.zero with irqStat := 6, irqMask := 2 } [.regWrite 0x0000 0x80010002 (BitVec.allOnes 32)] with
    cfg := { mapped (⟨0x0000, .irqStat, 0⟩ :: ⟨0x0000, .dispEn, 16⟩ ::
      regmapRef.filter fun e => e.field != .irqStat && e.field != .dispEn) with irqWidth := 8 } }

theorem witness_ContainerWriteReachesItsFields :
    ((idle vga).cfg.wellFormed = true ∧ (∀ e ∈ (idle vga).cfg.slots, e.off ≠ 0x0800)) ∧
    (StartsNothing (idle vga).cfg.slots 0x1008 0x1234 (BitVec.allOnes 32) ∧
      ∀ e ∈ (idle vga).cfg.slots, slotSelected 0x1008 (BitVec.allOnes 32) e = true →
        e.field ∉ irqFields ∧ e.field ∉ timingFields) ∧
    (StartsNothing (idle vga).cfg.slots 0x0044 0x27F (BitVec.allOnes 32) ∧
      ∃ e ∈ (idle vga).cfg.slots, slotSelected 0x0044 (BitVec.allOnes 32) e = true ∧ e.field ∈ timingFields) ∧
    (sharedAck.cfg.wellFormed = true ∧ sharedAck.passes = [] ∧
      StartsNothing sharedAck.cfg.slots 0x0000 0x80010002 (BitVec.allOnes 32) ∧
      (⟨0x0000, .irqStat, 0, 8⟩ : Slot) ∈ sharedAck.cfg.slots ∧ (⟨0x0000, .dispEn, 16, 16⟩ : Slot) ∈ sharedAck.cfg.slots ∧
      slotSelected 0x0000 (BitVec.allOnes 32) ⟨0x0000, .irqStat, 0, 8⟩ = true ∧
      slotSelected 0x0000 (BitVec.allOnes 32) ⟨0x0000, .dispEn, 16, 16⟩ = true ∧ Field.irqStat ∈ irqFields ∧
      (seen (step sharedAck) fun t => (t.regs.irqStat, t.regs.dispEn, t.irqLevel, t.trace)) =
        some (4, 0x8001, false, [.irqOut false])) :=
  ⟨by decide, ⟨startsNothing_iff (by decide), by decide⟩, ⟨startsNothing_iff (by decide), by decide⟩, by decide, by decide,
    startsNothing_iff (by decide), by decide⟩

theorem witness_HostRequestStartsAPass :
    (asked .zero [.regWrite 0x0018 1 1]).passes = [] ∧
    registerWrites (asked .zero [.regWrite 0x0018 1 1]).cfg 0x0018 1 1 = [⟨.dlReq, 1, 1⟩] ∧
    registerWrites (asked .zero [.regWrite 0x0018 0 1]).cfg 0x0018 0 1 = [⟨.dlReq, 0, 1⟩] ∧
    (1 : BitVec 1) = (((0 : BitVec 1).setWidth 32 &&& ~~~(1 : Word)) ||| ((1 : Word) &&& 1)).setWidth 1 ∧
    (0 : BitVec 1) = (((0 : BitVec 1).setWidth 32 &&& ~~~(1 : Word)) ||| ((0 : Word) &&& 1)).setWidth 1 := by decide

theorem witness_RegReadReturnsFieldsAndChangesNothing :
    (asked vga [.regRead 0x0044 0xFFF]).passes = [] ∧ (asked vga [.regRead 0x0044 0xFFF]).inputs = .regRead 0x0044 0xFFF :: [] ∧
    (asked vga [.regRead 0x0044 0xFFF]).cfg.wellFormed = true ∧
    (⟨0x0044, .hDisp, 0, 12⟩ : Slot) ∈ (asked vga [.regRead 0x0044 0xFFF]).cfg.slots := by decide

theorem witness_ValidationAppliesOrBlanks :
    horizOk (timingsOf { smallest with hSpos := 319 }) = false ∧ vertOk (timingsOf { smallest with vSpos := 232 }) = false ∧
    horizOk (timingsOf smallest) = true ∧ vertOk (timingsOf smallest) = true := by decide

theorem witness_ValidationIsPure :
    timingsOf (idle vga).regs = timingsOf (idle { vga with fgCol := 1, irqStat := 4 }).regs ∧
    (idle vga).regs.hTotal = (idle { vga with fgCol := 1, irqStat := 4 }).regs.hTotal ∧
    (idle vga).regs.vDisp = (idle { vga with fgCol := 1, irqStat := 4 }).regs.vDisp ∧
    [Event.screenConfigure 800 525 0 0 639 479 7] =
      (if timingOk (idle vga).regs then [configureEvent (timingsOf (idle vga).regs) (idle vga).cfg.framePeriod] else []) := by
  decide

theorem witness_VsyncIsScheduledAfterTheDisplay :
    (idle vga).cfg.vsyncLine = vsyncLineRef ∧ scheduledVsync (validateAndApply (idle vga)) = some 480 ∧
    HiddenDerived (validateAndApply (idle vga)) ∧ HiddenDerived (idle .zero) ∧
    scheduledVsync (fieldWrite ⟨.vDisp, 239, BitVec.allOnes 32⟩ (validateAndApply (idle vga))) = some 240 ∧
    scheduledVsync (fieldWrite ⟨.vDisp, 100, BitVec.allOnes 32⟩ (validateAndApply (idle vga))) = none :=
  ⟨by decide, by decide, ⟨by decide, by decide, by decide, by decide⟩, ⟨by decide, by decide, by decide, by decide⟩,
    by decide, by decide⟩

/-- A block with its vsync event armed and the event waiting. -/
def vsyncDue : State := { asked vga [.vsyncFire] with vsyncArmed := true }

theorem witness_VsyncFireSetsItsBit :
    vsyncDue.passes = [] ∧ vsyncDue.inputs = .vsyncFire :: [] ∧ vsyncDue.vsyncArmed = true ∧
    (4 : Word) = vsyncDue.regs.irqStat ||| BitVec.twoPow 32 vsyncDue.cfg.istVsyncBit ∧ vsyncDue.cfg.wellFormed = true ∧
    vsyncDue.regs.irqStat.getLsbD vsyncDue.cfg.istVsyncBit = false ∧
    (seen (step vsyncDue) fun t => t.regs.irqStat.getLsbD vsyncDue.cfg.istVsyncBit) = some true := by decide

theorem witness_StatusBitsComeFromTheirSources :
    (running .zero [0xFD000000]).regs.irqStat.getLsbD 1 = false ∧
    (seen (step (running .zero [0xFD000000])) fun t => t.regs.irqStat.getLsbD 1) = some true ∧
    vsyncDue.regs.irqStat.getLsbD 2 = false ∧ (seen (step vsyncDue) fun t => t.regs.irqStat.getLsbD 2) = some true := by
  decide

theorem witness_StoreThenLoadGivesTheValue :
    0xFFFFC + AccessSize.word.bytes ≤ (idle .zero).cfg.vramSize ∧ 0xFFFFFFFF < 2 ^ (8 * AccessSize.word.bytes) ∧
    0xFFFFF + AccessSize.byte.bytes ≤ (idle .zero).cfg.vramSize ∧ 0xFF < 2 ^ (8 * AccessSize.byte.bytes) := by decide

theorem witness_LittleEndianBytes : (idle .zero).cfg.byteOrder = .little ∧ 3 < 4 := by decide

theorem witness_OutOfRangeIsNeverPerformed :
    (idle .zero).cfg.vramSize < 0xFFFFD + 4 ∧ (at_ 0xFFFFD .zero [0]).passes = ⟨0x100001, 0, [], none⟩ :: [] ∧
    (at_ 0xFFFFD .zero [0]).pc.toNat < 0x100001 ∧
    (at_ 0xFFFFD .zero [0]).cfg.vramSize < (at_ 0xFFFFD .zero [0]).pc.toNat + 4 := by decide

theorem witness_HostReachesVideoMemory :
    (asked .zero [.vramRead 0xFFFFC .word]).passes = [] ∧
    0xFFFFC + AccessSize.word.bytes ≤ (asked .zero [.vramRead 0xFFFFC .word]).cfg.vramSize ∧
    (asked .zero [.vramRead 0xFFFFC .word]).inputs = .vramRead 0xFFFFC .word :: [] ∧
    (asked .zero [.vramWrite 0xFFFFC .word 1]).inputs = .vramWrite 0xFFFFC .word 1 :: [] ∧
    (asked .zero [.vramRead 0xFFFFD .word]).inputs = .vramRead 0xFFFFD .word :: [] ∧
    (asked .zero [.vramWrite 0x100000 .byte 1]).inputs = .vramWrite 0x100000 .byte 1 :: [] ∧
    (asked .zero [.vramRead 0xFFFFD .word]).cfg.vramSize < 0xFFFFD + AccessSize.word.bytes ∧
    (asked .zero [.vramWrite 0x100000 .byte 1]).cfg.vramSize < 0x100000 + AccessSize.byte.bytes := by decide

/-- A block asked to show one pixel inside video memory and one beyond it. -/
def scanTwo (d : BitVec 16) : State :=
  asked { RegFile.zero with dispEn := d, fbBase := 0xFFFFC, fbXres := 1 } [.scanout [(1, 0), (0, 2)]]

theorem witness_ScanoutReadsTheFrameBuffer :
    (scanTwo 0x8001).passes = [] ∧ (scanTwo 0x8001).inputs = .scanout [(1, 0), (0, 2)] :: [] ∧
    true = ((scanTwo 0x8001).regs.dispEn.getLsbD 15 && decide ((scanTwo 0x8001).regs.dispEn.toNat % 16 ≠ 0)) ∧
    false = ((scanTwo 0x8000).regs.dispEn.getLsbD 15 && decide ((scanTwo 0x8000).regs.dispEn.toNat % 16 ≠ 0)) ∧
    (∀ c ∈ [(1, 0)], (scanTwo 0x8001).regs.fbBase.toNat + c.2 * (scanTwo 0x8001).regs.fbXres.toNat * 2 + c.1 * 2 + 2 ≤
      (scanTwo 0x8001).cfg.vramSize) ∧
    (0, 2) ∈ [(1, 0), (0, 2)] ∧ (scanTwo 0x8001).cfg.vramSize <
      (scanTwo 0x8001).regs.fbBase.toNat + 2 * (scanTwo 0x8001).regs.fbXres.toNat * 2 + 0 * 2 + 2 := by decide

theorem witness_DisplayedFrameIsBlankWithoutTiming :
    (idle .zero).crtcValid = false ∧ (validateAndApply (idle vga)).crtcValid = true ∧
    (validateAndApply (idle vga)).geometry = some ⟨800, 525, 640, 480⟩ ∧ 639 < 640 ∧ 479 < 480 := by decide

theorem witness_ResetStepClearsTheRegisters :
    (asked vga [.reset]).passes = [] ∧ (asked vga [.reset]).inputs = .reset :: [] := by decide

theorem witness_StepKeepsMemoryCanonical : MemoryOk fillOne ∧ MemoryOk cutShort ∧
    (seen (step fillOne) fun t => t.vram.length) = some 14 ∧ (stopped (step cutShort)).isSome = true :=
  ⟨⟨by decide, by decide⟩, ⟨by decide, by decide⟩, by decide, by decide⟩

theorem witness_StepKeepsHiddenStateDerived :
    HiddenDerived (validateAndApply (asked vga [.regWrite 0x0060 100 0xFFF])) ∧
    (seen (step (validateAndApply (asked vga [.regWrite 0x0060 100 0xFFF]))) fun t => t.crtcValid) = some false ∧
    HiddenDerived cutShort ∧ (stopped (step cutShort)).isSome = true :=
  ⟨⟨by decide, by decide, by decide, by decide⟩, by decide, ⟨by decide, by decide, by decide, by decide⟩, by decide⟩

theorem fillOne_passes : PassesOk fillOne :=
  ⟨by decide, fun _ h => absurd h (by decide), by decide, by decide⟩

theorem witness_StepKeepsPassesOk : PassesOk setRequest ∧ (seen (step setRequest) fun t => t.depth) = some 2 :=
  ⟨⟨by decide, fun _ h => absurd h (by decide), by decide, by decide⟩, by decide⟩

theorem witness_StepKeepsStatusBitsSourced :
    StatusBitsHaveSource (running { RegFile.zero with irqStat := 4 } [0xFD000000]) ∧
    (seen (step (running { RegFile.zero with irqStat := 4 } [0xFD000000])) fun t => t.regs.irqStat) = some 6 ∧
    StatusBitsHaveSource cutShort ∧ (stopped (step cutShort)).isSome = true :=
  ⟨by unfold StatusBitsHaveSource; decide, by decide, by unfold StatusBitsHaveSource; decide, by decide⟩

/-- Decides `RegistersInWidth`. -/
theorem registersInWidth_iff {s : State}
    (h : ∀ f ∈ Field.all, s.regs.get f &&& ones (s.cfg.widthOf f) = s.regs.get f) : RegistersInWidth s :=
  fun f => h f (by cases f <;> decide)

theorem witness_StepKeepsRegistersInWidth :
    sharedAck.cfg.wellFormed = true ∧ RegistersInWidth sharedAck ∧ (seen (step sharedAck) fun t => t.regs.irqStat) = some 4 ∧
    cutShort.cfg.wellFormed = true ∧ RegistersInWidth cutShort ∧ (stopped (step cutShort)).isSome = true :=
  ⟨by decide, registersInWidth_iff (by decide), by decide, by decide, registersInWidth_iff (by decide), by decide⟩

theorem setRequest_cursor : CursorOk setRequest := ⟨by decide, by decide, by decide, by decide⟩

theorem witness_CursorNeverWraps :
    CursorOk setRequest ∧ (seen (step setRequest) fun t => t.pc) = some 0x3000 ∧
    CursorOk { asked vga [.reset] with pc := 0x1004 } ∧
      (seen (step { asked vga [.reset] with pc := 0x1004 }) fun t => t.pc) = some 0 ∧
    CursorOk (returning 0x3004) ∧ (seen (step (returning 0x3004)) fun t => t.pc) = some 0x3014 ∧
    CursorOk (returning 0xFFFFFFF0) ∧ refusedBy (step (returning 0xFFFFFFF0)) = some .cursorWraps :=
  ⟨setRequest_cursor, by decide, ⟨by decide, by decide, by decide, by decide⟩, by decide,
    ⟨by decide, by decide, by decide, by decide⟩, by decide, ⟨by decide, by decide, by decide, by decide⟩, by decide⟩

theorem witness_CursorStaysBelowItsBound :
    CursorOk setRequest ∧ CursorBelow 2 setRequest ∧ (seen (step setRequest) fun t => t.passes.length) = some 2 ∧
    CursorOk (returning 0x3004) ∧ CursorBelow 49150 (returning 0x3004) ∧ CursorBelow 4000000 (returning 0x3004) :=
  ⟨setRequest_cursor, by unfold CursorBelow; decide, by decide, ⟨by decide, by decide, by decide, by decide⟩,
    by unfold CursorBelow; decide, by unfold CursorBelow; decide⟩

theorem witness_HistoryAndParametersAreKept : (seen (step fillOne) fun t => t.cfg) = some cfg := by decide

/-- An IDLE block with P1's list in memory. -/
def listReady : State := { running { RegFile.zero with dlSrc := 0x1000, dlCnt := 1 } [0x20000000] with
  regs := { RegFile.zero with dlSrc := 0x1000, dlCnt := 1 }, depth := 0, passes := [] }

/-- What a run of `runJob` shows, if it ends with a next state. -/
def jobSeen {α : Type} (o : Option Result) (f : State → α) : Option α :=
  match o with
  | none => none
  | some r => seen r f

theorem witness_StepsRunTheListProcedure :
    listReady.passes = [] ∧ listReady.cfg.nestedReq = .sharedCursor ∧
    (jobSeen (runJob 5 (.writes (registerWrites listReady.cfg 0x0018 1 1)) listReady) fun t =>
      (t.pc, t.regs.dlReq)) = some (0x1004, 0) ∧
    ((runJob 5 (.writes (registerWrites listReady.cfg 0x0018 1 1))
      { listReady with cfg := { cfg with vramSize := 0x1002 } }).bind stopped) =
      some ⟨0x1000, 4, .commandFetch, 0x1000⟩ := by decide

theorem fillOne_completes : ∃ t, Completes fillOne t := by
  have h2 : ∃ t, Sys2Proof.core.run 2 fillOne = .next t ∧ t.passes = [] := ⟨_, rfl, by decide⟩
  obtain ⟨t, ht, hp⟩ := h2
  refine ⟨t, 2, ht, hp, ?_⟩
  intro j hj
  rcases j with _ | _ | j
  · exact ⟨fillOne, rfl, by decide⟩
  · exact ⟨_, rfl, by decide⟩
  · omega

theorem cutShort_stops : ∃ r, StopsWith cutShort r := by
  refine ⟨_, 1, rfl, ?_⟩
  intro j hj
  obtain rfl : j = 0 := by omega
  exact ⟨cutShort, rfl, by decide⟩

/-- The list at 0x1000 of one SETREG that writes 1 to `DL_REQ`, with `DL_SRC` and `DL_CNT` at the list itself: a pass of
it, with `rest` the passes around it. -/
def requesting (savedPc : Word) (r : Option SetregRest) (rest : List Pass) (depth : Nat) : State :=
  { running { RegFile.zero with dlSrc := 0x1000, dlCnt := 2 } [0xF1010006, 1] with
    passes := ⟨0x1008, savedPc, [], r⟩ :: rest, depth := depth }

/-- Its two words. -/
theorem requesting_words (w : Word) (r : Option SetregRest) (rest : List Pass) (d : Nat) :
    loadValue (requesting w r rest d) 0x1000 4 = 0xF1010006 ∧ loadValue (requesting w r rest d) 0x1004 4 = 1 := by
  have h : loadValue (requesting 0 none [] 0) 0x1000 4 = 0xF1010006 ∧ loadValue (requesting 0 none [] 0) 0x1004 4 = 1 := by
    decide
  exact h

/-- Each turn only nests one pass deeper (70_reset_and_hazards R306). -/
theorem step_requesting (w : Word) (r : Option SetregRest) (rest : List Pass) (d : Nat) :
    step (requesting w r rest d) =
      .next (requesting 0x1000 (some ⟨6, 1, 1⟩) (⟨0x1008, w, [], r⟩ :: rest) (d + 1)) := by
  have h1 : step (requesting w r rest d) = exec (decodeWord (BitVec.ofNat 32 (loadValue (requesting w r rest d) 0x1000 4)))
      (requesting w r rest d) := rfl
  rw [h1, (requesting_words w r rest d).1]
  have h2 : exec (decodeWord (BitVec.ofNat 32 0xF1010006)) (requesting w r rest d) =
      match runWrites (registerWrites cfg 0x0018 (BitVec.ofNat 32 (loadValue (requesting w r rest d) 0x1004 4))
        (BitVec.allOnes 32)) (some ⟨6, 1, 1⟩) (requesting w r rest d) with
      | (t, true) => .next t
      | (t, false) => setregValues 6 1 [] t := rfl
  rw [h2, (requesting_words w r rest d).2,
    show registerWrites cfg 0x0018 (BitVec.ofNat 32 1) (BitVec.allOnes 32) = [⟨.dlReq, 1, 1⟩] by decide, runWrites]
  have h3 : fieldWrite ⟨.dlReq, 1, 1⟩ (requesting w r rest d) = requesting w r rest d :=
    congrArg (fun x => { requesting w r rest d with regs := x })
      (show (fieldWrite ⟨.dlReq, 1, 1⟩ (requesting 0 none [] 0)).regs = (requesting 0 none [] 0).regs by decide)
  have h4 : startsPass ⟨.dlReq, 1, 1⟩ (requesting w r rest d) = true :=
    show startsPass ⟨.dlReq, 1, 1⟩ (requesting 0 none [] 0) = true by decide
  rw [h3, if_pos h4]
  rfl

theorem run_requesting : ∀ (k : Nat) (w : Word) (r : Option SetregRest) (rest : List Pass) (d : Nat),
    ∃ u, Sys2Proof.core.run k (requesting w r rest d) = .next u ∧ u.passes ≠ []
  | 0, w, r, rest, d => ⟨requesting w r rest d, rfl, List.cons_ne_nil _ _⟩
  | k + 1, w, r, rest, d => by
    rw [run_succ_next (step_requesting w r rest d)]
    exact run_requesting k _ _ _ _

theorem requesting_hangs : Hangs (requesting 0 none [] 1) := fun k => run_requesting k 0 none [] 1

/-- An idle block with no move waiting runs nowhere. -/
theorem run_idle {s : State} (hp : s.passes = []) (hi : s.inputs = []) : ∀ k, Sys2Proof.core.run k s = .next s
  | 0 => rfl
  | k + 1 => by
    have h : step s = .next s := by simp only [step, hp, idleStep, hi]
    rw [run_succ_next h]
    exact run_idle hp hi k

/-- The run of `fillOne` nests no pass in its own. -/
theorem fillOne_nests_nothing (k : Nat) (u : State) (h : Sys2Proof.core.run k fillOne = .next u) :
    u.passes.length ≤ 4000000 := by
  have h1 : ∃ t, step fillOne = .next t ∧ t.passes.length = 1 ∧ ∃ v, step t = .next v ∧ v.passes = [] ∧ v.inputs = [] :=
    ⟨_, rfl, by decide, _, rfl, by decide, by decide⟩
  obtain ⟨t, ht, hl, v, hv, hp, hi⟩ := h1
  match k, h with
  | 0, h => cases h; decide
  | 1, h =>
    rw [run_succ_next ht] at h
    cases h
    rw [hl]
    decide
  | k + 2, h =>
    rw [run_succ_next ht, run_succ_next hv, run_idle hp hi] at h
    cases h
    rw [hp]
    decide

theorem returning_cut_off : CutOff (returning 0xFFFFFFF0) := by
  refine ⟨1, rfl, fun j hj => ?_⟩
  obtain rfl : j = 0 := by omega
  exact ⟨returning 0xFFFFFFF0, rfl, by decide⟩

theorem witness_RunHasOneOfThreeOutcomes :
    (PassesOk fillOne ∧ fillOne.faulted = none ∧ fillOne.passes ≠ [] ∧ ∃ t, Completes fillOne t) ∧
    (PassesOk cutShort ∧ cutShort.faulted = none ∧ cutShort.passes ≠ [] ∧ ∃ r, StopsWith cutShort r) ∧
    (PassesOk (requesting 0 none [] 1) ∧ (requesting 0 none [] 1).faulted = none ∧ (requesting 0 none [] 1).passes ≠ [] ∧
      Hangs (requesting 0 none [] 1)) ∧
    (PassesOk (returning 0xFFFFFFF0) ∧ (returning 0xFFFFFFF0).faulted = none ∧ (returning 0xFFFFFFF0).passes ≠ [] ∧
      CutOff (returning 0xFFFFFFF0)) ∧
    (CursorOk fillOne ∧ CursorBelow 4000000 fillOne ∧
      ∀ k u, Sys2Proof.core.run k fillOne = .next u → u.passes.length ≤ 4000000) :=
  ⟨⟨fillOne_passes, by decide, by decide, fillOne_completes⟩,
    ⟨⟨by decide, fun _ h => absurd h (by decide), by decide, by decide⟩, by decide, by decide, cutShort_stops⟩,
    ⟨⟨by decide, fun _ h => absurd h (by decide), by decide, by decide⟩, by decide, by decide, requesting_hangs⟩,
    ⟨⟨by decide, fun _ h => absurd h (by decide), by decide, by decide⟩, by decide, by decide, returning_cut_off⟩,
    ⟨⟨by decide, by decide, by decide, by decide⟩, by unfold CursorBelow; decide, fillOne_nests_nothing⟩⟩

end Sys2Proof.Tests
end

section
/-! SUPPORT. The invariants of 10_state that every step keeps: each is closed under the updates a step is made of
(`Keeps`) and under the state a fault leaves. -/

namespace Sys2Proof.Machine

/-! ### From updates to steps -/

/-- A predicate that every update keeps, and the state a fault leaves too, is kept by a step whichever way it ends. -/
theorem Keeps.step_keeps {P : State → Prop} (k : Keeps P)
    (hfault : ∀ s kind a n, P s → P (faultState s kind a n)) {s : State} (h : P s) :
    (∀ t, Machine.step s = .next t → P t) ∧ (∀ r t, Machine.step s = .fault (.vramRange r t) → P t) := by
  refine ⟨fun t => (k.step h).next, fun r t ht => ?_⟩
  obtain ⟨u, kind, a, n, _, hu, _, _, rfl⟩ := (k.step h).fault ht
  exact hfault u kind a n hu

/-- Of the register file a fault touches the request flag alone. -/
theorem faultState_get (s : State) (kind : AccessKind) (a n : Nat) {f : Field} (hf : f ≠ .dlReq) :
    (faultState s kind a n).regs.get f = s.regs.get f := by
  rw [faultState_regs]
  split
  · exact RegFile.get_put_other _ _ _ _ hf
  · rfl

/-! ### Video memory -/

theorem MemoryOk.storeValue {s : State} {a n v : Nat} (h : MemoryOk s) (hin : inRange s a n = true) :
    MemoryOk (storeValue s a n v) where
  sorted := Memory.wf_putBytes _ _ _ h.sorted
  inside := Memory.putBytes_inside h.inside (by simpa [inRange] using hin)

theorem memoryOk_keeps : Keeps MemoryOk where
  store _ _ _ _ hin h := h.storeValue hin
  field w s h := ⟨by simpa using h.sorted, by simpa using h.inside⟩
  cend _ h := ⟨h.sorted, h.inside⟩
  vsync _ _ h := ⟨h.sorted, h.inside⟩
  opened _ _ _ h _ := ⟨h.sorted, h.inside⟩
  closed _ _ _ _ h := ⟨h.sorted, h.inside⟩
  advance _ _ h := ⟨h.sorted, h.inside⟩
  reply _ _ h := ⟨h.sorted, h.inside⟩
  draw _ h := ⟨h.sorted, h.inside⟩
  served _ _ h := ⟨h.sorted, h.inside⟩
  reset _ h := ⟨h.sorted, h.inside⟩

/-- Settles O48: only a store writes video memory, in range and keeping the addresses rising. -/
theorem stepKeepsMemoryCanonical : Obligations.StepKeepsMemoryCanonical :=
  fun _ h => memoryOk_keeps.step_keeps (fun _ _ _ _ h => ⟨h.sorted, h.inside⟩) h

/-! ### The hidden state: what it is a function of -/

/-- The derived timings, read through `RegFile.get`. -/
theorem timingsOf_eq_get (r : RegFile) : timingsOf r =
    { hb := (r.get .hBound).toNat + 1, hd := (r.get .hDisp).toNat + 1, hs := (r.get .hSpos).toNat + 1,
      he := (r.get .hSpos).toNat + 1 + (r.get .hSwid).toNat + 1, ht := (r.get .hTotal).toNat + 1,
      vd := (r.get .vDisp).toNat + 1, vs := (r.get .vSpos).toNat + 1,
      ve := (r.get .vSpos).toNat + 1 + (r.get .vSwid).toNat + 1, vt := (r.get .vTotal).toNat + 1 } := by
  simp only [timingsOf, RegFile.get, BitVec.toNat_setWidth, Timings.mk.injEq]
  omega

/-- The derived timings are a function of the nine CRTC fields. -/
theorem timingsOf_congr {r r' : RegFile} (h : ∀ f ∈ timingFields, r'.get f = r.get f) : timingsOf r' = timingsOf r := by
  simp only [timingFields, List.forall_mem_cons] at h
  simp only [timingsOf_eq_get, h]

/-- The interrupt condition is a function of the two interrupt fields. -/
theorem irqPending_congr {r r' : RegFile} (h : ∀ f ∈ irqFields, r'.get f = r.get f) : irqPending r' = irqPending r := by
  have hstat : r'.irqStat = r.irqStat := h .irqStat (by decide)
  have hmask : r'.irqMask = r.irqMask := h .irqMask (by decide)
  rw [irqPending, irqPending, hstat, hmask]

theorem timingsOf_put (r : RegFile) {f : Field} (v : Word) (hf : f ∉ timingFields) :
    timingsOf (r.put f v) = timingsOf r :=
  timingsOf_congr fun _ hg => RegFile.get_put_other _ _ _ _ (ne_of_mem_of_not_mem hg hf)

theorem irqPending_put (r : RegFile) {f : Field} (v : Word) (hf : f ∉ irqFields) :
    irqPending (r.put f v) = irqPending r :=
  irqPending_congr fun _ hg => RegFile.get_put_other _ _ _ _ (ne_of_mem_of_not_mem hg hf)

/-- A field write stores into its field; then one of the two interrupt fields is evaluated, one of the nine CRTC fields
validated, and any other left at that (40_register_access R123 to R128). -/
theorem fieldWrite_by_kind (w : PendingWrite) (s : State) : ∃ v,
    (w.field ∈ irqFields ∧ fieldWrite w s = evaluate (setField s w.field v)) ∨
    (w.field ∈ timingFields ∧ fieldWrite w s = validateAndApply (setField s w.field v)) ∨
    (w.field ∉ irqFields ∧ w.field ∉ timingFields ∧ fieldWrite w s = setField s w.field v) := by
  obtain ⟨f, v, m⟩ := w
  cases f
  case irqStat | irqMask => exact ⟨_, .inl ⟨by simp [irqFields], rfl⟩⟩
  case hTotal | hDisp | hBound | hSpos | hSwid | vTotal | vSpos | vSwid | vDisp =>
    exact ⟨_, .inr (.inl ⟨by simp [timingFields], rfl⟩)⟩
  all_goals exact ⟨_, .inr (.inr ⟨by simp [irqFields], by simp [timingFields], rfl⟩)⟩

/-! ### The hidden state: every update keeps it derived -/

/-- The hidden state stays derived where neither it nor what it is a function of changes. -/
theorem HiddenDerived.congr {s t : State} (h : HiddenDerived s) (htime : timingsOf t.regs = timingsOf s.regs := by rfl)
    (hirq : irqPending t.regs = irqPending s.regs := by rfl) (hvalid : t.crtcValid = s.crtcValid := by rfl)
    (hgeometry : t.geometry = s.geometry := by rfl) (harmed : t.vsyncArmed = s.vsyncArmed := by rfl)
    (hlevel : t.irqLevel = s.irqLevel := by rfl) :
    HiddenDerived t := by
  have hok : timingOk t.regs = timingOk s.regs := by rw [timingOk, timingOk, htime]
  exact ⟨by rw [hvalid, hok, h.valid], by rw [hgeometry, hok, htime, h.geometry], by rw [harmed, hok, h.armed],
    by rw [hlevel, hirq, h.level]⟩

/-- A store outside the CRTC fields, then `Evaluate()`: the timing side stays, the level is computed anew. -/
theorem HiddenDerived.evaluate_setField {s : State} {f : Field} {v : Word} (h : HiddenDerived s)
    (hf : f ∉ timingFields) : HiddenDerived (evaluate (setField s f v)) := by
  have htime : timingsOf (s.regs.put f v) = timingsOf s.regs := timingsOf_put _ _ hf
  have hok : timingOk (s.regs.put f v) = timingOk s.regs := by rw [timingOk, timingOk, htime]
  exact ⟨by simp [hok, h.valid], by simp [hok, htime, h.geometry], by simp [hok, h.armed], rfl⟩

/-- A store outside the interrupt fields, then `ValidateAndApply()`: the level stays, the timing side is computed
anew. -/
theorem HiddenDerived.validateAndApply_setField {s : State} {f : Field} {v : Word} (h : HiddenDerived s)
    (hf : f ∉ irqFields) : HiddenDerived (validateAndApply (setField s f v)) :=
  ⟨by simp, by rw [validateAndApply_geometry, validateAndApply_regs], by simp, by simp [h.level, irqPending_put _ _ hf]⟩

theorem HiddenDerived.fieldWrite {s : State} (h : HiddenDerived s) (w : PendingWrite) :
    HiddenDerived (fieldWrite w s) := by
  have disjoint : ∀ f ∈ irqFields, f ∉ timingFields := by decide
  obtain ⟨v, ⟨hf, hw⟩ | ⟨hf, hw⟩ | ⟨hirq, htime, hw⟩⟩ := fieldWrite_by_kind w s <;> rw [hw]
  · exact h.evaluate_setField (disjoint _ hf)
  · exact h.validateAndApply_setField fun hi => disjoint _ hi hf
  · exact h.congr (timingsOf_put _ _ htime) (irqPending_put _ _ hirq)

theorem HiddenDerived.raiseStatus {s : State} (h : HiddenDerived s) (bit : Fin 32) :
    HiddenDerived (raiseStatus s bit) :=
  h.evaluate_setField (by decide)

theorem HiddenDerived.faultState {s : State} (h : HiddenDerived s) (kind : AccessKind) (a n : Nat) :
    HiddenDerived (faultState s kind a n) :=
  h.congr
    (timingsOf_congr fun _ hf => faultState_get _ _ _ _ (ne_of_mem_of_not_mem hf (by decide)))
    (irqPending_congr fun _ hf => faultState_get _ _ _ _ (ne_of_mem_of_not_mem hf (by decide)))

/-- `Reset` clears the registers and the hidden state together: all zeros fail validation and raise nothing. -/
theorem hiddenDerived_applyReset (s : State) : HiddenDerived (applyReset s) :=
  ⟨rfl, rfl, rfl, show false = irqPending .zero by decide⟩

theorem hiddenDerived_keeps : Keeps HiddenDerived where
  store _ _ _ _ _ h := h.congr
  field w _ h := h.fieldWrite w
  cend s h := h.raiseStatus _
  vsync s _ h := h.raiseStatus _
  opened _ _ _ h _ := h.congr
  closed _ _ _ _ h := h.congr (timingsOf_put _ _ (by decide)) (irqPending_put _ _ (by decide))
  advance _ _ h := h.congr
  reply _ _ h := h.congr
  draw _ h := h.congr
  served _ _ h := h.congr
  reset s _ := hiddenDerived_applyReset s

/-- Settles O49: a write of an input of the hidden state validates or evaluates, and nothing else writes an input but
`Reset`, which clears the hidden state with it. -/
theorem stepKeepsHiddenStateDerived : Obligations.StepKeepsHiddenStateDerived :=
  fun _ h => hiddenDerived_keeps.step_keeps (fun _ kind a n h => h.faultState kind a n) h

/-! ### Status bits -/

/-- A field write sets no bit of `IRQ_STAT` (40_register_access R125, R129). -/
theorem fieldWrite_irqStat (w : PendingWrite) (s : State) :
    ∃ kept, (fieldWrite w s).regs.irqStat = s.regs.irqStat &&& kept := by
  rw [fieldWrite_regs]
  by_cases hf : w.field = .irqStat
  · exact ⟨~~~(w.value &&& w.mask), by rw [hf]; rfl⟩
  · exact ⟨BitVec.allOnes 32, (RegFile.get_put_other _ _ .irqStat _ (Ne.symm hf)).trans BitVec.and_allOnes.symm⟩

/-- The parameters are `c`, and no bit of `IRQ_STAT` outside `m` is set. -/
structure StatusWithin (c : Config) (m : Word) (s : State) : Prop where
  cfg  : s.cfg = c
  bits : s.regs.irqStat &&& ~~~m = 0#32

theorem StatusWithin.fieldWrite {c : Config} {m : Word} {s : State} (w : PendingWrite) (h : StatusWithin c m s) :
    StatusWithin c m (fieldWrite w s) where
  cfg := (fieldWrite_cfg w s).trans h.cfg
  bits := by
    obtain ⟨kept, hkept⟩ := fieldWrite_irqStat w s
    rw [hkept, BitVec.and_assoc, BitVec.and_comm kept, ← BitVec.and_assoc, h.bits, BitVec.zero_and]

theorem StatusWithin.raiseStatus {c : Config} {m : Word} {s : State} {bit : Fin 32}
    (hbit : BitVec.twoPow 32 bit &&& ~~~m = 0#32) (h : StatusWithin c m s) : StatusWithin c m (raiseStatus s bit) where
  cfg := h.cfg
  bits := by
    show (s.regs.irqStat ||| BitVec.twoPow 32 bit) &&& ~~~m = 0#32
    rw [BitVec.and_or_distrib_right, h.bits, hbit, BitVec.or_zero]

/-- The only bits of `IRQ_STAT` that an update sets are the two that have a source (60_exceptions R272). -/
theorem statusWithin_keeps {c : Config} {m : Word} (hvsync : BitVec.twoPow 32 c.istVsyncBit &&& ~~~m = 0#32)
    (hcend : BitVec.twoPow 32 c.istCendBit &&& ~~~m = 0#32) : Keeps (StatusWithin c m) where
  store _ _ _ _ _ h := ⟨h.cfg, h.bits⟩
  field w _ h := h.fieldWrite w
  cend _ h := h.raiseStatus (h.cfg ▸ hcend)
  vsync _ _ h := h.raiseStatus (h.cfg ▸ hvsync)
  opened _ _ _ h _ := ⟨h.cfg, h.bits⟩
  closed _ _ _ _ h := ⟨h.cfg, h.bits⟩
  advance _ _ h := ⟨h.cfg, h.bits⟩
  reply _ _ h := ⟨h.cfg, h.bits⟩
  draw _ h := ⟨h.cfg, h.bits⟩
  served _ _ h := ⟨h.cfg, h.bits⟩
  reset _ h := ⟨h.cfg, BitVec.zero_and⟩

theorem StatusWithin.faultState {c : Config} {m : Word} {s : State} (h : StatusWithin c m s)
    (kind : AccessKind) (a n : Nat) : StatusWithin c m (faultState s kind a n) where
  cfg := h.cfg
  bits := by
    have hstat : (Machine.faultState s kind a n).regs.irqStat = s.regs.irqStat :=
      faultState_get s kind a n (f := .irqStat) (by decide)
    rw [hstat, h.bits]

theorem and_not_or_left (x y : Word) : x &&& ~~~(x ||| y) = 0#32 := by
  rw [BitVec.not_or, ← BitVec.and_assoc, BitVec.and_not_self]
  exact BitVec.zero_and

theorem and_not_or_right (x y : Word) : y &&& ~~~(x ||| y) = 0#32 := by
  rw [BitVec.or_comm, and_not_or_left]

/-- `StatusBitsHaveSource` is `StatusWithin` of the two sources' bits. -/
theorem StatusWithin.sourced {s t : State} (h : StatusWithin s.cfg
    (BitVec.twoPow 32 s.cfg.istVsyncBit ||| BitVec.twoPow 32 s.cfg.istCendBit) t) : StatusBitsHaveSource t := by
  rw [StatusBitsHaveSource, h.cfg]
  exact h.bits

/-- Settles O51: a status bit is set by the vsync event and by INTERRUPT alone. -/
theorem stepKeepsStatusBitsSourced : Obligations.StepKeepsStatusBitsSourced := by
  intro s h
  obtain ⟨hnext, hfault⟩ := (statusWithin_keeps (and_not_or_left _ _) (and_not_or_right _ _)).step_keeps
    (fun _ kind a n h => h.faultState kind a n) (StatusWithin.mk rfl h)
  exact ⟨fun t ht => (hnext t ht).sourced, fun r t ht => (hfault r t ht).sourced⟩

/-! ### Register widths -/

/-- A word stays whole under a mask just when it has no bit outside it. -/
theorem and_eq_self_iff_and_not_eq_zero (x m : Word) : x &&& m = x ↔ x &&& ~~~m = 0#32 := by
  constructor
  · intro h
    rw [← h, BitVec.and_assoc, BitVec.and_not_self]
    exact BitVec.and_zero
  · intro h
    calc x &&& m = (x &&& m) ||| (x &&& ~~~m) := by rw [h, BitVec.or_zero]
      _ = x &&& (m ||| ~~~m) := BitVec.and_or_distrib_left.symm
      _ = x := by rw [BitVec.or_not_self, BitVec.and_allOnes]

/-- A bit number below `w` lies inside `ones w`. -/
theorem twoPow_and_not_ones {bit : Fin 32} {w : Nat} (h : bit.val < w) : BitVec.twoPow 32 bit &&& ~~~ones w = 0#32 := by
  refine BitVec.eq_of_getLsbD_eq fun i hi => ?_
  simp only [ones, BitVec.getLsbD_and, BitVec.getLsbD_not, BitVec.getLsbD_twoPow, BitVec.getLsbD_ofNat,
    Nat.testBit_two_pow_sub_one]
  by_cases hb : bit.val = i
  · simp [hb ▸ h, hi]
  · simp [hb]

/-- `IRQ_MASK` is within `IRQ_WIDTH`. -/
def MaskInWidth (s : State) : Prop := s.regs.irqMask &&& ones s.cfg.irqWidth = s.regs.irqMask

theorem MaskInWidth.fieldWrite {s : State} (w : PendingWrite) (h : MaskInWidth s) : MaskInWidth (fieldWrite w s) := by
  rw [MaskInWidth, fieldWrite_cfg, fieldWrite_regs]
  by_cases hf : w.field = .irqMask
  · rw [hf]
    simp [RegFile.put, clipField, BitVec.and_assoc]
  · have hmask : ∀ v, (s.regs.put w.field v).irqMask = s.regs.irqMask :=
      fun v => RegFile.get_put_other _ _ .irqMask v (Ne.symm hf)
    rw [hmask, h]

theorem maskInWidth_keeps : Keeps MaskInWidth where
  store _ _ _ _ _ h := h
  field w _ h := h.fieldWrite w
  cend _ h := h
  vsync _ _ h := h
  opened _ _ _ h _ := h
  closed _ _ _ _ h := h
  advance _ _ h := h
  reply _ _ h := h
  draw _ h := h
  served _ _ h := h
  reset _ _ := BitVec.zero_and

theorem MaskInWidth.faultState {s : State} (h : MaskInWidth s) (kind : AccessKind) (a n : Nat) :
    MaskInWidth (faultState s kind a n) := by
  have hmask : (Machine.faultState s kind a n).regs.irqMask = s.regs.irqMask :=
    faultState_get s kind a n (f := .irqMask) (by decide)
  rw [MaskInWidth, hmask, faultState_cfg, h]

/-- Only the two interrupt registers can have less width than the register file holds. -/
theorem registersInWidth_iff_irq {s : State} :
    RegistersInWidth s ↔ StatusWithin s.cfg (ones s.cfg.irqWidth) s ∧ MaskInWidth s := by
  constructor
  · intro h
    exact ⟨⟨rfl, (and_eq_self_iff_and_not_eq_zero _ _).mp (h .irqStat)⟩, h .irqMask⟩
  · rintro ⟨hstat, hmask⟩ f
    cases f
    case irqStat => exact (and_eq_self_iff_and_not_eq_zero _ _).mpr hstat.bits
    case irqMask => exact hmask
    all_goals exact RegFile.get_and_ones s.regs _

/-- Both status bits lie below `IRQ_WIDTH` under legal parameters (60_exceptions R272). -/
theorem statusBits_lt_irqWidth {c : Config} (h : c.wellFormed = true) :
    c.istVsyncBit.val < c.irqWidth ∧ c.istCendBit.val < c.irqWidth := by
  simp only [Config.wellFormed, Bool.and_eq_true, decide_eq_true_eq] at h
  exact ⟨h.1.2, h.2⟩

/-- Settles O52: the two interrupt registers stay within `IRQ_WIDTH`, every other field has no room for more. -/
theorem stepKeepsRegistersInWidth : Obligations.StepKeepsRegistersInWidth := by
  intro s hwf h
  obtain ⟨hvsync, hcend⟩ := statusBits_lt_irqWidth hwf
  obtain ⟨hstat, hmask⟩ := registersInWidth_iff_irq.mp h
  obtain ⟨snext, sfault⟩ := (statusWithin_keeps (twoPow_and_not_ones hvsync) (twoPow_and_not_ones hcend)).step_keeps
    (fun _ kind a n h => h.faultState kind a n) hstat
  obtain ⟨mnext, mfault⟩ := maskInWidth_keeps.step_keeps (fun _ kind a n h => h.faultState kind a n) hmask
  have join : ∀ t, StatusWithin s.cfg (ones s.cfg.irqWidth) t → MaskInWidth t → RegistersInWidth t :=
    fun t hs hm => registersInWidth_iff_irq.mpr ⟨hs.cfg.symm ▸ hs, hm⟩
  exact ⟨fun t ht => join t (snext t ht) (mnext t ht), fun r t ht => join t (sfault r t ht) (mfault r t ht)⟩

/-! ### History and parameters -/

/-- `t` has the fault mark and the parameters of `s`, and every event of `s` (10_state R46, 70_reset_and_hazards R301). -/
structure SameHistory (s t : State) : Prop where
  faulted : t.faulted = s.faulted
  cfg     : t.cfg = s.cfg
  trace   : s.trace <+: t.trace

theorem sameHistory_keeps (s : State) : Keeps (SameHistory s) where
  store _ _ _ _ _ h := ⟨h.faulted, h.cfg, h.trace⟩
  field w t h := ⟨by simp [h.faulted], by simp [h.cfg], h.trace.trans (fieldWrite_trace w t)⟩
  cend _ h := ⟨h.faulted, h.cfg, h.trace.trans (List.prefix_append _ _)⟩
  vsync _ _ h := ⟨h.faulted, h.cfg, h.trace.trans (List.prefix_append _ _)⟩
  opened _ _ _ h _ := ⟨h.faulted, h.cfg, h.trace⟩
  closed _ _ _ _ h := ⟨h.faulted, h.cfg, h.trace⟩
  advance _ _ h := ⟨h.faulted, h.cfg, h.trace⟩
  reply _ _ h := ⟨h.faulted, h.cfg, h.trace⟩
  draw _ h := ⟨h.faulted, h.cfg, h.trace⟩
  served _ _ h := ⟨h.faulted, h.cfg, h.trace⟩
  reset _ h := ⟨h.faulted, h.cfg, h.trace⟩

/-- Settles O55: every update keeps the fault mark and the parameters and only appends to the trace. -/
theorem historyAndParametersAreKept : Obligations.HistoryAndParametersAreKept := by
  intro s t ht
  obtain ⟨hfaulted, hcfg, htrace⟩ := ((sameHistory_keeps s).step ⟨rfl, rfl, List.prefix_rfl⟩).next ht
  exact ⟨hfaulted, hcfg, htrace⟩

/-! ### The power-on state -/

theorem RegFile.get_zero (f : Field) : RegFile.zero.get f = 0 := by
  cases f <;> rfl

/-- The reference parameters meet the spec's conditions. -/
theorem refConfig_wellFormed : refConfig.wellFormed = true := by decide

/-- Settles O47: the reset values by computation; every invariant speaks of zeros, of no byte and of no pass. -/
theorem resetStateMeetsTheInvariants : Obligations.ResetStateMeetsTheInvariants := by
  have hmemory : MemoryOk State.reset := ⟨rfl, by simp [State.reset]⟩
  have hhidden : HiddenDerived State.reset := hiddenDerived_applyReset State.reset
  have hpasses : PassesOk State.reset := ⟨fun _ => rfl, fun _ _ => rfl, rfl, by simp [State.reset]⟩
  have hstatus : StatusBitsHaveSource State.reset := BitVec.zero_and
  have hwidth : RegistersInWidth State.reset := fun f => by
    show RegFile.zero.get f &&& _ = RegFile.zero.get f
    rw [RegFile.get_zero]
    exact BitVec.zero_and
  have hcursor : CursorOk State.reset := ⟨rfl, by decide, by simp [State.reset], by simp [State.reset]⟩
  have hbelow : ∀ depth, CursorBelow depth State.reset := fun depth => by
    show 0 + 1024 * 0 < 2 ^ 26 + 2 ^ 24 + 1024 * (depth + 1)
    omega
  exact ⟨RegFile.get_zero, rfl, rfl, rfl, rfl, rfl, rfl, rfl, rfl, refConfig_wellFormed, hmemory, hhidden, hpasses,
    hstatus, hwidth, hcursor, hbelow⟩

end Sys2Proof.Machine
end


section
/-! SUPPORT. Video memory as the accesses see it: what a byte of a store is, what a store wider than its access leaves,
an access out of range, and the step that serves a host move. -/

namespace Sys2Proof.Machine

/-! ### The bytes of a number -/

/-- Byte `k` of a split is bits `8k` to `8k + 7`, of however wide a value. -/
theorem getElem_splitLittle (n v k : Nat) (h : k < (splitLittle n v).length) :
    (splitLittle n v)[k] = BitVec.ofNat 8 (v >>> (8 * k)) := by
  induction n generalizing v k with
  | zero => simp [splitLittle] at h
  | succ n ih =>
    cases k with
    | zero => rfl
    | succ k =>
      have hk : k < (splitLittle n (v / 256)).length := by simpa using h
      calc (splitLittle n (v / 256))[k]
          = BitVec.ofNat 8 ((v / 256) >>> (8 * k)) := ih _ _ hk
        _ = BitVec.ofNat 8 (v >>> (8 * (k + 1))) := by
          rw [Nat.mul_succ, Nat.add_comm, Nat.shiftRight_add, show v >>> 8 = v / 256 from Nat.shiftRight_eq_div_pow v 8]

/-- A split reads only the low bytes of its value. -/
theorem splitLittle_mod (n v : Nat) : splitLittle n (v % 256 ^ n) = splitLittle n v := by
  induction n generalizing v with
  | zero => rfl
  | succ n ih =>
    have hlow : BitVec.ofNat 8 (v % 256 ^ (n + 1)) = BitVec.ofNat 8 v :=
      BitVec.eq_of_toNat_eq (Nat.mod_mod_of_dvd v (Dvd.intro_left (256 ^ n) rfl))
    have hhigh : v % 256 ^ (n + 1) / 256 = v / 256 % 256 ^ n := by
      rw [Nat.pow_succ', Nat.mod_mul_right_div_self]
    rw [splitLittle, splitLittle, hlow, hhigh, ih]

theorem splitBytes_mod (o : ByteOrder) (n v : Nat) : splitBytes o n (v % 256 ^ n) = splitBytes o n v := by
  cases o <;> simp only [splitBytes, splitLittle_mod]

/-- The least significant byte first: byte `k` counts `2 ^ (8k)`. -/
theorem joinLittle_map_range (f : Nat → Byte) (n : Nat) :
    joinLittle ((List.range n).map f) = ((List.range n).map fun k => (f k).toNat * 2 ^ (8 * k)).sum := by
  induction n generalizing f with
  | zero => rfl
  | succ n ih =>
    have hbyte : ∀ k, (f (k + 1)).toNat * 2 ^ (8 * (k + 1)) = 256 * ((f (k + 1)).toNat * 2 ^ (8 * k)) :=
      fun k => by rw [Nat.mul_succ, Nat.pow_add]; ring
    simp [List.range_succ_eq_map, joinLittle, Function.comp_def, ih, hbyte, List.sum_map_mul_left]

/-! ### Loads and stores -/

theorem vramBytes_eq_map_range (s : State) (a n : Nat) :
    vramBytes s a n = (List.range n).map fun k => vramByte s (a + k) := by
  simp [vramBytes, interval, List.range'_eq_map_range, Function.comp_def]

/-- The byte a store leaves at offset `k` of its access. -/
theorem vramByte_storeValue_inside (s : State) (a n v k : Nat) (h : k < (splitBytes s.cfg.byteOrder n v).length) :
    vramByte (storeValue s a n v) (a + k) = (splitBytes s.cfg.byteOrder n v)[k] :=
  Memory.byteAt_putBytes_inside s.vram a k _ h

/-- A store of a value wider than its access is the store of the value's low bytes. -/
theorem storeValue_mod (s : State) (a n v : Nat) : storeValue s a n (v % 256 ^ n) = storeValue s a n v := by
  rw [storeValue, splitBytes_mod, storeValue]

/-- A load of what was just stored, of however wide a value. -/
theorem loadValue_storeValue_mod (s : State) (a n v : Nat) :
    loadValue (storeValue s a n v) a n = v % 2 ^ (8 * n) := by
  have hpow : 2 ^ (8 * n) = 256 ^ n := Nat.pow_mul 2 8 n
  rw [hpow, ← storeValue_mod]
  exact loadValue_storeValue _ _ _ _ (Nat.mod_lt _ (Nat.pow_pos (by decide)))

/-- Settles O40: a store in range is `storeValue`, which keeps everything but the bytes of its access. -/
theorem storeThenLoadGivesTheValue : Obligations.StoreThenLoadGivesTheValue := by
  intro s kind a v size hin hv
  refine ⟨storeValue s a size.bytes v, store_of_le hin, rfl, fun kind' k => ?_,
    vramByte_storeValue_outside s a size.bytes v⟩
  rw [withLoad_of_le k (s := storeValue s a size.bytes v) hin,
    loadValue_storeValue_mod, Nat.mod_eq_of_lt hv]

/-- Settles O41: a load joins the bytes in the order of their addresses, a store splits the value in that order. -/
theorem littleEndianBytes : Obligations.LittleEndianBytes := by
  intro s a n v hlittle
  refine ⟨?_, fun k hk => ?_⟩
  · rw [loadValue, hlittle, vramBytes_eq_map_range]
    exact joinLittle_map_range _ n
  · rw [vramByte_storeValue_inside s a n v k (by simpa using hk)]
    simp only [hlittle, splitBytes, getElem_splitLittle]

/-! ### Accesses out of range -/

/-- The state a fault leaves, field by field: the state before it but for the request flag, the mark and the passes. -/
theorem faultState_eq (s : State) (kind : AccessKind) (a n : Nat) :
    faultState s kind a n =
      { s with
        regs := if kind.ofPass then { s.regs with dlReq := 1 } else s.regs,
        faulted := some ⟨a, n, kind, s.pc⟩, passes := [] } := rfl

/-- A running pass whose next command word is out of range stops at the fetch (42_list_processor R180). -/
theorem step_of_fetch_out_of_range {s : State} {p : Pass} {rest : List Pass} (hp : s.passes = p :: rest)
    (hend : s.pc.toNat < p.endAddr) (hout : s.cfg.vramSize < s.pc.toNat + 4) :
    step s = rangeFault s .commandFetch s.pc.toNat 4 := by
  simp only [step, hp, runningStep, if_pos hend, withCommand, withLoad_of_lt _ hout]

/-- Settles O42: out of range a load, a store and the command fetch of a pass are all the one fault, and it leaves
`faultState`. -/
theorem outOfRangeIsNeverPerformed : Obligations.OutOfRangeIsNeverPerformed := by
  refine ⟨fun s kind a n v k hout => ⟨?_, ?_⟩, fun s p rest hp hend hout => ?_⟩
  · rw [withLoad_of_lt k hout, rangeFault_eq, faultState_eq, faultRecord]
  · rw [store_of_lt hout, rangeFault_eq, faultState_eq, faultRecord]
  · rw [step_of_fetch_out_of_range hp hend hout, rangeFault_eq]
    rfl

/-! ### Host moves -/

/-- A step of the IDLE block serves the next waiting move. -/
theorem step_of_idle {s : State} {act : HostAction} {rest : List HostAction} (hp : s.passes = [])
    (hi : s.inputs = act :: rest) : step s = hostStep act { s with inputs := rest } := by
  simp only [step, hp, idleStep, hi]

theorem hostStep_vramRead_of_le {s : State} {a : Nat} {size : AccessSize} (h : a + size.bytes ≤ s.cfg.vramSize) :
    hostStep (.vramRead a size) s = .next (reply s (.vramValue (BitVec.ofNat 32 (loadValue s a size.bytes)))) := by
  rw [hostStep, hostVramRead, withLoad_of_le _ h]

theorem hostStep_vramRead_of_lt {s : State} {a : Nat} {size : AccessSize} (h : s.cfg.vramSize < a + size.bytes) :
    hostStep (.vramRead a size) s = rangeFault s .hostAccess a size.bytes := by
  rw [hostStep, hostVramRead, withLoad_of_lt _ h]

theorem hostStep_vramWrite_of_le {s : State} {a : Nat} {size : AccessSize} (v : Word)
    (h : a + size.bytes ≤ s.cfg.vramSize) :
    hostStep (.vramWrite a size v) s = .next (storeValue s a size.bytes v.toNat) :=
  store_of_le h

theorem hostStep_vramWrite_of_lt {s : State} {a : Nat} {size : AccessSize} (v : Word)
    (h : s.cfg.vramSize < a + size.bytes) :
    hostStep (.vramWrite a size v) s = rangeFault s .hostAccess a size.bytes :=
  store_of_lt h

/-- A fault of an access outside a pass, in the IDLE block, leaves nothing but the mark. -/
theorem faultState_of_idle {s : State} {kind : AccessKind} (hp : s.passes = []) (hk : kind.ofPass = false)
    (a n : Nat) : faultState s kind a n = { s with faulted := some ⟨a, n, kind, s.pc⟩ } := by
  simp [faultState, faultRecord, hp, hk]

/-- Settles O43: the move served is a load or a store of the state it is taken off, which completes in range and is the
range fault out of range. -/
theorem hostReachesVideoMemory : Obligations.HostReachesVideoMemory := by
  intro s rest a size hp
  refine ⟨fun hi hin => ?_, fun v hi hin => ?_, fun hi hout => ?_⟩
  · rw [step_of_idle hp hi]
    exact hostStep_vramRead_of_le hin
  · refine ⟨storeValue { s with inputs := rest } a size.bytes v.toNat, ?_, rfl,
      loadValue_storeValue_mod _ a size.bytes v.toNat, vramByte_storeValue_outside _ a size.bytes v.toNat⟩
    rw [step_of_idle hp hi]
    exact hostStep_vramWrite_of_le v hin
  · have hfault : step s = rangeFault { s with inputs := rest } .hostAccess a size.bytes := by
      obtain hread | ⟨v, hwrite⟩ := hi
      · rw [step_of_idle hp hread]
        exact hostStep_vramRead_of_lt hout
      · rw [step_of_idle hp hwrite]
        exact hostStep_vramWrite_of_lt v hout
    rw [hfault, rangeFault_eq, faultState_of_idle (s := { s with inputs := rest }) hp rfl, faultRecord]

end Sys2Proof.Machine
end


section
/-! SUPPORT. The decoder and the encoder as inverses, for words and for whole commands, and the opcode table by its two
kinds of rows (30_encoding R90 to R98). -/

namespace Sys2Proof

open Machine

/-! ### One command word -/

/-- The decoder reads back the command word of a well-formed instruction. -/
theorem decodeWord_encodeWord (i : Instr) (h : i.wellFormed = true) : decodeWord (encodeWord i) = i := by
  have hword : Laws.WordRoundTrip.Statement i := by
    cases i with
    | rectFill i => exact Laws.WordRoundTrip.rectFill i
    | rectMark i => exact Laws.WordRoundTrip.rectMark i
    | rectOther c i => exact Laws.WordRoundTrip.rectOther c i
    | bltcopy c i => exact Laws.WordRoundTrip.bltcopy c i
    | nop c i => exact Laws.WordRoundTrip.nop c i
    | init c i => exact Laws.WordRoundTrip.init c i
    | viewport c i => exact Laws.WordRoundTrip.viewport c i
    | depthrange c i => exact Laws.WordRoundTrip.depthrange c i
    | xyclip c i => exact Laws.WordRoundTrip.xyclip c i
    | zclip c i => exact Laws.WordRoundTrip.zclip c i
    | drawCommit i => exact Laws.WordRoundTrip.drawCommit i
    | drawC2 i => exact Laws.WordRoundTrip.drawC2 i
    | drawE1 i => exact Laws.WordRoundTrip.drawE1 i
    | drawOther c i => exact Laws.WordRoundTrip.drawOther c i
    | setreg c i => exact Laws.WordRoundTrip.setreg c i
    | interrupt c i => exact Laws.WordRoundTrip.interrupt c i
    | unknown t c i => exact Laws.WordRoundTrip.unknown t c i
  exact hword h

/-- A catch-all constructor is answered only where the earlier rows were ruled out. -/
theorem wellFormed_decodeWord (cw : Word) : (decodeWord cw).wellFormed = true := by
  apply decodeWord_cases (P := fun i => i.wellFormed = true) cw
  case rectOther => intro _ h41 hE2; simpa [Instr.wellFormed] using And.intro h41 hE2
  case drawOther => intro _ hC1 hC2 hE1; simpa [Instr.wellFormed, and_assoc] using And.intro hC1 (And.intro hC2 hE1)
  case unknown => intro ht; simp [Instr.wellFormed, ht]
  all_goals intros; rfl

/-- Whatever a row fixes of the word, the decoder has tested; the rest it keeps. -/
theorem encodeWord_decodeWord (cw : Word) : encodeWord (decodeWord cw) = cw := by
  have hpack : ∀ {t c : Byte}, opTypeOf cw = t → opCommandOf cw = c → packWord t c (imm16Of cw) = cw := by
    rintro _ _ rfl rfl
    exact packWord_fields cw
  apply decodeWord_cases (P := fun i => encodeWord i = cw) cw
  case fill | mark | commit | c2 | e1 => intro ht hc; exact hpack ht hc
  case unknown => intro _; exact hpack rfl rfl
  all_goals intro ht; intros; exact hpack ht rfl

/-- Settles O3: the decoder tests exactly what the encoder writes out again. -/
theorem everyWordIsOneCommand : Obligations.EveryWordIsOneCommand :=
  fun cw => ⟨wellFormed_decodeWord cw, encodeWord_decodeWord cw⟩

/-- Settles O1, by computation. -/
theorem specWordsDecodeToTheirCommands : Obligations.SpecWordsDecodeToTheirCommands := by
  unfold Obligations.SpecWordsDecodeToTheirCommands
  decide

/-! ### Whole commands as bytes -/

/-- `takeWord` joins the first four bytes. -/
theorem takeWord_append (o : ByteOrder) (rest : List Byte) :
    ∀ {bs : List Byte}, bs.length = 4 → takeWord o (bs ++ rest) = some (BitVec.ofNat 32 (joinBytes o bs), rest)
  | [_, _, _, _], _ => rfl

theorem takeWord_wordBytes (o : ByteOrder) (w : Word) (rest : List Byte) :
    takeWord o (wordBytes o w ++ rest) = some (w, rest) := by
  rw [wordBytes, takeWord_append o rest (length_splitBytes o 4 w.toNat), joinBytes_splitBytes o 4 w.toNat w.isLt,
    BitVec.ofNat_toNat, BitVec.setWidth_eq]

theorem takeWords_encodeBytes (o : ByteOrder) (ws : List Word) (rest : List Byte) :
    takeWords o ws.length (encodeBytes o ws ++ rest) = some (ws, rest) := by
  induction ws with
  | nil => rfl
  | cons w ws ih =>
    simp only [List.length_cons, takeWords, encodeBytes, List.append_assoc, takeWord_wordBytes, ih]

theorem decodeBytes_wordBytes (o : ByteOrder) (i : Instr) (rest : List Byte) (h : i.wellFormed = true) :
    decodeBytes o (wordBytes o (encodeWord i) ++ rest) = .ok (i, rest) := by
  rw [decodeBytes, takeWord_wordBytes]
  exact congrArg (fun j => Except.ok (j, rest)) (decodeWord_encodeWord i h)

/-- Settles O2: the command word is read back first, and it says how many operand words there are to read back. -/
theorem commandBytesRoundTrip : Obligations.CommandBytesRoundTrip := by
  rintro o ⟨i, ws⟩ rest h
  obtain ⟨hword, hcount⟩ : i.wellFormed = true ∧ ws.length = operandCount i := by
    simpa [Command.wellFormed] using h
  have hws : takeWords o (operandCount i) (encodeBytes o ws ++ rest) = some (ws, rest) := by
    rw [← hcount]
    exact takeWords_encodeBytes o ws rest
  simp only [encode, encodeBytes, List.append_assoc, decodeCommand, decodeBytes_wordBytes o i _ hword, hws]

/-! ### The opcode table -/

theorem packWord_inj {t c t' c' : Byte} {i i' : Half} :
    packWord t c i = packWord t' c' i' ↔ t = t' ∧ c = c' ∧ i = i' := by
  refine ⟨fun h => ⟨?_, ?_, ?_⟩, ?_⟩
  · simpa using congrArg opTypeOf h
  · simpa using congrArg opCommandOf h
  · simpa using congrArg imm16Of h
  · rintro ⟨rfl, rfl, rfl⟩
    rfl

/-- A mask acts on each field of a word by itself. -/
theorem and_packWord (cw : Word) (t c : Byte) (i : Half) :
    cw &&& packWord t c i = packWord (opTypeOf cw &&& t) (opCommandOf cw &&& c) (imm16Of cw &&& i) := by
  conv_lhs => rw [← packWord_fields cw]
  exact BitVec.and_append.trans (congrArg (· ++ (imm16Of cw &&& i)) BitVec.and_append)

/-- A word belongs to a row, earlier rows apart (30_encoding R97). -/
def OpcodeRow.takes (r : OpcodeRow) (cw : Word) : Bool := cw &&& r.mask == r.pat

/-- A row that fixes `op_type` alone. -/
def typeRow (name : String) (t : Byte) : OpcodeRow := ⟨name, packWord t 0 0, packWord (.allOnes 8) 0 0⟩

/-- A row that fixes `op_type` and `op_command`. -/
def commandRow (name : String) (t c : Byte) : OpcodeRow :=
  ⟨name, packWord t c 0, packWord (.allOnes 8) (.allOnes 8) 0⟩

/-- The last row, which fixes nothing. -/
def unknownRow : OpcodeRow := ⟨"UNKNOWN", 0, 0⟩

@[simp] theorem typeRow_takes (name : String) (t : Byte) (cw : Word) :
    (typeRow name t).takes cw = (opTypeOf cw == t) := by
  rw [OpcodeRow.takes, typeRow, and_packWord, BitVec.and_allOnes, Bool.eq_iff_iff]
  simp [packWord_inj]

@[simp] theorem commandRow_takes (name : String) (t c : Byte) (cw : Word) :
    (commandRow name t c).takes cw = (opTypeOf cw == t && opCommandOf cw == c) := by
  rw [OpcodeRow.takes, commandRow, and_packWord, BitVec.and_allOnes, BitVec.and_allOnes, Bool.eq_iff_iff]
  simp [packWord_inj]

@[simp] theorem unknownRow_takes (cw : Word) : unknownRow.takes cw = true := by
  simp [OpcodeRow.takes, unknownRow]

@[simp] theorem typeRow_mnemonic (name : String) (t : Byte) : (typeRow name t).mnemonic = name := rfl

@[simp] theorem commandRow_mnemonic (name : String) (t c : Byte) : (commandRow name t c).mnemonic = name := rfl

@[simp] theorem unknownRow_mnemonic : unknownRow.mnemonic = "UNKNOWN" := rfl

theorem opcodeTable_eq : opcodeTable =
    [commandRow "RECT.FILL" 0x09 0x41, commandRow "RECT.MARK" 0x09 0xE2, typeRow "RECT.OTHER" 0x09,
      typeRow "BLTCOPY" 0x0F, typeRow "NOP" 0x20, typeRow "INIT" 0x40, typeRow "VIEWPORT" 0x41,
      typeRow "DEPTHRANGE" 0x42, typeRow "XYCLIP" 0x44, typeRow "ZCLIP" 0x45, commandRow "DRAW.COMMIT" 0xF0 0xC1,
      commandRow "DRAW.C2" 0xF0 0xC2, commandRow "DRAW.E1" 0xF0 0xE1, typeRow "DRAW.OTHER" 0xF0,
      typeRow "SETREG" 0xF1, typeRow "INTERRUPT" 0xFD, unknownRow] := by
  decide

/-- The row of a word, by what the decoder knows of it: the rows before it fix another type or another command. -/
theorem mnemonic_first_row (cw : Word) :
    (opcodeTable.find? (·.takes cw)).map (·.mnemonic) = some (mnemonicOf (decodeWord cw)) := by
  rw [opcodeTable_eq]
  apply decodeWord_cases (P := fun i => Option.map _ _ = some (mnemonicOf i)) cw
  case fill | mark | commit | c2 | e1 => intro ht hc; simp [ht, hc, mnemonicOf]
  case rectOther => intro ht h41 hE2; simp_all [mnemonicOf]
  case drawOther => intro ht hC1 hC2 hE1; simp_all [mnemonicOf]
  case unknown => intro ht; simp_all [knownTypes, mnemonicOf]
  all_goals intro ht; simp [ht, mnemonicOf]

theorem mnemonicOf_decodeWord_congr {cw cw' : Word} (ht : opTypeOf cw = opTypeOf cw')
    (hc : opCommandOf cw = opCommandOf cw') : mnemonicOf (decodeWord cw) = mnemonicOf (decodeWord cw') := by
  simp only [decodeWord, ht, hc, apply_ite mnemonicOf]
  rfl

/-- Where the type is neither RECT's nor DRAW's, `op_command` does not choose the command. -/
theorem mnemonicOf_decodeWord_congr_type {cw cw' : Word} (ht : opTypeOf cw = opTypeOf cw')
    (hrect : opTypeOf cw ≠ 0x09) (hdraw : opTypeOf cw ≠ 0xF0) :
    mnemonicOf (decodeWord cw) = mnemonicOf (decodeWord cw') := by
  rw [ht] at hrect hdraw
  simp only [decodeWord, ht, if_neg hrect, if_neg hdraw, apply_ite mnemonicOf]
  rfl

/-- R91's lengths. -/
theorem operandCount_decodeWord (cw : Word) : operandCount (decodeWord cw) =
    if opTypeOf cw = 0x09 then 2 else if opTypeOf cw = 0x0F then 7
    else if opTypeOf cw = 0x41 ∨ opTypeOf cw = 0x44 then 4
    else if opTypeOf cw = 0x42 ∨ opTypeOf cw = 0x45 then 2
    else if opTypeOf cw = 0xF1 then (opCommandOf cw).toNat else 0 := by
  apply decodeWord_cases (P := fun i => operandCount i = _) cw
  case unknown => intro ht; simp_all [operandCount, knownTypes]
  all_goals intro ht; intros; simp [operandCount, ht]

theorem operandCount_decodeWord_congr {cw cw' : Word} (ht : opTypeOf cw = opTypeOf cw') (hset : opTypeOf cw ≠ 0xF1) :
    operandCount (decodeWord cw) = operandCount (decodeWord cw') := by
  rw [ht] at hset
  simp only [operandCount_decodeWord, ht, if_neg hset]

/-- Settles O4: the table's rows test what the decoder's branches test, in an order that gives the same answer. -/
theorem decoderTakesFirstTableRow : Obligations.DecoderTakesFirstTableRow := by
  refine ⟨fun cw => ?_, rfl, fun cw cw' ht => ⟨?_, operandCount_decodeWord_congr ht⟩, operandCount_decodeWord⟩
  · exact Option.map_eq_some_iff.mp (mnemonic_first_row cw)
  · rintro (hc | ⟨hrect, hdraw⟩)
    · exact mnemonicOf_decodeWord_congr ht hc
    · exact mnemonicOf_decodeWord_congr_type ht hrect hdraw

end Sys2Proof
end

section
/-! SUPPORT. The reference layouts as bits of words (30_encoding R92 to R94, 10_state R43, 46 R253). -/

namespace Sys2Proof.Machine

/-! ### Bit fields of a word -/

/-- A bit field of a word's number is a slice of the word. -/
theorem bitsOf_toNat {n : Nat} (w : BitVec n) (lo width : Nat) :
    bitsOf w.toNat lo width = (w.extractLsb' lo width).toNat := by
  rw [bitsOf, BitVec.extractLsb'_toNat, Nat.shiftRight_eq_div_pow]

theorem bitsOf_low (v width : Nat) : bitsOf v 0 width = v % 2 ^ width := by
  rw [bitsOf, Nat.pow_zero, Nat.div_one]

theorem bitsOf_shift {n : Nat} (w : BitVec n) (lo width : Nat) :
    bitsOf w.toNat lo width = (w >>> lo).toNat % 2 ^ width := by
  rw [bitsOf, BitVec.toNat_ushiftRight, Nat.shiftRight_eq_div_pow]

/-- A bit field that reaches the top of the word is the word shifted down. -/
theorem bitsOf_top {n lo width : Nat} (w : BitVec n) (h : n = lo + width) :
    bitsOf w.toNat lo width = (w >>> lo).toNat := by
  rw [bitsOf_shift, Nat.mod_eq_of_lt]
  rw [BitVec.toNat_ushiftRight, Nat.shiftRight_eq_div_pow, Nat.div_lt_iff_lt_mul (by positivity), ← Nat.pow_add,
    Nat.add_comm width, ← h]
  exact w.isLt

theorem bitsOf_high (w : Word) : bitsOf w.toNat 16 16 = (w >>> 16).toNat := bitsOf_top w rfl

theorem hiHalf_eq (w : Word) : hiHalf w = (w >>> 16).toNat := by
  rw [hiHalf, ← bitsOf_toNat, bitsOf_high]

theorem loHalf_eq (w : Word) : loHalf w = w.toNat % 65536 := by
  rw [loHalf, ← bitsOf_toNat, bitsOf_low]
  rfl

/-! ### The layouts -/

theorem rectOf_firstHigh {c : Config} (w1 w2 : Word) (h : c.pairOrder = .firstHigh) :
    rectOf c [w1, w2] = ⟨(w1 >>> 16).toNat, w1.toNat % 65536, (w2 >>> 16).toNat, w2.toNat % 65536⟩ := by
  simp [rectOf, h, pairFirst, pairSecond, operand, hiHalf_eq, loHalf_eq]

theorem blitOf_ref {c : Config} (w1 w2 w3 w4 w5 w6 w7 : Word) (h : c.bltDecode = bltDecodeRef) :
    blitOf c [w1, w2, w3, w4, w5, w6, w7] =
      ⟨w1.toNat, w2.toNat, w3.toNat % 65536, (w3 >>> 16).toNat, w4.toNat, w5.toNat, w6.toNat % 65536,
        (w6 >>> 16).toNat, w7.toNat % 65536, (w7 >>> 16).toNat⟩ := by
  simp [blitOf, h, bltDecodeRef, termValue, operand, bitsOf_low, bitsOf_high]

theorem clHeight_ref {s : State} (h : s.cfg.clDerive = clDeriveRef) : clHeight s = s.regs.clMode.toNat % 4096 := by
  rw [clHeight, h]
  exact (congrArg (· % 4096) (bitsOf_low s.regs.clMode.toNat 12)).trans (Nat.mod_mod _ _)

theorem clWidth_ref {s : State} (h : s.cfg.clDerive = clDeriveRef) :
    clWidth s = (s.regs.clMode >>> 16).toNat % 256 * 64 := by
  rw [clWidth, h]
  exact congrArg (· * 64) (bitsOf_shift s.regs.clMode 16 8)

theorem clDepth_ref {s : State} (h : s.cfg.clDerive = clDeriveRef) : clDepth s = (s.regs.clMode >>> 31).toNat := by
  rw [clDepth, h]
  exact (Nat.mod_mod _ _).trans (bitsOf_top s.regs.clMode rfl)

theorem convertPixel_ref (p : Half) : convertPixel pixelFormatRef p.toNat =
    ⟨p.extractLsb' 10 5, p.extractLsb' 5 5, p.extractLsb' 0 5⟩ := by
  have hpixel : (BitVec.ofNat 32 p.toNat).toNat = p.toNat := Nat.mod_eq_of_lt (by omega)
  have hchannel : ∀ lo, BitVec.ofNat 5 (bitsOf p.toNat lo 5) = p.extractLsb' lo 5 := fun lo => by
    rw [bitsOf_toNat, BitVec.ofNat_toNat, BitVec.setWidth_eq]
  simp only [convertPixel, pixelFormatRef, termValue, operand, Nat.sub_self, List.getD_cons_zero, hpixel, hchannel]

/-- Settles O20: every layout is made of bit fields of a word, the low ones remainders and the top ones shifts. -/
theorem referenceLayoutsAreTheSpecs : Obligations.ReferenceLayoutsAreTheSpecs := by
  refine ⟨fun _ w1 w2 h => rectOf_firstHigh w1 w2 h,
    fun _ w1 w2 w3 w4 w5 w6 w7 h => blitOf_ref w1 w2 w3 w4 w5 w6 w7 h,
    fun s h => ⟨clHeight_ref h, clWidth_ref h, clDepth_ref h⟩, fun s h => ?_, convertPixel_ref, rfl⟩
  rw [vsyncLine, h]
  rfl

end Sys2Proof.Machine
end

section
/-! SUPPORT. Field writes (40_register_access R122 to R129): what a write leaves in its own field and in the others, and
which side effect it has. -/

namespace Sys2Proof.Machine

/-! ### Words under a mask -/

@[simp] theorem getLsbD_ones (w k : Nat) : (ones w).getLsbD k = decide (k < 32 ∧ k < w) := by
  simp [ones, BitVec.getLsbD_ofNat]

theorem and_ones_full (x : Word) : x &&& ones 32 = x := BitVec.and_allOnes

/-- Outside the mask the masked merge keeps the old value. -/
theorem merge_and_not (x v m o : Word) : ((x &&& ~~~m) ||| (v &&& m)) &&& o &&& ~~~m = x &&& ~~~m &&& o := by
  refine BitVec.eq_of_getLsbD_eq fun i _ => ?_
  cases hm : m.getLsbD i <;> simp [hm, Bool.and_right_comm]

/-- Under the mask the masked merge takes the written value. -/
theorem merge_and_mask (x v m o : Word) : ((x &&& ~~~m) ||| (v &&& m)) &&& o &&& m = v &&& m &&& o := by
  refine BitVec.eq_of_getLsbD_eq fun i _ => ?_
  cases hm : m.getLsbD i <;> simp [hm]

/-- Truncating value and mask before the merge changes nothing of its truncation. -/
theorem merge_and_ones (x v m o : Word) :
    ((x &&& ~~~(m &&& o)) ||| (v &&& o &&& (m &&& o))) &&& o = ((x &&& ~~~m) ||| (v &&& m)) &&& o := by
  refine BitVec.eq_of_getLsbD_eq fun i hi => ?_
  simp only [BitVec.getLsbD_and, BitVec.getLsbD_or, BitVec.getLsbD_not, hi]
  cases o.getLsbD i <;> simp

theorem and_ones_and_and_ones (v m o : Word) : v &&& o &&& (m &&& o) = v &&& m &&& o := by
  refine BitVec.eq_of_getLsbD_eq fun i _ => ?_
  cases ho : o.getLsbD i <;> simp [ho]

theorem clear_and_not (x v m : Word) : x &&& ~~~(v &&& m) &&& ~~~m = x &&& ~~~m := by
  refine BitVec.eq_of_getLsbD_eq fun i _ => ?_
  cases hm : m.getLsbD i <;> simp [hm]

theorem clear_and_mask (x v m : Word) : x &&& ~~~(v &&& m) &&& m = x &&& m &&& ~~~v := by
  refine BitVec.eq_of_getLsbD_eq fun i _ => ?_
  cases hm : m.getLsbD i <;> simp [hm]

/-! ### The field written, and the others -/

theorem fieldWrite_get_other (w : PendingWrite) (s : State) {g : Field} (h : g ≠ w.field) :
    (fieldWrite w s).regs.get g = s.regs.get g := by
  rw [fieldWrite_regs]
  exact RegFile.get_put_other _ _ _ _ h

/-- `IRQ_WIDTH` included, what a field keeps of a stored value is its width under the parameters. -/
theorem clipField_and_ones (c : Config) {f : Field} (v : Word) (hf : f ≠ .irqStat) :
    clipField c f v &&& ones f.width = v &&& ones (c.widthOf f) := by
  cases f
  case irqStat => exact absurd rfl hf
  case irqMask => exact and_ones_full _
  all_goals rfl

/-- R122: the masked merge, truncated to the width. -/
theorem fieldWrite_get_self {w : PendingWrite} (s : State) (hf : w.field ≠ .irqStat) :
    (fieldWrite w s).regs.get w.field =
      ((s.regs.get w.field &&& ~~~w.mask) ||| (w.value &&& w.mask)) &&& ones (s.cfg.widthOf w.field) := by
  rw [fieldWrite_regs, if_neg hf, RegFile.get_put_self, clipField_and_ones _ _ hf]

/-- R125: the clear-on-write. -/
theorem fieldWrite_irqStat_self {w : PendingWrite} (s : State) (hf : w.field = .irqStat) :
    (fieldWrite w s).regs.irqStat = s.regs.irqStat &&& ~~~(w.value &&& w.mask) := by
  rw [fieldWrite_regs, if_pos hf, hf]
  rfl

/-- Settles O25: the merge and the clear-on-write, split by the mask. -/
theorem maskedWriteLaw : Obligations.MaskedWriteLaw := by
  intro f v m s
  refine ⟨fun hf => ?_, ?_, ?_, fun g hg => fieldWrite_get_other ⟨f, v, m⟩ s hg⟩
  · rw [fieldWrite_get_self (w := ⟨f, v, m⟩) s hf]
    exact ⟨merge_and_not .., merge_and_mask ..⟩
  · rw [fieldWrite_irqStat_self s rfl, clear_and_not]
  · rw [fieldWrite_irqStat_self s rfl, clear_and_mask]

/-! ### The side effects -/

theorem not_mem_timingFields_of_irq : ∀ {f}, f ∈ irqFields → f ∉ timingFields := by decide

/-- R125, R126: the store, then `Evaluate()`. -/
theorem fieldWrite_of_irq {w : PendingWrite} (s : State) (hf : w.field ∈ irqFields) :
    fieldWrite w s = evaluate { s with regs := (fieldWrite w s).regs } := by
  obtain ⟨v, ⟨_, hw⟩ | ⟨htime, _⟩ | ⟨hirq, _, _⟩⟩ := fieldWrite_by_kind w s
  · rw [hw]
    rfl
  · exact absurd htime (not_mem_timingFields_of_irq hf)
  · exact absurd hf hirq

/-- R123: the store, then `ValidateAndApply()`. -/
theorem fieldWrite_of_timing {w : PendingWrite} (s : State) (hf : w.field ∈ timingFields) :
    fieldWrite w s = validateAndApply { s with regs := (fieldWrite w s).regs } := by
  obtain ⟨v, ⟨hirq, _⟩ | ⟨_, hw⟩ | ⟨_, htime, _⟩⟩ := fieldWrite_by_kind w s
  · exact absurd hf (not_mem_timingFields_of_irq hirq)
  · rw [hw, validateAndApply_regs]
    rfl
  · exact absurd hf htime

/-- R124, R128: the store alone. -/
theorem fieldWrite_of_plain {w : PendingWrite} (s : State) (hirq : w.field ∉ irqFields)
    (htime : w.field ∉ timingFields) : fieldWrite w s = { s with regs := (fieldWrite w s).regs } := by
  obtain ⟨v, ⟨hf, _⟩ | ⟨hf, _⟩ | ⟨_, _, hw⟩⟩ := fieldWrite_by_kind w s
  · exact absurd hf hirq
  · exact absurd hf htime
  · rw [hw]
    rfl

theorem ne_irqStat_of_not_irq {f : Field} (hf : f ∉ irqFields) : f ≠ .irqStat :=
  (ne_of_mem_of_not_mem List.mem_cons_self hf).symm

/-- `IRQ_WIDTH` bears on the interrupt fields alone. -/
theorem clipField_of_not_irq (c : Config) {f : Field} (v : Word) (hf : f ∉ irqFields) : clipField c f v = v := by
  cases f
  case irqMask => simp [irqFields] at hf
  all_goals rfl

theorem widthOf_of_not_irq (c : Config) {f : Field} (hf : f ∉ irqFields) : c.widthOf f = f.width := by
  cases f
  case irqStat | irqMask => simp [irqFields] at hf
  all_goals rfl

/-- The console-layer values are functions of `CL_MODE` and the parameters (10_state R43). -/
theorem consoleLayer_congr {s u : State} (hcfg : u.cfg = s.cfg) (hmode : u.regs.clMode = s.regs.clMode) :
    clHeight s = clHeight u ∧ clWidth s = clWidth u ∧ clDepth s = clDepth u := by
  simp only [clHeight, clWidth, clDepth, hcfg, hmode, and_self]

/-- Settles O26: the nine fields are neither interrupt nor CRTC fields. -/
theorem plainFieldWriteIsTheMergeAlone : Obligations.PlainFieldWriteIsTheMergeAlone := by
  intro f v m s hf
  have plain : ∀ f ∈ [Field.dlSrc, .dlCnt, .fbBase, .fbXres, .fgCol, .bgCol, .clAddr, .dispEn, .clMode],
      f ∉ irqFields ∧ f ∉ timingFields := by decide
  obtain ⟨hirq, htime⟩ := plain f hf
  refine ⟨fieldWrite_of_plain s hirq htime, ?_, fun g hg => fieldWrite_get_other ⟨f, v, m⟩ s hg,
    fun _ u hcfg hmode => consoleLayer_congr (hcfg.trans (fieldWrite_cfg _ s).symm) hmode⟩
  rw [fieldWrite_get_self (w := ⟨f, v, m⟩) s (ne_irqStat_of_not_irq hirq), widthOf_of_not_irq s.cfg hirq]

/-- R150, R154, R155 in one: the three hidden values follow the verdict, and the event is sent only when it is good. -/
theorem validateAndApply_eq (s : State) : validateAndApply s =
    { s with
      crtcValid := timingOk s.regs, vsyncArmed := timingOk s.regs,
      geometry := if timingOk s.regs then some (geometryOf (timingsOf s.regs)) else none,
      trace := s.trace ++ if timingOk s.regs then [configureEvent (timingsOf s.regs) s.cfg.framePeriod] else [] } := by
  cases h : timingOk s.regs
  · simp [validateAndApply, h, blank]
  · simp [validateAndApply, h, applyTiming, emit]

/-- Settles O27: the registers after the write are the merge, and the rest is their validation. -/
theorem timingWriteRevalidates : Obligations.TimingWriteRevalidates := by
  rintro f v m s _ (hf : f ∈ timingFields) rfl
  have hirq : f ∉ irqFields := fun h => not_mem_timingFields_of_irq h hf
  rw [fieldWrite_of_timing (w := ⟨f, v, m⟩) s hf, fieldWrite_regs, if_neg (ne_irqStat_of_not_irq hirq),
    clipField_of_not_irq s.cfg _ hirq, validateAndApply_eq]

/-- Settles O28: the clear-on-write and `Evaluate()`, whatever the state. -/
theorem statusWriteClearsAndEvaluates : Obligations.StatusWriteClearsAndEvaluates := by
  rintro v m _ s rfl
  exact fieldWrite_of_irq s List.mem_cons_self

/-- Settles O29: the truncated merge and `Evaluate()`, whatever the state. -/
theorem maskWriteMergesAndEvaluates : Obligations.MaskWriteMergesAndEvaluates := by
  rintro v m _ s rfl
  exact fieldWrite_of_irq s (List.mem_cons_of_mem _ List.mem_cons_self)

end Sys2Proof.Machine
end

section
/-! SUPPORT. Container accesses (40_register_access R120, R121, R127): a legal `REGMAP`, the runs of field writes that a
container write is made of, and the fields a container read returns. -/

namespace Sys2Proof.Machine

/-! ### A legal `REGMAP` (20_memory R67) -/

theorem slots_of_wellFormed {c : Config} (h : c.wellFormed = true) :
    (∀ f, f ∈ c.slots.map Slot.field) ∧ c.slots.length = Field.all.length ∧
    (∀ e ∈ c.slots, e.lo + e.width ≤ 32) ∧ slotsOrdered c.slots = true := by
  have hall : ∀ f, f ∈ Field.all := fun f => by cases f <;> decide
  simp only [Config.wellFormed, slotsWellFormed, Bool.and_eq_true, beq_iff_eq, List.all_eq_true, List.any_eq_true,
    decide_eq_true_eq] at h
  obtain ⟨⟨⟨⟨⟨⟨hlength, hcover⟩, hinside⟩, hordered⟩, _⟩, _⟩, _⟩ := h
  exact ⟨fun f => List.mem_map.mpr (hcover f (hall f)), hlength, fun e he => (hinside e he).2, hordered⟩

/-- As many slots as fields, and every field mapped: none is mapped twice. -/
theorem slots_fields_nodup {c : Config} (h : c.wellFormed = true) : (c.slots.map Slot.field).Nodup := by
  obtain ⟨hcover, hlength, _, _⟩ := slots_of_wellFormed h
  have hall : Field.all.Nodup := by decide
  have hperm : Field.all.Perm (c.slots.map Slot.field) :=
    (List.subperm_of_subset hall fun f _ => hcover f).perm_of_length_le (by rw [List.length_map, hlength])
  exact hperm.nodup_iff.mp hall

theorem eq_of_slot_field {c : Config} (h : c.wellFormed = true) {e e' : Slot} (he : e ∈ c.slots) (he' : e' ∈ c.slots)
    (hf : e.field = e'.field) : e = e' :=
  List.inj_on_of_nodup_map (slots_fields_nodup h) he he' hf

theorem width_of_slot {c : Config} {e : Slot} (h : e ∈ c.slots) : e.width = c.widthOf e.field := by
  obtain ⟨x, _, rfl⟩ := List.mem_map.mp h
  rfl

/-! ### Runs of field writes -/

/-- What every field write leaves alone, a run of them leaves alone. -/
theorem foldl_fieldWrite_frame {α : Type} (g : State → α) (hg : ∀ w t, g (fieldWrite w t) = g t) (ws : List PendingWrite)
    (s : State) : g (ws.foldl (fun t w => fieldWrite w t) s) = g s :=
  foldl_fieldWrite_keeps (P := fun t => g t = g s) (fun w t h => (hg w t).trans h) ws s rfl

/-- What a field keeps of a write depends on that field and the parameters alone. -/
theorem fieldWrite_get_self_congr (w : PendingWrite) {s t : State} (hcfg : t.cfg = s.cfg)
    (hget : t.regs.get w.field = s.regs.get w.field) :
    (fieldWrite w t).regs.get w.field = (fieldWrite w s).regs.get w.field := by
  by_cases hf : w.field = .irqStat
  · rw [hf] at hget ⊢
    exact (fieldWrite_irqStat_self t hf).trans
      ((congrArg (· &&& ~~~(w.value &&& w.mask)) hget).trans (fieldWrite_irqStat_self s hf).symm)
  · rw [fieldWrite_get_self t hf, fieldWrite_get_self s hf, hcfg, hget]

/-- In a run of writes of different fields, each field ends as its own write alone leaves it. -/
theorem foldl_fieldWrite_self {w : PendingWrite} {ws : List PendingWrite} (hnodup : (ws.map PendingWrite.field).Nodup)
    (hmem : w ∈ ws) (s : State) :
    (ws.foldl (fun t w => fieldWrite w t) s).regs.get w.field = (fieldWrite w s).regs.get w.field := by
  induction ws generalizing s with
  | nil => cases hmem
  | cons x ws ih =>
    obtain ⟨hx, hnodup⟩ := List.nodup_cons.mp hnodup
    rw [List.foldl_cons]
    obtain rfl | hmem := List.mem_cons.mp hmem
    · exact foldl_fieldWrite_other _ ws _ fun y hy hf => hx (hf ▸ List.mem_map_of_mem hy)
    · have hne : w.field ≠ x.field := fun hf => hx (hf ▸ List.mem_map_of_mem hmem)
      rw [ih hnodup hmem]
      exact fieldWrite_get_self_congr w (fieldWrite_cfg x s) (fieldWrite_get_other x s hne)

/-- What one write of a run brings about, and no write undoes, holds after the run; `Q` is what holds before that write
however far the run has come. -/
theorem foldl_fieldWrite_since {P Q : State → Prop} (hQ : ∀ w s, Q s → Q (fieldWrite w s))
    (hP : ∀ w s, P s → P (fieldWrite w s)) {w : PendingWrite} (hw : ∀ t, Q t → P (fieldWrite w t))
    {ws : List PendingWrite} (hmem : w ∈ ws) {s : State} (hs : Q s) :
    P (ws.foldl (fun t w => fieldWrite w t) s) := by
  obtain ⟨before, behind, rfl⟩ := List.append_of_mem hmem
  rw [List.foldl_append, List.foldl_cons]
  exact foldl_fieldWrite_keeps hP behind _ (hw _ (foldl_fieldWrite_keeps hQ before s hs))

/-- Writes without side effect change the register file alone. -/
theorem foldl_fieldWrite_plain {ws : List PendingWrite} (s : State)
    (h : ∀ w ∈ ws, w.field ∉ irqFields ∧ w.field ∉ timingFields) :
    ws.foldl (fun t w => fieldWrite w t) s = { s with regs := (ws.foldl (fun t w => fieldWrite w t) s).regs } := by
  refine List.foldlRecOn (motive := fun t : State => t = { s with regs := t.regs }) ws _ rfl fun t ht w hw => ?_
  obtain ⟨hirq, htime⟩ := h w hw
  rw [fieldWrite_of_plain t hirq htime, ht]

/-! ### What a run of field writes leaves evaluated and validated -/

/-- Since `s` the level has been evaluated and sent, and is still that of the registers. -/
structure LevelSent (s t : State) : Prop where
  level : t.irqLevel = irqPending t.regs
  sent  : ∃ sent, t.trace = s.trace ++ sent ∧ .irqOut t.irqLevel ∈ sent

theorem levelSent_evaluate {s t : State} (h : s.trace <+: t.trace) : LevelSent s (evaluate t) := by
  obtain ⟨sent, hsent⟩ := h
  exact ⟨rfl, sent ++ [.irqOut (irqPending t.regs)], by simp [← hsent], by simp⟩

theorem LevelSent.of_irq {s t : State} {w : PendingWrite} (hf : w.field ∈ irqFields) (h : s.trace <+: t.trace) :
    LevelSent s (Machine.fieldWrite w t) := by
  rw [fieldWrite_of_irq t hf]
  exact levelSent_evaluate h

theorem LevelSent.congr {s t u : State} (h : LevelSent s t) (hlevel : u.irqLevel = t.irqLevel)
    (hirq : irqPending u.regs = irqPending t.regs) (htrace : t.trace <+: u.trace) : LevelSent s u := by
  obtain ⟨level, sent, hsent, hmem⟩ := h
  obtain ⟨more, hmore⟩ := htrace
  exact ⟨by rw [hlevel, hirq, level], sent ++ more, by rw [← hmore, hsent, List.append_assoc],
    hlevel ▸ List.mem_append_left _ hmem⟩

theorem LevelSent.fieldWrite {s t : State} (h : LevelSent s t) (w : PendingWrite) : LevelSent s (fieldWrite w t) := by
  obtain ⟨sent, hsent, _⟩ := h.sent
  obtain ⟨v, ⟨hf, _⟩ | ⟨hf, hw⟩ | ⟨hf, _, hw⟩⟩ := fieldWrite_by_kind w t
  · exact .of_irq hf ⟨sent, hsent.symm⟩
  · have hirq : w.field ∉ irqFields := fun h => not_mem_timingFields_of_irq h hf
    exact h.congr (by simp [hw]) (by simp [hw, irqPending_put _ _ hirq]) (fieldWrite_trace w t)
  · exact h.congr (by simp [hw]) (by simp [hw, irqPending_put _ _ hf]) (fieldWrite_trace w t)

/-- The timing side of the hidden state is that of the registers. -/
structure TimingDerived (t : State) : Prop where
  valid    : t.crtcValid = timingOk t.regs
  armed    : t.vsyncArmed = timingOk t.regs
  geometry : t.geometry = if timingOk t.regs then some (geometryOf (timingsOf t.regs)) else none

theorem timingDerived_validateAndApply (t : State) : TimingDerived (validateAndApply t) :=
  ⟨by simp, by simp, by rw [validateAndApply_geometry, validateAndApply_regs]⟩

theorem TimingDerived.of_timing {w : PendingWrite} (t : State) (hf : w.field ∈ timingFields) :
    TimingDerived (Machine.fieldWrite w t) := by
  rw [fieldWrite_of_timing t hf]
  exact timingDerived_validateAndApply _

/-- A store outside the CRTC fields leaves the timing side derived. -/
theorem TimingDerived.setField {t : State} (h : TimingDerived t) {f : Field} (v : Word) (hf : f ∉ timingFields) :
    TimingDerived (setField t f v) := by
  have htime : timingsOf (t.regs.put f v) = timingsOf t.regs := timingsOf_put _ _ hf
  have hok : timingOk (t.regs.put f v) = timingOk t.regs := by rw [timingOk, timingOk, htime]
  exact ⟨by simp [hok, h.valid], by simp [hok, h.armed], by simp [hok, htime, h.geometry]⟩

theorem TimingDerived.fieldWrite {t : State} (h : TimingDerived t) (w : PendingWrite) :
    TimingDerived (fieldWrite w t) := by
  obtain ⟨v, ⟨hf, hw⟩ | ⟨hf, _⟩ | ⟨_, hf, hw⟩⟩ := fieldWrite_by_kind w t
  · rw [hw]
    obtain ⟨hvalid, harmed, hgeometry⟩ := h.setField v (not_mem_timingFields_of_irq hf)
    exact ⟨hvalid, harmed, hgeometry⟩
  · exact .of_timing t hf
  · rw [hw]
    exact h.setField v hf

/-! ### The container write -/

theorem registerWrites_slots (c : Config) (off : Nat) (data mask : Word) :
    registerWrites c off data mask = (c.slots.filter (slotSelected off mask)).map (slotWrite data mask) := by
  rw [registerWrites_eq, containerWrites_eq]

theorem mem_registerWrites {c : Config} {off : Nat} {data mask : Word} {w : PendingWrite} :
    w ∈ registerWrites c off data mask ↔
      ∃ e ∈ c.slots, slotSelected off mask e = true ∧ slotWrite data mask e = w := by
  simp [registerWrites_slots, and_assoc]

theorem slotWrite_mem_registerWrites {c : Config} {off : Nat} {data mask : Word} {e : Slot} (he : e ∈ c.slots)
    (hsel : slotSelected off mask e = true) : slotWrite data mask e ∈ registerWrites c off data mask :=
  mem_registerWrites.mpr ⟨e, he, hsel, rfl⟩

theorem registerWrites_fields_nodup {c : Config} (h : c.wellFormed = true) (off : Nat) (data mask : Word) :
    ((registerWrites c off data mask).map PendingWrite.field).Nodup := by
  rw [registerWrites_slots, List.map_map]
  exact (slots_fields_nodup h).sublist (List.filter_sublist.map Slot.field)

theorem regWrite_unmapped {s : State} {off : Nat} (data mask : Word) (h : ∀ e ∈ s.cfg.slots, e.off ≠ off) :
    regWrite off data mask s = s := by
  rw [regWrite, registerWrites_eq, containerWrites_unmapped h]
  rfl

/-- A step of the IDLE block that serves a register write is the container write. -/
theorem step_regWrite {s : State} {off : Nat} {data mask : Word} {rest : List HostAction} (hp : s.passes = [])
    (hi : s.inputs = .regWrite off data mask :: rest) :
    step s = .next (regWrite off data mask { s with inputs := rest }) :=
  step_of_idle hp hi

section
variable {s : State} {off : Nat} {data mask : Word}

/-- What every field write leaves alone, a container write that starts no pass leaves alone. -/
theorem regWrite_frame (h : StartsNothing s.cfg.slots off data mask) {α : Type} (g : State → α)
    (hg : ∀ w t, g (fieldWrite w t) = g t) : g (regWrite off data mask s) = g s := by
  rw [regWrite_quiet h]
  exact foldl_fieldWrite_frame g hg _ s

theorem regWrite_get_selected (hwf : s.cfg.wellFormed = true) (h : StartsNothing s.cfg.slots off data mask) {e : Slot}
    (he : e ∈ s.cfg.slots) (hsel : slotSelected off mask e = true) :
    (regWrite off data mask s).regs.get e.field = (fieldWrite (slotWrite data mask e) s).regs.get e.field := by
  rw [regWrite_quiet h]
  exact foldl_fieldWrite_self (w := slotWrite data mask e) (registerWrites_fields_nodup hwf off data mask)
    (slotWrite_mem_registerWrites he hsel) s

/-- R121, R122: a selected field takes its bits of the data under its bits of the mask. -/
theorem regWrite_get_merge (hwf : s.cfg.wellFormed = true) (h : StartsNothing s.cfg.slots off data mask) {e : Slot}
    (he : e ∈ s.cfg.slots) (hsel : slotSelected off mask e = true) (hf : e.field ≠ .irqStat) :
    (regWrite off data mask s).regs.get e.field =
      ((s.regs.get e.field &&& ~~~(mask >>> e.lo)) ||| ((data >>> e.lo) &&& (mask >>> e.lo))) &&& ones e.width := by
  rw [regWrite_get_selected hwf h he hsel, ← merge_and_ones, width_of_slot he]
  exact (fieldWrite_get_self (w := slotWrite data mask e) s hf).trans (by rw [slotWrite, width_of_slot he])

/-- R125: a selected `IRQ_STAT` loses the bits written 1. -/
theorem regWrite_irqStat (hwf : s.cfg.wellFormed = true) (h : StartsNothing s.cfg.slots off data mask) {e : Slot}
    (he : e ∈ s.cfg.slots) (hsel : slotSelected off mask e = true) (hf : e.field = .irqStat) :
    (regWrite off data mask s).regs.irqStat =
      s.regs.irqStat &&& ~~~((data >>> e.lo) &&& (mask >>> e.lo) &&& ones e.width) := by
  have hget := regWrite_get_selected hwf h he hsel
  rw [hf] at hget
  rw [← and_ones_and_and_ones]
  exact hget.trans (fieldWrite_irqStat_self s hf)

/-- R121: a field with no selected bit stays. -/
theorem regWrite_get_unselected (hwf : s.cfg.wellFormed = true) (h : StartsNothing s.cfg.slots off data mask) {e : Slot}
    (he : e ∈ s.cfg.slots) (hsel : slotSelected off mask e = false) :
    (regWrite off data mask s).regs.get e.field = s.regs.get e.field := by
  rw [regWrite_quiet h]
  refine foldl_fieldWrite_other _ _ _ fun w hw hf => ?_
  obtain ⟨x, hx, hxsel, rfl⟩ := mem_registerWrites.mp hw
  rw [eq_of_slot_field hwf hx he hf, hsel] at hxsel
  cases hxsel

theorem regWrite_levelSent (h : StartsNothing s.cfg.slots off data mask) {e : Slot} (he : e ∈ s.cfg.slots)
    (hsel : slotSelected off mask e = true) (hf : e.field ∈ irqFields) : LevelSent s (regWrite off data mask s) := by
  rw [regWrite_quiet h]
  exact foldl_fieldWrite_since (Q := fun t => s.trace <+: t.trace) (fun w t ht => ht.trans (fieldWrite_trace w t))
    (fun w _ ht => ht.fieldWrite w) (fun _ ht => .of_irq hf ht) (slotWrite_mem_registerWrites he hsel) List.prefix_rfl

theorem regWrite_timingDerived (h : StartsNothing s.cfg.slots off data mask) {e : Slot} (he : e ∈ s.cfg.slots)
    (hsel : slotSelected off mask e = true) (hf : e.field ∈ timingFields) :
    TimingDerived (regWrite off data mask s) := by
  rw [regWrite_quiet h]
  exact foldl_fieldWrite_since (Q := fun _ => True) (fun _ _ _ => trivial) (fun w _ ht => ht.fieldWrite w)
    (fun t _ => .of_timing t hf) (slotWrite_mem_registerWrites he hsel) trivial

theorem regWrite_plain (h : StartsNothing s.cfg.slots off data mask)
    (hplain : ∀ e ∈ s.cfg.slots, slotSelected off mask e = true → e.field ∉ irqFields ∧ e.field ∉ timingFields) :
    regWrite off data mask s = { s with regs := (regWrite off data mask s).regs } := by
  rw [regWrite_quiet h]
  refine foldl_fieldWrite_plain s fun w hw => ?_
  obtain ⟨e, he, hsel, rfl⟩ := mem_registerWrites.mp hw
  exact hplain e he hsel

end

/-- Settles O30: the write is a run of writes of different fields, so each field ends as its own write leaves it, and a
level or a timing that one write has brought up to date stays so. -/
theorem containerWriteReachesItsFields : Obligations.ContainerWriteReachesItsFields := by
  rintro s _ off data mask hwf rfl
  refine ⟨?_, fun h => regWrite_unmapped data mask h, fun h => ⟨?_, fun e he hsel hf => regWrite_get_merge hwf h he hsel hf,
    fun e he hsel hf => regWrite_irqStat hwf h he hsel hf, fun e he hsel => regWrite_get_unselected hwf h he hsel,
    fun e he hsel hf => ?_, fun e he hsel hf => ?_, regWrite_plain h, regWrite_frame h State.pc fieldWrite_pc,
    regWrite_frame h State.vram fieldWrite_vram, regWrite_frame h State.passes fieldWrite_passes,
    regWrite_frame h State.depth fieldWrite_depth, regWrite_frame h State.faulted fieldWrite_faulted,
    regWrite_frame h State.cfg fieldWrite_cfg, regWrite_frame h State.inputs fieldWrite_inputs,
    regWrite_frame h State.replies fieldWrite_replies, regWrite_frame h State.draws fieldWrite_draws⟩⟩
  · rintro w rest hp hi rfl
    exact step_regWrite hp hi
  · rw [regWrite_quiet h, registerWrites_slots, List.foldl_map]
  · obtain ⟨hlevel, hsent⟩ := regWrite_levelSent h he hsel hf
    exact ⟨hlevel, hsent⟩
  · obtain ⟨hvalid, harmed, hgeometry⟩ := regWrite_timingDerived h he hsel hf
    exact ⟨hvalid, harmed, hgeometry⟩

/-! ### The request flag -/

/-- R127: the test is on the stored flag. -/
theorem startsPass_request (v m : Word) (t : State) : startsPass ⟨.dlReq, v, m⟩ t = (t.regs.dlReq == 1) := rfl

/-- A write of the request flag stores the merged flag and nothing else. -/
theorem fieldWrite_request (v m : Word) (s : State) : fieldWrite ⟨.dlReq, v, m⟩ s =
    { s with regs := { s.regs with
        dlReq := (((s.regs.dlReq.setWidth 32 : Word) &&& ~~~m) ||| (v &&& m)).setWidth 1 } } := rfl

/-- Settles O31: the one field write stores the flag, and the stored flag decides. -/
theorem hostRequestStartsAPass : Obligations.HostRequestStartsAPass := by
  intro s rest off data mask v m flag hp hi hws hflag
  have hstep : step s = .next (runWrites [⟨.dlReq, v, m⟩] none { s with inputs := rest }).1 := by
    rw [step_regWrite hp hi, regWrite, hws]
  rw [hstep, runWrites, startsPass_request, fieldWrite_request, ← hflag]
  constructor <;> rintro rfl
  · simp [openPass, endAddress, hp]
  · rfl

/-! ### The container read -/

/-- A field laid over a word at place `lo`, bit by bit. -/
theorem getLsbD_laid (v x : Word) (lo w k : Nat) (hk : k < 32) :
    ((v &&& ~~~(ones w <<< lo)) ||| ((x &&& ones w) <<< lo)).getLsbD k =
      if lo ≤ k ∧ k < lo + w then x.getLsbD (k - lo) else v.getLsbD k := by
  have hout : k - lo < 32 := by omega
  simp only [BitVec.getLsbD_or, BitVec.getLsbD_and, BitVec.getLsbD_not, BitVec.getLsbD_shiftLeft, getLsbD_ones, hk, hout]
  by_cases hlo : k < lo
  · simp [hlo]
  · by_cases hw : k - lo < w
    · have hin : lo ≤ k ∧ k < lo + w := by omega
      simp [hlo, hw, hin]
    · have hin : ¬(lo ≤ k ∧ k < lo + w) := by omega
      simp [hlo, hw, hin]

/-- A bit of no slot of the container is that of the word laid under. -/
theorem getLsbD_overlayFields_other (r : RegFile) {off k : Nat} (hk : k < 32) {es : List Slot} (v : Word)
    (h : ∀ e ∈ es, e.off = off → k < e.lo ∨ e.lo + e.width ≤ k) :
    (overlayFields r es off v).getLsbD k = v.getLsbD k := by
  induction es generalizing v with
  | nil => rfl
  | cons e es ih =>
    obtain ⟨he, hes⟩ := List.forall_mem_cons.mp h
    unfold overlayFields
    split
    next hoff =>
      have hout : ¬(e.lo ≤ k ∧ k < e.lo + e.width) := by have := he hoff; omega
      rw [ih _ hes, getLsbD_laid _ _ _ _ _ hk, if_neg hout]
    next => exact ih v hes

/-- In a legal container a bit of a slot is that of the field: the slots behind it do not reach down to it. -/
theorem getLsbD_overlayFields_slot (r : RegFile) {off i : Nat} {e : Slot} (hoff : e.off = off) (hi : i < e.width)
    (hk : e.lo + i < 32) {es : List Slot} (hordered : slotsOrdered es = true) (he : e ∈ es) (v : Word) :
    (overlayFields r es off v).getLsbD (e.lo + i) = (r.get e.field).getLsbD i := by
  induction es generalizing v with
  | nil => cases he
  | cons x es ih =>
    obtain ⟨hbefore, hes⟩ : (∀ y ∈ es, x.before y = true) ∧ slotsOrdered es = true := by
      simpa [slotsOrdered] using hordered
    obtain rfl | he := List.mem_cons.mp he
    · have habove : ∀ y ∈ es, y.off = off → e.lo + i < y.lo ∨ y.lo + y.width ≤ e.lo + i := fun y hy hyoff => by
        have hplace : e.off ≠ y.off ∨ e.lo + e.width ≤ y.lo := by simpa [Slot.before] using hbefore y hy
        omega
      have hin : e.lo ≤ e.lo + i ∧ e.lo + i < e.lo + e.width := by omega
      rw [overlayFields, if_pos hoff, getLsbD_overlayFields_other r hk _ habove, getLsbD_laid _ _ _ _ _ hk, if_pos hin,
        Nat.add_sub_cancel_left]
    · unfold overlayFields
      split <;> exact ih hes he _

/-- R120: under a legal `REGMAP` the value read holds each field of the container at its place. -/
theorem regReadValue_field {s : State} (hwf : s.cfg.wellFormed = true) {e : Slot} (he : e ∈ s.cfg.slots) :
    (regReadValue s e.off >>> e.lo) &&& ones e.width = s.regs.get e.field &&& ones e.width := by
  obtain ⟨_, _, hinside, hordered⟩ := slots_of_wellFormed hwf
  refine BitVec.eq_of_getLsbD_eq fun i _ => ?_
  rw [BitVec.getLsbD_and, BitVec.getLsbD_and, BitVec.getLsbD_ushiftRight]
  by_cases hi : i < e.width
  · have hk : e.lo + i < 32 := by have := hinside e he; omega
    unfold regReadValue
    split
    rw [getLsbD_overlayFields_slot s.regs rfl hi hk hordered he]
  · simp [hi]

/-- Settles O32: the block is not written, and each field is read back from its place. -/
theorem regReadReturnsFieldsAndChangesNothing : Obligations.RegReadReturnsFieldsAndChangesNothing := by
  intro s rest off mask hp hi
  refine ⟨regReadValue { s with inputs := rest } off, step_of_idle hp hi, ?_⟩
  rintro hwf e he rfl
  exact regReadValue_field (s := { s with inputs := rest }) hwf he

end Sys2Proof.Machine
end

section
/-! SUPPORT. The CRTC validator (41_crtc_validator R150 to R158): the constraint sets and the verdict as inequalities, the
scheduled vsync event, and the vsync event as the one source of its status bit. -/

namespace Sys2Proof.Machine

/-! ### The constraint sets -/

theorem horizOk_iff (t : Timings) : horizOk t = true ↔
    0 < t.hb ∧ t.hb ≤ t.hd ∧ t.hd < t.hs ∧ t.hs < t.he ∧ t.he < t.ht ∧ 320 ≤ t.hd := by
  simp only [horizOk, Bool.and_eq_true, decide_eq_true_eq, and_assoc]
  rfl

theorem vertOk_iff (t : Timings) : vertOk t = true ↔
    0 < t.vd ∧ t.vd ≤ t.vs ∧ t.vs < t.ve ∧ t.ve < t.vt ∧ 234 ≤ t.vd := by
  simp only [vertOk, Bool.and_eq_true, decide_eq_true_eq, and_assoc]
  rfl

/-- Settles O33: both sets are conjunctions of decided inequalities. -/
theorem timingConstraints : Obligations.TimingConstraints := fun t => ⟨horizOk_iff t, vertOk_iff t⟩

/-- The two sets of the derived timings, in the stored registers: each period and position is a register + 1. -/
theorem timingOk_iff (r : RegFile) : timingOk r = true ↔
    r.hBound.toNat ≤ r.hDisp.toNat ∧ r.hDisp.toNat < r.hSpos.toNat ∧
    r.hSpos.toNat + r.hSwid.toNat + 1 < r.hTotal.toNat ∧ 319 ≤ r.hDisp.toNat ∧
    r.vDisp.toNat ≤ r.vSpos.toNat ∧ r.vSpos.toNat + r.vSwid.toNat + 1 < r.vTotal.toNat ∧ 233 ≤ r.vDisp.toNat := by
  rw [timingOk, Bool.and_eq_true, horizOk_iff, vertOk_iff]
  simp only [timingsOf]
  omega

/-- Settles O34: the validation stores its verdict. -/
theorem validityOfTheStoredRegisters : Obligations.ValidityOfTheStoredRegisters := by
  intro s
  rw [validateAndApply_crtcValid, timingOk_iff]

/-! ### What a validation writes -/

/-- Settles O35: the two branches on the verdict. -/
theorem validationAppliesOrBlanks : Obligations.ValidationAppliesOrBlanks := by
  rintro s _ rfl
  refine ⟨fun hfail => ?_, fun hhoriz hvert => ?_⟩
  · have hbad : timingOk s.regs = false := by rwa [timingOk, Bool.and_eq_false_iff]
    simp [validateAndApply_eq, hbad]
  · have hgood : timingOk s.regs = true := by rw [timingOk, hhoriz, hvert, Bool.and_self]
    simp [validateAndApply_eq, hgood, geometryOf, configureEvent]

/-- A validation of a validated state finds the registers it validated, so it sends its event and leaves all else. -/
theorem validateAndApply_twice (s : State) : validateAndApply (validateAndApply s) =
    { validateAndApply s with
      trace := (validateAndApply s).trace ++
        if timingOk s.regs then [configureEvent (timingsOf s.regs) s.cfg.framePeriod] else [] } := by
  simp only [validateAndApply_eq]

/-- Settles O36: equal fields give equal derived timings, of which the three values are a function; a validation writes no
field. -/
theorem validationIsPure : Obligations.ValidationIsPure := by
  refine ⟨fun s u h1 h2 h3 h4 h5 h6 h7 h8 h9 => ?_, ?_⟩
  · have htime : timingsOf s.regs = timingsOf u.regs := by simp only [timingsOf, h1, h2, h3, h4, h5, h6, h7, h8, h9]
    have hok : timingOk s.regs = timingOk u.regs := by rw [timingOk, timingOk, htime]
    simp [hok, htime]
  · rintro s _ rfl
    rw [validateAndApply_twice, validateAndApply_trace]
    exact ⟨rfl, rfl, rfl⟩

/-! ### The scheduled vsync event -/

theorem scheduledVsync_of_armed {s : State} (h : s.vsyncArmed = timingOk s.regs) :
    scheduledVsync s = if timingOk s.regs then some (vsyncLine s) else none := by
  rw [scheduledVsync, h]

/-- R156 with the reference `VSYNC_LINE`. -/
theorem vsyncLine_ref {s : State} (h : s.cfg.vsyncLine = vsyncLineRef) : vsyncLine s = s.regs.vDisp.toNat + 1 := by
  obtain ⟨_, _, _, hline, _⟩ := referenceLayoutsAreTheSpecs
  exact hline s h

/-- Settles O37: the event is armed exactly as the registers are valid, after a validation and, where the hidden state is
that of the registers, after every field write. -/
theorem vsyncIsScheduledAfterTheDisplay : Obligations.VsyncIsScheduledAfterTheDisplay := by
  refine ⟨fun s h => ?_, fun s w h => scheduledVsync_of_armed (h.fieldWrite w).armed⟩
  rw [scheduledVsync_of_armed (timingDerived_validateAndApply s).armed, validateAndApply_regs,
    vsyncLine_ref ((congrArg Config.vsyncLine (validateAndApply_cfg s)).trans h), validateAndApply_regs]

/-! ### The vsync event as the source of its status bit -/

/-- A single status bit that is 0, as a bound on the set ones. -/
theorem statusWithin_not_twoPow_iff {c : Config} {bit : Fin 32} {s : State} :
    StatusWithin c (~~~BitVec.twoPow 32 bit) s ↔ s.cfg = c ∧ s.regs.irqStat.getLsbD bit = false := by
  have hclear : s.regs.irqStat &&& ~~~(~~~BitVec.twoPow 32 bit) = 0#32 ↔ s.regs.irqStat.getLsbD bit = false := by
    have hne : BitVec.twoPow 32 bit ≠ 0#32 := fun h => by simpa using congrArg (BitVec.getLsbD · bit) h
    rw [BitVec.not_not, BitVec.and_twoPow, ite_eq_right_iff, Bool.eq_false_iff]
    exact forall_congr' fun _ => iff_false_intro hne
  exact ⟨fun h => ⟨h.cfg, hclear.mp h.bits⟩, fun ⟨hcfg, hbit⟩ => ⟨hcfg, hclear.mpr hbit⟩⟩

/-- No host move but the armed vsync event sets a status bit. -/
theorem StatusWithin.hostStep {c : Config} {m : Word} {s t : State} {act : HostAction} (h : StatusWithin c m s)
    (hvsync : act = .vsyncFire → s.vsyncArmed = false) (ht : hostStep act s = .next t) : StatusWithin c m t := by
  cases act with
  | regWrite off data mask =>
    cases ht
    obtain ⟨_, hend⟩ | ⟨_, hend⟩ := runWrites_cases (Q := StatusWithin c m) (r := none)
      (ws := registerWrites s.cfg off data mask) (fun w _ h => h.fieldWrite w) (fun _ _ h _ => ⟨h.cfg, h.bits⟩) h
    · exact hend
    · exact hend
  | regRead off mask =>
    cases ht
    exact ⟨h.cfg, h.bits⟩
  | vsyncFire =>
    cases ht
    rw [vsyncFire, hvsync rfl]
    exact h
  | scanout region =>
    rw [Machine.hostStep, hostScanout] at ht
    split at ht
    · cases ht
      exact ⟨h.cfg, h.bits⟩
    · cases (rangeFault_eq _ _ _ _).symm.trans ht
  | vramRead addr size =>
    have hload : Answers (hostVramRead addr size s) (StatusWithin c m)
        (FaultFrom (fun _ => True) (StatusWithin c m)) False :=
      withLoad_answers trivial h fun _ => ⟨h.cfg, h.bits⟩
    exact hload.next ht
  | vramWrite addr size v =>
    have hstore : Answers (hostVramWrite addr size v s) (StatusWithin c m)
        (FaultFrom (fun _ => True) (StatusWithin c m)) False :=
      store_answers trivial h fun _ => ⟨h.cfg, h.bits⟩
    exact hstore.next ht
  | reset =>
    cases ht
    exact ⟨h.cfg, BitVec.zero_and⟩

/-- In a pass no status bit is set but by INTERRUPT. -/
theorem StatusWithin.step_of_running {c : Config} {m : Word} {s t : State} {p : Pass} {rest : List Pass}
    (hcend : BitVec.twoPow 32 c.istCendBit &&& ~~~m = 0#32) (h : StatusWithin c m s) (hp : s.passes = p :: rest)
    (ht : step s = .next t) : StatusWithin c m t := by
  have hkeeps : Answers (step s) (StatusWithin c m) (PassFault (StatusWithin c m)) True :=
    running_answers hp (fun _ _ _ _ h => ⟨h.cfg, h.bits⟩) (fun w _ h => h.fieldWrite w)
      (fun _ h => h.raiseStatus (h.cfg ▸ hcend)) (fun _ _ _ h _ => ⟨h.cfg, h.bits⟩) (fun _ _ h => ⟨h.cfg, h.bits⟩)
      (fun _ _ _ _ => trivial) (fun _ h => h) (fun _ => h) (fun _ => ⟨h.cfg, h.bits⟩)
  exact hkeeps.next ht

/-- A step that is no armed vsync event sets no status bit but command-list end. -/
theorem StatusWithin.step_or_vsync {c : Config} {m : Word} {s t : State}
    (hcend : BitVec.twoPow 32 c.istCendBit &&& ~~~m = 0#32) (h : StatusWithin c m s) (ht : step s = .next t) :
    StatusWithin c m t ∨ (s.passes = [] ∧ s.vsyncArmed = true ∧ ∃ rest, s.inputs = .vsyncFire :: rest) := by
  cases hp : s.passes with
  | cons p rest => exact .inl (h.step_of_running hcend hp ht)
  | nil =>
    cases hi : s.inputs with
    | nil =>
      simp only [step, hp, idleStep, hi] at ht
      cases ht
      exact .inl h
    | cons act rest =>
      by_cases hfires : act = .vsyncFire ∧ s.vsyncArmed = true
      · exact .inr ⟨rfl, hfires.2, rest, by rw [hfires.1]⟩
      · rw [step_of_idle hp hi] at ht
        refine .inl (StatusWithin.hostStep (s := { s with inputs := rest }) ⟨h.cfg, h.bits⟩ (fun hact => ?_) ht)
        simpa [hact] using hfires

/-- Words of one bit each, at different places, have no bit in common. -/
theorem twoPow_and_twoPow_of_ne {a b : Fin 32} (h : a ≠ b) : BitVec.twoPow 32 b &&& BitVec.twoPow 32 a = 0#32 := by
  rw [BitVec.and_twoPow, BitVec.getLsbD_twoPow]
  simp [Fin.val_inj, h.symm]

/-- The two sources have different bits under legal parameters (60_exceptions R272). -/
theorem statusBits_ne {c : Config} (h : c.wellFormed = true) : c.istVsyncBit ≠ c.istCendBit := by
  simp only [Config.wellFormed, Bool.and_eq_true, bne_iff_ne] at h
  exact h.1.1.2

/-- R157: the armed event, when it is served, raises its status bit. -/
theorem step_of_armed_vsync {s : State} {rest : List HostAction} (hp : s.passes = []) (hi : s.inputs = .vsyncFire :: rest)
    (harmed : s.vsyncArmed = true) : step s = .next (raiseStatus { s with inputs := rest } s.cfg.istVsyncBit) := by
  rw [step_of_idle hp hi]
  show Host.Outcome.next (vsyncFire { s with inputs := rest }) = _
  rw [vsyncFire, if_pos harmed]

/-- Settles O38: a vsync bit that is 0 stays 0 over every step but that of the armed event. -/
theorem vsyncFireSetsItsBit : Obligations.VsyncFireSetsItsBit := by
  constructor
  · rintro s rest _ hp hi harmed rfl
    exact step_of_armed_vsync hp hi harmed
  · intro s t hwf ht hclear hset
    have hcend : BitVec.twoPow 32 s.cfg.istCendBit &&& ~~~(~~~BitVec.twoPow 32 s.cfg.istVsyncBit) = 0#32 := by
      rw [BitVec.not_not, twoPow_and_twoPow_of_ne (statusBits_ne hwf)]
    obtain hkept | hvsync := StatusWithin.step_or_vsync hcend (statusWithin_not_twoPow_iff.mpr ⟨rfl, hclear⟩) ht
    · obtain ⟨_, hstill⟩ := statusWithin_not_twoPow_iff.mp hkept
      rw [hset] at hstill
      cases hstill
    · exact hvsync

end Sys2Proof.Machine
end

section
/-! SUPPORT. The display-list processor one step at a time (42_list_processor R170 to R181): what a command, a return from a
pass and a host move can do to the cursor and to the active passes, said once (`StepEffect`), and what follows from it. -/

namespace Sys2Proof.Machine

/-! ### One turn of a pass -/

/-- Below its end address a pass runs the command at the cursor. -/
theorem step_of_below {s : State} {p : Pass} {rest : List Pass} (hp : s.passes = p :: rest)
    (hend : s.pc.toNat < p.endAddr) : step s = withCommand s fun i => exec i s := by
  simp only [step, hp, runningStep, if_pos hend]

/-- At or past its end address a pass returns. -/
theorem step_of_ended {s : State} {p : Pass} {rest : List Pass} (hp : s.passes = p :: rest)
    (hend : p.endAddr ≤ s.pc.toNat) : step s = finishPass p rest s := by
  simp only [step, hp, runningStep, if_neg (Nat.not_lt.mpr hend)]

/-- Settles O5: the word fetched is the word the decoder joins from the four bytes. -/
theorem stepRunsTheDecodedCommand : Obligations.StepRunsTheDecodedCommand := by
  intro s p rest i bs hp hend hin hdec
  have hword : decodeBytes s.cfg.byteOrder (vramBytes s s.pc.toNat 4) =
      .ok (decodeWord (BitVec.ofNat 32 (loadValue s s.pc.toNat 4)), []) := by
    rw [decodeBytes, ← List.append_nil (vramBytes s s.pc.toNat 4), takeWord_append _ [] (vramBytes_length _ _ _)]
    rfl
  rw [hword] at hdec
  cases hdec
  rw [step_of_below hp hend, withCommand, withLoad_of_le _ hin]

/-! ### The return into the caller -/

/-- What the caller of a container write does once its writes are made: nothing, or the rest of the SETREG. -/
def afterWrites (r : Option SetregRest) (s : State) : Result :=
  match r with
  | none => .next s
  | some r => resumeSetreg r s

/-- A container write and what its caller does next, or up to the pass that one of its writes starts. -/
def finishWrites (ws : List PendingWrite) (r : Option SetregRest) (s : State) : Result :=
  if (runWrites ws r s).2 = true then .next (runWrites ws r s).1 else afterWrites r (runWrites ws r s).1

theorem finishWrites_of_started {ws : List PendingWrite} {r : Option SetregRest} {s : State}
    (h : (runWrites ws r s).2 = true) : finishWrites ws r s = .next (runWrites ws r s).1 := if_pos h

theorem finishWrites_of_quiet {ws : List PendingWrite} {r : Option SetregRest} {s : State}
    (h : (runWrites ws r s).2 = false) : finishWrites ws r s = afterWrites r (runWrites ws r s).1 := by
  simp [finishWrites, h]

/-- The end of a pass is the rest of its caller's container write on the closed state. -/
theorem finishPass_eq (p : Pass) (rest : List Pass) (s : State) :
    finishPass p rest s = finishWrites p.writes p.setreg (closePass p rest s) := by
  unfold finishPass finishWrites
  obtain ⟨t, b⟩ := runWrites p.writes p.setreg (closePass p rest s)
  cases b <;> rfl

/-- Under the shared cursor the end of a pass leaves the cursor (42_list_processor R176, R178). -/
theorem closePass_shared {s : State} (hshared : s.cfg.nestedReq = .sharedCursor) (p : Pass) (rest : List Pass) :
    closePass p rest s = { s with regs := { s.regs with dlReq := 0 }, depth := s.depth - 1, passes := rest } := by
  simp [closePass, cursorAfterPass, hshared, RegFile.put]

/-- Settles O6: the step is the rest of the caller's container write on the closed state, and the five clauses are its
branches. -/
theorem passEndClearsTheRequest : Obligations.PassEndClearsTheRequest := by
  intro s p rest hp hend hshared closed
  have hstep : step s = finishWrites p.writes p.setreg closed := by
    rw [step_of_ended hp hend, finishPass_eq, closePass_shared hshared]
  have hnil : p.writes = [] → step s = afterWrites p.setreg closed := fun hws => by
    rw [hstep, hws]
    rfl
  refine ⟨fun hws hr => ?_, fun hws r hr => ?_, fun h => ?_, fun h hr => ?_, fun h r hr => ?_⟩
  · rw [hnil hws, hr, afterWrites]
  · rw [hnil hws, hr, afterWrites]
  · rw [hstep, finishWrites_of_started h]
  · rw [hstep, finishWrites_of_quiet h, hr, afterWrites]
  · rw [hstep, finishWrites_of_quiet h, hr, afterWrites]

/-! ### The host waits -/

/-- The host's waiting moves, what it was answered and the free words drawn are those of `s`. -/
structure SameHost (s t : State) : Prop where
  inputs  : t.inputs = s.inputs
  replies : t.replies = s.replies
  draws   : t.draws = s.draws

/-- Settles O9: a step of a pass is made of stores, field writes, status raises, advances and starts and ends of passes, and
none of them serves the host. -/
theorem hostWaitsForThePass : Obligations.HostWaitsForThePass := by
  intro s t hne ht
  obtain ⟨p, rest, hp⟩ := List.exists_cons_of_ne_nil hne
  have hturn : Answers (step s) (SameHost s) (PassFault (SameHost s)) True :=
    running_answers hp (fun _ _ _ _ h => ⟨h.inputs, h.replies, h.draws⟩)
      (fun w u h => ⟨by simp [h.inputs], by simp [h.replies], by simp [h.draws]⟩)
      (fun _ h => ⟨h.inputs, h.replies, h.draws⟩) (fun _ _ _ h _ => ⟨h.inputs, h.replies, h.draws⟩)
      (fun _ _ h => ⟨h.inputs, h.replies, h.draws⟩) (fun _ _ _ _ => trivial) (fun _ h => h)
      (fun _ => ⟨rfl, rfl, rfl⟩) (fun _ => ⟨rfl, rfl, rfl⟩)
  obtain ⟨hinputs, hreplies, hdraws⟩ := hturn.next ht
  exact ⟨hinputs, hreplies, hdraws⟩

/-! ### What a step does to the cursor and the passes -/

/-- `t` has the cursor, the passes, the fault mark and the parameters of `s`. -/
structure SameControl (s t : State) : Prop where
  pc      : t.pc = s.pc
  passes  : t.passes = s.passes
  depth   : t.depth = s.depth
  faulted : t.faulted = s.faulted
  cfg     : t.cfg = s.cfg

/-- `t` is `s` further on by a command of `n` operand words (42_list_processor R175), but for registers, memory and what is
signalled. -/
structure Advances (n : Nat) (s t : State) : Prop where
  pc      : t.pc = s.pc + BitVec.ofNat 32 ((1 + n) * 4)
  passes  : t.passes = s.passes
  depth   : t.depth = s.depth
  faulted : t.faulted = s.faulted
  cfg     : t.cfg = s.cfg

/-- `t` is `s` one pass deeper (42_list_processor R171, R172), with `r` the rest of the SETREG that started it, if one did. -/
structure Starts (r : Option SetregRest) (s t : State) : Prop where
  passes  : ∃ ws, t.passes = ⟨endAddress t, s.pc, ws, r⟩ :: s.passes
  pc      : t.pc = t.regs.dlSrc.setWidth 32
  request : t.regs.dlReq = 1
  depth   : t.depth = s.depth + 1
  faulted : t.faulted = s.faulted
  cfg     : t.cfg = s.cfg

theorem SameControl.refl (s : State) : SameControl s s := ⟨rfl, rfl, rfl, rfl, rfl⟩

theorem SameControl.fieldWrite {s t : State} (w : PendingWrite) (h : SameControl s t) : SameControl s (fieldWrite w t) :=
  ⟨by simp [h.pc], by simp [h.passes], by simp [h.depth], by simp [h.faulted], by simp [h.cfg]⟩

theorem SameControl.storeValue {s t : State} (h : SameControl s t) (a n v : Nat) : SameControl s (storeValue t a n v) :=
  ⟨h.pc, h.passes, h.depth, h.faulted, h.cfg⟩

theorem SameControl.raiseStatus {s t : State} (h : SameControl s t) (bit : Fin 32) : SameControl s (raiseStatus t bit) :=
  ⟨h.pc, h.passes, h.depth, h.faulted, h.cfg⟩

theorem SameControl.advance {s t : State} (h : SameControl s t) (n : Nat) : Advances n s (advance t n) :=
  ⟨by simp [h.pc], h.passes, h.depth, h.faulted, h.cfg⟩

theorem SameControl.openPass {s t : State} (h : SameControl s t) (hreq : t.regs.dlReq = 1) (ws : List PendingWrite)
    (r : Option SetregRest) : Starts r s (openPass ws r t) :=
  ⟨⟨ws, by rw [openPass_passes, h.pc, h.passes]; rfl⟩, rfl, hreq, by simp [h.depth], h.faulted, h.cfg⟩

/-- A pass that starts is not among the passes that were active. -/
theorem Starts.passes_ne {r : Option SetregRest} {s t : State} (h : Starts r s t) : t.passes ≠ s.passes := by
  obtain ⟨ws, hq⟩ := h.passes
  rw [hq]
  exact List.cons_ne_self _ _

/-- Short of 2^32 the cursor advances as a natural number. -/
theorem Advances.toNat_pc {n : Nat} {s t : State} (h : Advances n s t) (hwrap : s.pc.toNat + (1 + n) * 4 < 2 ^ 32) :
    t.pc.toNat = s.pc.toNat + 4 * (1 + n) := by
  rw [h.pc, BitVec.toNat_add, BitVec.toNat_ofNat, Nat.mod_eq_of_lt (by omega), Nat.mod_eq_of_lt (by omega)]
  omega

/-! ### Field writes -/

/-- A field write that starts no pass leaves a request flag that is 0. -/
theorem fieldWrite_request_clear {w : PendingWrite} {s : State} (hquiet : startsPass w (fieldWrite w s) = false)
    (hreq : s.regs.dlReq = 0) : (fieldWrite w s).regs.dlReq = 0 := by
  by_cases hf : w.field = .dlReq
  · have hne : (fieldWrite w s).regs.dlReq ≠ 1 := by simpa [startsPass, hf] using hquiet
    exact (BitVec.eq_zero_or_eq_one _).resolve_right hne
  · have hget := fieldWrite_get_other w s (g := .dlReq) (Ne.symm hf)
    have htrunc := congrArg (BitVec.setWidth 1) hget
    simpa [RegFile.get, hreq] using htrunc

/-- A run of field writes makes them all and leaves a request flag that is 0, or starts a pass. -/
theorem runWrites_effect (r : Option SetregRest) {s : State} : ∀ {ws : List PendingWrite} {u : State}, SameControl s u →
    ((runWrites ws r u).2 = false ∧ SameControl s (runWrites ws r u).1 ∧
      (u.regs.dlReq = 0 → (runWrites ws r u).1.regs.dlReq = 0)) ∨
    ((runWrites ws r u).2 = true ∧ Starts r s (runWrites ws r u).1)
  | [], _, h => .inl ⟨rfl, h, id⟩
  | w :: ws, u, h => by
    rw [runWrites]
    split
    · rename_i hstart
      have hreq : (fieldWrite w u).regs.dlReq = 1 := by
        simp only [startsPass, Bool.and_eq_true, beq_iff_eq] at hstart
        exact hstart.2
      exact .inr ⟨rfl, (h.fieldWrite w).openPass hreq ws r⟩
    · rename_i hstart
      obtain ⟨hquiet, hsame, hclear⟩ | hstarts := runWrites_effect r (ws := ws) (h.fieldWrite w)
      · exact .inl ⟨hquiet, hsame, fun h0 => hclear (fieldWrite_request_clear (Bool.eq_false_iff.mpr hstart) h0)⟩
      · exact .inr hstarts

/-! ### SETREG -/

/-- SETREG from value `a` on: it advances, or a value starts a pass that carries the values behind it. -/
theorem setregValues_effect (imm16 : Half) (n a : Nat) {s u : State} (h : SameControl s u) :
    Answers (setregValues imm16 n (interval a n) u)
      (fun t => (s.pc.toNat + (1 + n) * 4 < 2 ^ 32 ∧ Advances n s t) ∨
        ∃ j, a ≤ j ∧ j < n ∧ Starts (some ⟨imm16, n, j + 1⟩) s t)
      (PassFault (SameControl s)) (2 ^ 32 ≤ s.pc.toNat + (1 + n) * 4) := by
  exact setregValues_answers (fun w _ => SameControl.fieldWrite w)
    (fun _ ht hwrap => .inl ⟨ht.pc ▸ hwrap, ht.advance n⟩) (fun _ ht hwrap => ht.pc ▸ hwrap)
    (fun j hj ws _ ht hreq => .inr ⟨j, (mem_interval.mp hj).1, (mem_interval.mp hj).2, ht.openPass hreq ws _⟩) h

/-! ### The commands -/

/-- What a command does between its operand fetch and its cursor advance; SETREG is not of this form. -/
def commandBody (i : Instr) (ws : List Word) (s : State) : Result :=
  match i with
  | .rectFill _ => fillRect (rectOf s.cfg ws) s
  | .bltcopy _ _ => blitBlock (blitOf s.cfg ws) s
  | .drawCommit _ => commit s
  | .interrupt _ _ => .next (raiseStatus s s.cfg.istCendBit)
  | .rectMark _ | .rectOther _ _ | .nop _ _ | .init _ _ | .viewport _ _ | .depthrange _ _ | .xyclip _ _ | .zclip _ _
  | .drawC2 _ | .drawE1 _ | .drawOther _ _ | .setreg _ _ | .unknown _ _ _ => .next s

/-- Every command but SETREG fetches its operand words, does its work and advances by its length (42_list_processor R174,
R175). -/
theorem exec_eq_body {i : Instr} (hset : ∀ c imm16, i ≠ .setreg c imm16) (s : State) :
    exec i s = withOperands s (operandCount i) fun ws =>
      andThen (commandBody i ws s) fun t => .next (advance t (operandCount i)) := by
  cases i
  case setreg c imm16 => exact absurd rfl (hset c imm16)
  all_goals rfl

/-- The work of a command is stores of pixels, or the rise of a status bit, or nothing. -/
theorem commandBody_answers {W : Prop} {P : State → Prop} (i : Instr) (ws : List Word) {s : State}
    (hs : ∀ s a v, inRange s a 2 = true → P s → P (storeValue s a 2 v))
    (hi : ∀ s, P s → P (raiseStatus s s.cfg.istCendBit)) (h : P s) :
    Answers (commandBody i ws s) P (PassFault P) W := by
  cases i with
  | rectFill imm16 =>
    exact forEach_answers (fun _ _ _ ht => forEach_answers
      (fun _ _ _ hu => store_answers (K := PassKind) rfl hu fun hr => hs _ _ _ hr hu) ht) h
  | bltcopy c imm16 =>
    exact forEach_answers (fun _ _ _ ht => forEach_answers
      (fun _ _ _ hu => copyPixel_answers (K := PassKind) hs rfl rfl hu) ht) h
  | drawCommit imm16 =>
    exact forEach_answers (fun _ _ _ ht => forEach_answers
      (fun _ _ _ hu => copyPixel_answers (K := PassKind) hs rfl rfl hu) ht) h
  | interrupt c imm16 => exact hi s h
  | rectMark | rectOther | nop | init | viewport | depthrange | xyclip | zclip | drawC2 | drawE1 | drawOther | setreg
  | unknown => exact h

theorem operandCount_lt (i : Instr) : operandCount i < 256 := by
  cases i
  case setreg c imm16 => exact c.isLt
  all_goals simp [operandCount]

/-- Every command but SETREG advances by its own length. -/
theorem exec_advances {W : Prop} {i : Instr} (hset : ∀ c imm16, i ≠ .setreg c imm16) (s : State) :
    Answers (exec i s) (Advances (operandCount i) s) (PassFault (SameControl s)) W := by
  rw [exec_eq_body hset]
  exact withOperands_answers (.refl s) fun ws => andThen_answers
    (commandBody_answers i ws (fun _ _ _ _ h => h.storeValue _ _ _) (fun _ h => h.raiseStatus _) (.refl s))
    fun _ ht => ht.advance _

/-- A command advances by its own length, or is a SETREG one of whose values starts a pass. -/
theorem exec_effect (i : Instr) (s : State) : Answers (exec i s)
    (fun t => Advances (operandCount i) s t ∨ ∃ imm16 n j, j < n ∧ n < 256 ∧ Starts (some ⟨imm16, n, j + 1⟩) s t)
    (PassFault (SameControl s)) (2 ^ 32 ≤ s.pc.toNat + 1024) := by
  by_cases hset : ∃ c imm16, i = .setreg c imm16
  · obtain ⟨c, imm16, rfl⟩ := hset
    have hc := c.isLt
    refine (setregValues_effect imm16 c.toNat 0 (.refl s)).mono (fun t ht => ?_) (fun _ _ hf => hf) (fun _ => by omega)
    obtain ⟨_, hadv⟩ | ⟨j, _, hj, hstart⟩ := ht
    · exact .inl hadv
    · exact .inr ⟨imm16, c.toNat, j, hj, hc, hstart⟩
  · exact (exec_advances (fun c imm16 hi => hset ⟨c, imm16, hi⟩) s).mono (fun _ hadv => .inl hadv) (fun _ _ hf => hf) id

/-- Settles O11: an advance is by the command's length, and a SETREG that does not advance starts a pass. -/
theorem cursorAdvancesByCommandLength : Obligations.CursorAdvancesByCommandLength := by
  refine ⟨fun i s t ht hp => ?_, fun r s t ht hp => ?_⟩
  · obtain hadv | ⟨_, _, _, _, _, hstart⟩ := (exec_effect i s).next ht
    · exact hadv.pc
    · exact absurd hp hstart.passes_ne
  · obtain ⟨_, hadv⟩ | ⟨_, _, _, hstart⟩ := (setregValues_effect r.imm16 r.n r.next (.refl s)).next ht
    · exact hadv.pc
    · exact absurd hp hstart.passes_ne

/-! ### The end of a pass -/

/-- `q` is what is left to the caller with `r` when a pass starts before it is done: all of `r` while the container write
still ran, the values behind value `j` after that. -/
def LeftOf (r q : Option SetregRest) : Prop :=
  q = r ∨ ∃ x j, r = some x ∧ x.next ≤ j ∧ j < x.n ∧ q = some ⟨x.imm16, x.n, j + 1⟩

/-- What the caller does after a container write it was making. -/
inductive ReturnEffect (r : Option SetregRest) (s t : State) : Prop
  | done (hr : r = none) (same : SameControl s t) (request : s.regs.dlReq = 0 → t.regs.dlReq = 0)
  | advances (x : SetregRest) (hr : r = some x) (hwrap : s.pc.toNat + (1 + x.n) * 4 < 2 ^ 32) (adv : Advances x.n s t)
  | starts (q : Option SetregRest) (left : LeftOf r q) (start : Starts q s t)

theorem finishWrites_effect (ws : List PendingWrite) (r : Option SetregRest) (s : State) :
    Answers (finishWrites ws r s) (ReturnEffect r s) (PassFault (SameControl s))
      (∃ x, r = some x ∧ 2 ^ 32 ≤ s.pc.toNat + (1 + x.n) * 4) := by
  obtain ⟨hquiet, hsame, hreq⟩ | ⟨hstarted, hstart⟩ := runWrites_effect r (ws := ws) (.refl s)
  · rw [finishWrites_of_quiet hquiet]
    cases r with
    | none => exact .done rfl hsame hreq
    | some x =>
      refine (setregValues_effect x.imm16 x.n x.next hsame).mono (fun t ht => ?_) (fun _ _ hf => hf)
        (fun hwrap => ⟨x, rfl, hwrap⟩)
      obtain ⟨hwrap, hadv⟩ | ⟨j, hj, hn, hstart⟩ := ht
      · exact .advances x rfl hwrap hadv
      · exact .starts _ (.inr ⟨x, j, rfl, hj, hn, rfl⟩) hstart
  · rw [finishWrites_of_started hstarted]
    exact .starts r (.inl rfl) hstart

/-! ### The inversion of a step -/

/-- A host move is a Reset, or starts a pass, or leaves the cursor, the passes and a clear request flag. -/
theorem hostStep_effect {act : HostAction} {s t : State} (ht : hostStep act s = .next t) :
    (act = .reset ∧ t = applyReset s) ∨ Starts none s t ∨
    (SameControl s t ∧ (s.regs.dlReq = 0 → t.regs.dlReq = 0)) := by
  cases act with
  | regWrite off data mask =>
    cases ht
    obtain ⟨_, hsame⟩ | ⟨_, hstart⟩ := runWrites_effect none (ws := registerWrites s.cfg off data mask) (.refl s)
    · exact .inr (.inr hsame)
    · exact .inr (.inl hstart)
  | regRead off mask =>
    cases ht
    exact .inr (.inr ⟨⟨rfl, rfl, rfl, rfl, rfl⟩, id⟩)
  | vsyncFire =>
    cases ht
    rw [vsyncFire]
    split
    · exact .inr (.inr ⟨(SameControl.refl s).raiseStatus _, id⟩)
    · exact .inr (.inr ⟨.refl s, id⟩)
  | scanout region =>
    rw [hostStep, hostScanout] at ht
    split at ht
    · cases ht
      exact .inr (.inr ⟨⟨rfl, rfl, rfl, rfl, rfl⟩, id⟩)
    · cases (rangeFault_eq _ _ _ _).symm.trans ht
  | vramRead addr size =>
    by_cases hin : addr + size.bytes ≤ s.cfg.vramSize
    · cases (hostStep_vramRead_of_le hin).symm.trans ht
      exact .inr (.inr ⟨⟨rfl, rfl, rfl, rfl, rfl⟩, id⟩)
    · rw [hostStep_vramRead_of_lt (Nat.lt_of_not_le hin), rangeFault_eq] at ht
      cases ht
  | vramWrite addr size v =>
    by_cases hin : addr + size.bytes ≤ s.cfg.vramSize
    · cases (hostStep_vramWrite_of_le v hin).symm.trans ht
      exact .inr (.inr ⟨(SameControl.refl s).storeValue _ _ _, id⟩)
    · rw [hostStep_vramWrite_of_lt v (Nat.lt_of_not_le hin), rangeFault_eq] at ht
      cases ht
  | reset =>
    cases ht
    exact .inl ⟨rfl, rfl⟩

/-- What a step that goes on does to the cursor and to the passes: a move of the host, a command of the innermost pass,
or its end. -/
inductive StepEffect (s t : State) : Prop
  | served (idle : s.passes = []) (same : SameControl s t) (request : s.regs.dlReq = 0 → t.regs.dlReq = 0)
  | reset (idle : s.passes = []) (rest : List HostAction) (next : s.inputs = .reset :: rest)
      (eq : t = applyReset { s with inputs := rest })
  | requested (idle : s.passes = []) (start : Starts none s t)
  | command (p : Pass) (rest : List Pass) (hp : s.passes = p :: rest) (below : s.pc.toNat < p.endAddr)
      (n : Nat) (hn : n < 256) (adv : Advances n s t)
  | nested (p : Pass) (rest : List Pass) (hp : s.passes = p :: rest) (below : s.pc.toNat < p.endAddr)
      (imm16 : Half) (n j : Nat) (hj : j < n) (hn : n < 256) (start : Starts (some ⟨imm16, n, j + 1⟩) s t)
  | returned (p : Pass) (rest : List Pass) (hp : s.passes = p :: rest) (ended : p.endAddr ≤ s.pc.toNat)
      (effect : ReturnEffect p.setreg (closePass p rest s) t)

theorem step_answers_below {s : State} {p : Pass} {rest : List Pass} (hp : s.passes = p :: rest)
    (hend : s.pc.toNat < p.endAddr) :
    Answers (step s) (StepEffect s) (PassFault (SameControl s)) (2 ^ 32 ≤ s.pc.toNat + 1024) := by
  rw [step_of_below hp hend]
  refine withLoad_answers rfl (.refl s) fun _ => (exec_effect _ s).mono (fun t ht => ?_) (fun _ _ hf => hf) id
  obtain hadv | ⟨imm16, n, j, hj, hn, hstart⟩ := ht
  · exact .command p rest hp hend _ (operandCount_lt _) hadv
  · exact .nested p rest hp hend imm16 n j hj hn hstart

theorem step_answers_ended {s : State} {p : Pass} {rest : List Pass} (hp : s.passes = p :: rest)
    (hend : p.endAddr ≤ s.pc.toNat) :
    Answers (step s) (StepEffect s) (PassFault (SameControl (closePass p rest s)))
      (∃ x, p.setreg = some x ∧ 2 ^ 32 ≤ (closePass p rest s).pc.toNat + (1 + x.n) * 4) := by
  rw [step_of_ended hp hend, finishPass_eq]
  exact (finishWrites_effect _ _ _).mono (fun t ht => .returned p rest hp hend ht) (fun _ _ hf => hf) id

/-- The inversion lemma of a step. -/
theorem step_effect {s t : State} (ht : step s = .next t) : StepEffect s t := by
  match hp : s.passes with
  | [] =>
    match hi : s.inputs with
    | [] =>
      rw [step, hp] at ht
      simp only [idleStep, hi] at ht
      cases ht
      exact .served hp (.refl s) id
    | act :: rest =>
      obtain ⟨rfl, heq⟩ | hstart | ⟨hsame, hreq⟩ := hostStep_effect ((step_of_idle hp hi).symm.trans ht)
      · exact .reset hp rest hi heq
      · exact .requested hp ⟨hstart.passes, hstart.pc, hstart.request, hstart.depth, hstart.faulted, hstart.cfg⟩
      · exact .served hp ⟨hsame.pc, hsame.passes, hsame.depth, hsame.faulted, hsame.cfg⟩ hreq
  | p :: rest =>
    by_cases hend : s.pc.toNat < p.endAddr
    · exact (step_answers_below hp hend).next ht
    · exact (step_answers_ended hp (Nat.le_of_not_lt hend)).next ht

end Sys2Proof.Machine
end

section
/-! SUPPORT. The invariants of the display-list processor (42_list_processor R170 to R181): the latched end addresses, the
depth and the frames of the active passes, and the bound on the cursor, each by the cases of `StepEffect`. -/

namespace Sys2Proof.Machine

/-! ### End addresses -/

/-- A pass that starts has latched its end address from the registers as they are left. -/
theorem Starts.latched {r : Option SetregRest} {s t : State} (h : Starts r s t) :
    ∃ q, t.passes = q :: s.passes ∧ q.endAddr = endAddress t ∧ t.regs.dlReq = 1 := by
  obtain ⟨ws, hq⟩ := h.passes
  exact ⟨_, hq, rfl, h.request⟩

/-- Settles O10: a command keeps the passes or starts one, and a return leaves those around or starts one among them. -/
theorem endAddressIsLatched : Obligations.EndAddressIsLatched := by
  intro s t p rest hp ht
  have hne : s.passes ≠ [] := by simp [hp]
  cases step_effect ht with
  | served hidle => exact absurd hidle hne
  | reset hidle => exact absurd hidle hne
  | requested hidle => exact absurd hidle hne
  | command p' rest' hp' hbelow n hn hadv =>
    obtain ⟨rfl, rfl⟩ := List.cons.inj (hp.symm.trans hp')
    exact ⟨fun _ => .inl (hadv.passes.trans hp), fun hend => absurd hbelow (Nat.not_lt.mpr hend)⟩
  | nested p' rest' hp' hbelow imm16 n j hj hn hstart =>
    obtain ⟨rfl, rfl⟩ := List.cons.inj (hp.symm.trans hp')
    exact ⟨fun _ => .inr (hp ▸ hstart.latched), fun hend => absurd hbelow (Nat.not_lt.mpr hend)⟩
  | returned p' rest' hp' hended heffect =>
    obtain ⟨rfl, rfl⟩ := List.cons.inj (hp.symm.trans hp')
    refine ⟨fun hbelow => absurd hbelow (Nat.not_lt.mpr hended), fun _ => ?_⟩
    cases heffect with
    | done _ hsame => exact .inl hsame.passes
    | advances _ _ _ hadv => exact .inl hadv.passes
    | starts _ _ hstart => exact .inr hstart.latched

/-! ### The rest of an interrupted SETREG -/

/-- What is left of a SETREG has at most 255 values and at least one is fetched (`Pass.restOk`, without the pass). -/
def RestOk (r : Option SetregRest) : Prop := ∀ x, r = some x → 0 < x.next ∧ x.next ≤ x.n ∧ x.n < 256

theorem restOk_iff (p : Pass) : p.restOk = true ↔ RestOk p.setreg := by
  unfold Pass.restOk
  split
  · rename_i hr
    simp [RestOk, hr]
  · rename_i r hr
    simp [RestOk, hr]

theorem restOk_none : RestOk none := fun _ hx => by cases hx

theorem restOk_nested {imm16 : Half} {n j : Nat} (hj : j < n) (hn : n < 256) : RestOk (some ⟨imm16, n, j + 1⟩) := by
  rintro _ ⟨⟩
  exact ⟨Nat.succ_pos j, hj, hn⟩

theorem RestOk.left {r q : Option SetregRest} (h : RestOk r) (hleft : LeftOf r q) : RestOk q := by
  obtain rfl | ⟨x, j, hr, _, hj, rfl⟩ := hleft
  · exact h
  · exact restOk_nested hj (h x hr).2.2

/-- What is left of a SETREG is a SETREG, and of none is none. -/
theorem LeftOf.isSome_eq {r q : Option SetregRest} (h : LeftOf r q) : q.isSome = r.isSome := by
  obtain rfl | ⟨x, j, rfl, _, _, rfl⟩ := h
  · rfl
  · rfl

/-- Every active pass carries a legal rest, also after one has started. -/
theorem Starts.rests {r : Option SetregRest} {s t : State} (h : Starts r s t) (hr : RestOk r)
    (hs : ∀ p ∈ s.passes, p.restOk = true) : ∀ p ∈ t.passes, p.restOk = true := by
  obtain ⟨ws, hq⟩ := h.passes
  rw [hq]
  exact List.forall_mem_cons.mpr ⟨(restOk_iff _).mpr hr, hs⟩

/-! ### Depth, request flag and frames -/

theorem framesOk_cons_of_ne {p : Pass} {rest : List Pass} (hne : rest ≠ []) :
    framesOk (p :: rest) = (p.setreg.isSome && framesOk rest) := by
  cases rest with
  | nil => exact absurd rfl hne
  | cons => rfl

/-- Only whether a SETREG started a pass counts. -/
theorem framesOk_cons_congr {p q : Pass} (h : q.setreg.isSome = p.setreg.isSome) (rest : List Pass) :
    framesOk (q :: rest) = framesOk (p :: rest) := by
  cases rest with
  | nil => rw [framesOk, framesOk, ← Option.not_isSome, ← Option.not_isSome, h]
  | cons => rw [framesOk, framesOk, h]

theorem framesOk_tail {p : Pass} {rest : List Pass} (h : framesOk (p :: rest) = true) : framesOk rest = true := by
  cases rest with
  | nil => rfl
  | cons q rest => exact (Bool.and_eq_true_iff.mp h).2

/-- A pass with a caller's SETREG has a pass around it. -/
theorem rest_ne_nil_of_setreg {p : Pass} {rest : List Pass} {x : SetregRest} (h : framesOk (p :: rest) = true)
    (hx : p.setreg = some x) : rest ≠ [] := by
  rintro rfl
  simp [framesOk, hx] at h

/-- The active passes are counted and nested as `PassesOk` says, whatever the request flag is. -/
structure StackOk (s : State) : Prop where
  depth  : s.faulted = none → s.depth = s.passes.length
  frames : framesOk s.passes = true
  rests  : ∀ p ∈ s.passes, p.restOk = true

theorem PassesOk.stackOk {s : State} (h : PassesOk s) : StackOk s := ⟨h.depth, h.frames, h.rests⟩

/-- A stack that is kept is still in order. -/
theorem StackOk.passesOk {s t : State} (h : StackOk s) (hpasses : t.passes = s.passes) (hdepth : t.depth = s.depth)
    (hfaulted : t.faulted = s.faulted) (hidle : t.faulted = none → t.passes = [] → t.regs.dlReq = 0) : PassesOk t := by
  refine ⟨?_, hidle, ?_, ?_⟩
  · rw [hfaulted, hdepth, hpasses]
    exact h.depth
  · rw [hpasses]
    exact h.frames
  · rw [hpasses]
    exact h.rests

/-- The end of a pass leaves the stack in order. -/
theorem StackOk.closePass {s : State} {p : Pass} {rest : List Pass} (h : StackOk s) (hp : s.passes = p :: rest) :
    StackOk (closePass p rest s) := by
  obtain ⟨hdepth, hframes, hrests⟩ := h
  rw [hp] at hdepth hframes hrests
  refine ⟨fun hf => ?_, framesOk_tail hframes, (List.forall_mem_cons.mp hrests).2⟩
  rw [closePass_depth, closePass_passes, hdepth hf, List.length_cons, Nat.add_sub_cancel]

/-- A pass that starts where its frame is in order keeps the invariant. -/
theorem Starts.passesOk {r : Option SetregRest} {s t : State} (h : Starts r s t) (hs : StackOk s) (hr : RestOk r)
    (hframes : ∀ q : Pass, q.setreg = r → framesOk (q :: s.passes) = true) : PassesOk t := by
  obtain ⟨ws, hq⟩ := h.passes
  refine ⟨fun hf => ?_, fun _ hidle => ?_, ?_, h.rests hr hs.rests⟩
  · rw [h.depth, hq, hs.depth (h.faulted ▸ hf), List.length_cons]
  · rw [hq] at hidle
    cases hidle
  · rw [hq]
    exact hframes _ rfl

/-- What a return does with its caller keeps the invariant: a caller's SETREG still has a pass around it. -/
theorem PassesOk.returned {s t : State} {p : Pass} {rest : List Pass} (h : PassesOk s) (hp : s.passes = p :: rest)
    (heffect : ReturnEffect p.setreg (closePass p rest s) t) : PassesOk t := by
  have hclosed := h.stackOk.closePass hp
  have hframes : framesOk (p :: rest) = true := hp ▸ h.frames
  cases heffect with
  | done _ hsame hreq => exact hclosed.passesOk hsame.passes hsame.depth hsame.faulted fun _ _ => hreq rfl
  | advances x hr _ hadv =>
    refine hclosed.passesOk hadv.passes hadv.depth hadv.faulted fun _ hidle => ?_
    exact absurd (hadv.passes.symm.trans hidle) (rest_ne_nil_of_setreg hframes hr)
  | starts q hq hstart =>
    have hrest : RestOk p.setreg := (restOk_iff p).mp (h.rests p (by simp [hp]))
    refine hstart.passesOk hclosed (hrest.left hq) fun q' hq' => ?_
    rw [closePass_passes, framesOk_cons_congr (p := p) (by rw [hq', hq.isSome_eq])]
    exact hframes

/-- Settles O50: the depth and the frames follow the passes that a step starts and ends; the flag of the IDLE block is
cleared by the return that makes it idle and set by no write but one that starts a pass. -/
theorem stepKeepsPassesOk : Obligations.StepKeepsPassesOk := by
  intro s t h ht
  cases step_effect ht with
  | served hidle hsame hreq =>
    exact h.stackOk.passesOk hsame.passes hsame.depth hsame.faulted
      fun hf _ => hreq (h.idle (hsame.faulted ▸ hf) hidle)
  | reset hidle rest hnext heq =>
    subst heq
    exact ⟨fun _ => rfl, fun _ _ => rfl, rfl, List.forall_mem_nil _⟩
  | requested hidle hstart =>
    refine hstart.passesOk h.stackOk restOk_none fun q hq => ?_
    rw [hidle, framesOk, hq]
    rfl
  | command p rest hp hbelow n hn hadv =>
    refine h.stackOk.passesOk hadv.passes hadv.depth hadv.faulted fun _ hidle => ?_
    rw [hadv.passes, hp] at hidle
    cases hidle
  | nested p rest hp hbelow imm16 n j hj hn hstart =>
    refine hstart.passesOk h.stackOk (restOk_nested hj hn) fun q hq => ?_
    rw [framesOk_cons_of_ne (by simp [hp]), hq, h.frames]
    rfl
  | returned p rest hp hended heffect => exact h.returned hp heffect

/-! ### The bound on the cursor -/

/-- The end address of a pass, whatever the registers (42_list_processor R172, R181). -/
theorem endAddress_le {s : State} (hspan : s.cfg.zeroCountSpan ≤ 0x3FFFFFC) : endAddress s ≤ 0xFFFFFF + 0x3FFFFFC := by
  have hsrc := s.regs.dlSrc.isLt
  have hcnt := s.regs.dlCnt.isLt
  unfold endAddress
  split <;> omega

/-- `CursorOk` looks at the parameters and the passes alone. -/
theorem CursorOk.congr {s t : State} (h : CursorOk s) (hcfg : t.cfg = s.cfg) (hpasses : t.passes = s.passes) :
    CursorOk t := by
  constructor
  · rw [hcfg]
    exact h.shared
  · rw [hcfg]
    exact h.span
  · rw [hpasses]
    exact h.ends
  · rw [hpasses]
    exact h.rests

theorem CursorOk.starts {r : Option SetregRest} {s t : State} (h : CursorOk s) (hstart : Starts r s t) (hr : RestOk r) :
    CursorOk t := by
  have hspan : t.cfg.zeroCountSpan ≤ 0x3FFFFFC := hstart.cfg ▸ h.span
  refine ⟨hstart.cfg ▸ h.shared, hspan, ?_, hstart.rests hr h.rests⟩
  obtain ⟨ws, hq⟩ := hstart.passes
  rw [hq]
  exact List.forall_mem_cons.mpr ⟨endAddress_le hspan, h.ends⟩

section
variable {s : State} {p : Pass} {rest : List Pass}

theorem CursorOk.closePass (h : CursorOk s) (hp : s.passes = p :: rest) : CursorOk (closePass p rest s) :=
  ⟨h.shared, h.span, fun q hq => h.ends q (by rw [hp]; exact List.mem_cons_of_mem p hq),
    fun q hq => h.rests q (by rw [hp]; exact List.mem_cons_of_mem p hq)⟩

theorem CursorOk.restOk (h : CursorOk s) (hp : s.passes = p :: rest) : RestOk p.setreg :=
  (restOk_iff p).mp (h.rests p (by simp [hp]))

theorem CursorOk.closePass_pc (h : CursorOk s) : (Machine.closePass p rest s).pc = s.pc := by
  rw [closePass_shared h.shared]

/-- Below the end address of its pass the cursor is below R181's bound, so no command's advance wraps. -/
theorem CursorOk.pc_lt (h : CursorOk s) (hp : s.passes = p :: rest) (hbelow : s.pc.toNat < p.endAddr) :
    s.pc.toNat < 0xFFFFFF + 0x3FFFFFC :=
  Nat.lt_of_lt_of_le hbelow (h.ends p (by simp [hp]))

end

/-- The cursor after a step, with the active passes (42_list_processor R171, R175, R178): the host leaves both, or resets
the cursor; a pass that starts puts it at `DL_SRC`; a command adds its length to a cursor below R181's bound; a return drops
a pass, and leaves the cursor or adds the length of the SETREG it returns into. -/
inductive CursorMove (s t : State) : Prop
  | stays (hpc : t.pc = s.pc) (hlen : t.passes.length ≤ s.passes.length)
  | reset (idle : s.passes = []) (hpc : t.pc = 0) (rest : List HostAction) (hnext : s.inputs = .reset :: rest)
      (hlen : t.passes.length = 0)
  | starts (start : PassStarts s t)
  | command (n : Nat) (hn : n < 256) (hpc : t.pc.toNat = s.pc.toNat + 4 * (1 + n))
      (below : s.pc.toNat < 0xFFFFFF + 0x3FFFFFC)
  | resumes (n : Nat) (hn : n < 256) (hpc : t.pc.toNat = s.pc.toNat + 4 * (1 + n))
      (hlen : t.passes.length + 1 = s.passes.length)

theorem Starts.passStarts {r : Option SetregRest} {s t : State} (h : Starts r s t) : PassStarts s t := by
  obtain ⟨q, hq, hend, hreq⟩ := h.latched
  exact ⟨q, s.passes, .inl rfl, hq, hend, hreq, h.pc⟩

/-- A pass that starts where another ended. -/
theorem Starts.passStarts_closed {r : Option SetregRest} {s t : State} {p : Pass} {rest : List Pass}
    (h : Starts r (closePass p rest s) t) (hp : s.passes = p :: rest) (hended : p.endAddr ≤ s.pc.toNat) :
    PassStarts s t := by
  obtain ⟨q, hq, hend, hreq⟩ := h.latched
  exact ⟨q, rest, .inr ⟨p, hp, hended⟩, hq, hend, hreq, h.pc⟩

/-- Every step keeps `CursorOk` and moves the cursor without wrapping. -/
theorem CursorOk.step {s t : State} (h : CursorOk s) (ht : step s = .next t) : CursorOk t ∧ CursorMove s t := by
  cases step_effect ht with
  | served _ hsame => exact ⟨h.congr hsame.cfg hsame.passes, .stays hsame.pc (by rw [hsame.passes])⟩
  | reset hidle rest hnext heq =>
    subst heq
    exact ⟨h.congr rfl hidle.symm, .reset hidle rfl rest hnext rfl⟩
  | requested _ hstart => exact ⟨h.starts hstart restOk_none, .starts hstart.passStarts⟩
  | command p rest hp hbelow n hn hadv =>
    have hlt := h.pc_lt hp hbelow
    exact ⟨h.congr hadv.cfg hadv.passes, .command n hn (hadv.toNat_pc (by omega)) hlt⟩
  | nested p rest hp hbelow imm16 n j hj hn hstart =>
    exact ⟨h.starts hstart (restOk_nested hj hn), .starts hstart.passStarts⟩
  | returned p rest hp hended heffect =>
    have hclosed := h.closePass hp
    have hlen : rest.length + 1 = s.passes.length := by rw [hp, List.length_cons]
    cases heffect with
    | done _ hsame =>
      refine ⟨hclosed.congr hsame.cfg hsame.passes, .stays (hsame.pc.trans h.closePass_pc) ?_⟩
      rw [hsame.passes, closePass_passes]
      omega
    | advances x hr hwrap hadv =>
      obtain ⟨_, _, hn⟩ := h.restOk hp x hr
      refine ⟨hclosed.congr hadv.cfg hadv.passes, .resumes x.n hn ?_ ?_⟩
      · rw [hadv.toNat_pc hwrap, h.closePass_pc]
      · rw [hadv.passes, closePass_passes, hlen]
    | starts q hq hstart =>
      exact ⟨hclosed.starts hstart ((h.restOk hp).left hq), .starts (hstart.passStarts_closed hp hended)⟩

/-- A step is refused only where one advance of at most 1024 bytes would take the cursor to 2^32. -/
theorem CursorOk.refused {s : State} (h : CursorOk s) {r : Refusal} (hr : Machine.step s = .refused r) :
    r = .cursorWraps ∧ 2 ^ 32 ≤ s.pc.toNat + 1024 := by
  obtain ⟨_, hne⟩ := ((sameHistory_keeps s).step ⟨rfl, rfl, List.prefix_rfl⟩).refused hr
  obtain ⟨p, rest, hp⟩ := List.exists_cons_of_ne_nil hne
  by_cases hend : s.pc.toNat < p.endAddr
  · exact (step_answers_below hp hend).refused hr
  · obtain ⟨hwraps, x, hx, hwrap⟩ := (step_answers_ended hp (Nat.le_of_not_lt hend)).refused hr
    obtain ⟨_, _, hn⟩ := h.restOk hp x hx
    rw [h.closePass_pc] at hwrap
    exact ⟨hwraps, by omega⟩

/-- Settles O53: every case of `CursorMove` is one of the four causes. -/
theorem cursorNeverWraps : Obligations.CursorNeverWraps := by
  intro s h
  refine ⟨fun t ht => ?_, fun r hr => h.refused hr⟩
  obtain ⟨hok, hmove⟩ := h.step ht
  refine ⟨hok, ?_⟩
  cases hmove with
  | stays hpc => exact .inl hpc
  | starts hstart => exact .inr (.inl hstart)
  | reset hidle hpc rest hnext => exact .inr (.inr (.inl ⟨hidle, hpc, rest, hnext⟩))
  | command n hn hpc => exact .inr (.inr (.inr ⟨n, hn, hpc⟩))
  | resumes n hn hpc => exact .inr (.inr (.inr ⟨n, hn, hpc⟩))

/-- Where a pass starts the cursor is in the first 16 MiB. -/
theorem PassStarts.pc_lt {s t : State} (h : PassStarts s t) : t.pc.toNat < 2 ^ 24 := by
  obtain ⟨_, _, _, _, _, _, hpc⟩ := h
  have hsrc := t.regs.dlSrc.isLt
  rw [hpc, BitVec.toNat_setWidth]
  omega

/-- Settles O54: a command starts from R181's bound; only a return adds to a cursor past it, and it drops the pass that
pays for the 1024 bytes. -/
theorem cursorStaysBelowItsBound : Obligations.CursorStaysBelowItsBound := by
  intro depth s h hbelow
  unfold CursorBelow at hbelow ⊢
  refine ⟨fun t ht hlen => ?_, fun hdepth => by omega, fun hdepth => ⟨by omega, fun r hr => ?_⟩⟩
  · obtain ⟨_, hmove⟩ := h.step ht
    cases hmove with
    | stays hpc hle =>
      rw [hpc]
      omega
    | reset _ hpc _ _ h0 =>
      rw [hpc, h0]
      show 0 + 1024 * 0 < _
      omega
    | starts hstart =>
      have hpc := hstart.pc_lt
      omega
    | command n hn hpc hlt => omega
    | resumes n hn hpc hdrop => omega
  · obtain ⟨_, hwrap⟩ := h.refused hr
    omega

/-! ### The start of an inner pass -/

/-- What every field write leaves alone, SETREG values that start no pass leave alone. -/
theorem setregWrites_keeps {c : Config} {P : State → Prop} (hcfg : ∀ t, P t → t.cfg = c)
    (hf : ∀ w t, P t → P (fieldWrite w t)) (imm16 : Half) (value : Nat → Word) : ∀ (l : List Nat) (t : State),
    (∀ i ∈ l, StartsNothing c.slots (imm16.toNat * 4 + 4 * i) (value i) (BitVec.allOnes 32)) → P t →
    P (setregWrites imm16 value l t)
  | [], _, _, h => h
  | i :: l, t, hl, h =>
    setregWrites_keeps hcfg hf imm16 value l _ (fun j hj => hl j (List.mem_cons_of_mem _ hj))
      (regWrite_quiet_keeps hf (by rw [hcfg t h]; exact hl i List.mem_cons_self) h)

/-- A write of 1 to the request flag sets it. -/
theorem fieldWrite_request_one {m : Word} (hm : m.getLsbD 0 = true) (s : State) :
    fieldWrite ⟨.dlReq, 1, m⟩ s = { s with regs := { s.regs with dlReq := 1 } } := by
  have hflag : (((s.regs.dlReq.setWidth 32 : Word) &&& ~~~m) ||| (1 &&& m)).setWidth 1 = (1 : BitVec 1) := by
    ext k hk
    obtain rfl : k = 0 := by omega
    simp [hm]
  rw [fieldWrite_request, hflag]

/-- The one field write that sets the request flag starts a pass. -/
theorem runWrites_request {m : Word} (hm : m.getLsbD 0 = true) (r : Option SetregRest) (s : State) :
    runWrites [⟨.dlReq, 1, m⟩] r s = (openPass [] r { s with regs := { s.regs with dlReq := 1 } }, true) := by
  rw [runWrites, fieldWrite_request_one hm]
  rfl

theorem interval_cons {a n : Nat} (h : a < n) : interval a n = a :: interval (a + 1) n := by
  rw [interval, interval, show n - a = n - (a + 1) + 1 by omega, List.range'_succ]

theorem interval_split {j n : Nat} (h : j < n) : interval 0 n = List.range j ++ j :: interval (j + 1) n := by
  have happ := List.range'_append_1 (s := 0) (m := j) (n := n - j)
  rw [Nat.zero_add, Nat.add_sub_cancel' (Nat.le_of_lt h)] at happ
  rw [← interval_cons h, List.range_eq_range']
  exact happ.symm

/-- Settles O23: the values before `j` are container writes, and value `j` is the one field write that starts a pass. -/
theorem setregOfRequestStartsInnerPass : Obligations.SetregOfRequestStartsInnerPass := by
  intro c imm16 s t j m hj hin hquiet hws hm ht
  have hl : ∀ i ∈ List.range j, s.pc.toNat + 4 + 4 * i + 4 ≤ s.cfg.vramSize ∧
      StartsNothing s.cfg.slots (imm16.toNat * 4 + 4 * i) (wordAt s (s.pc.toNat + 4 + 4 * i)) (BitVec.allOnes 32) :=
    fun i hi => ⟨hin i (Nat.le_of_lt (List.mem_range.mp hi)), hquiet i (List.mem_range.mp hi)⟩
  obtain ⟨hrun, hfetch⟩ := setregValues_quiet imm16 c.toNat s (j :: interval (j + 1) c.toNat) (List.range j) s
    ⟨rfl, rfl, rfl⟩ hl
  rw [← ht] at hrun hfetch
  have hsame : SameControl s t := ht ▸ setregWrites_keeps (fun _ h => h.cfg) (fun w _ h => h.fieldWrite w) imm16 _ _ s
    (fun i hi => (hl i hi).2) (.refl s)
  have hval : BitVec.ofNat 32 (loadValue t (t.pc.toNat + 4 + 4 * j) 4) = wordAt s (s.pc.toNat + 4 + 4 * j) := by
    rw [hfetch.loadValue, hfetch.pc, wordAt]
  show setregValues imm16 c.toNat (interval 0 c.toNat) s = _
  rw [interval_split hj, hrun, setregValues, withLoad_of_le _ (by rw [hsame.pc, hsame.cfg]; exact hin j (Nat.le_refl j)),
    hval, hsame.cfg, setregOffset, hws, runWrites_request hm]
  simp [openPass, endAddress, hsame.pc, hsame.passes, hsame.depth, hsame.cfg]

end Sys2Proof.Machine
end

section
/-! SUPPORT. The steps of the machine and the recursive procedure of 42_list_processor R171. `runJob` keeps no stack: the
callers of a job stand in Lean's own recursion. The machine holds them in `State.passes`, which no operation of a job looks
at, so a job's state is the machine's with another stack (`withPasses`), and each job is simulated by steps that end in what
its caller does next (`Leads`). -/

namespace Sys2Proof.Machine

/-! ### Steps up to a result -/

/-- `k` steps of the machine. -/
def steps (k : Nat) (s : State) : Result := Sys2Proof.core.run k s

/-- A run ends with the refusal of its first step. -/
theorem run_succ_refused {k : Nat} {s : State} {r : Refusal} (h : step s = .refused r) :
    Sys2Proof.core.run (k + 1) s = .refused r := by
  have h' : Sys2Proof.core.step s = .refused r := h
  simp only [Host.Core.run, h']

theorem steps_succ (k : Nat) (s : State) : steps (k + 1) s = andThen (step s) (steps k) := by
  cases h : step s with
  | next t => exact run_succ_next h
  | fault r => exact run_succ_fault h
  | refused r => exact run_succ_refused h

theorem steps_add (j k : Nat) (s : State) : steps (j + k) s = andThen (steps j s) (steps k) := by
  induction j generalizing s with
  | zero =>
    rw [Nat.zero_add]
    rfl
  | succ j ih => rw [Nat.succ_add, steps_succ, steps_succ, andThen_assoc, funext ih]

/-- Steps from the answer `a`, if it goes on, end in the answer `b`. -/
def Leads (a b : Result) : Prop := ∃ k, andThen a (steps k) = b

theorem Leads.refl (a : Result) : Leads a a := by
  refine ⟨0, ?_⟩
  cases a <;> rfl

theorem Leads.trans {a b c : Result} (hab : Leads a b) (hbc : Leads b c) : Leads a c := by
  obtain ⟨j, rfl⟩ := hab
  obtain ⟨k, rfl⟩ := hbc
  exact ⟨j + k, by rw [andThen_assoc, funext (steps_add j k)]⟩

/-- One step. -/
theorem leads_step (s : State) : Leads (.next s) (step s) := by
  refine ⟨1, ?_⟩
  show steps (0 + 1) s = step s
  rw [steps_succ]
  cases step s <;> rfl

/-- A call in sequence with what its caller does next: if steps lead from `a` to `K₁` of whatever the call answers, and from
there to `K₂` of whatever the caller answers, they lead from `a` to the latter. -/
theorem leads_afterJob {a : Result} {call : Option Result} {k : State → Option Result} {o : Result} {K₁ K₂ : State → Result}
    (h : afterJob call k = some o) (hcall : ∀ o₁, call = some o₁ → Leads a (andThen o₁ K₁))
    (hnext : ∀ t, call = some (.next t) → k t = some o → Leads (K₁ t) (andThen o K₂)) : Leads a (andThen o K₂) := by
  match call, h with
  | some (.next t), h => exact (hcall _ rfl).trans (hnext t rfl h)
  | some (.fault r), h =>
    cases h
    exact hcall _ rfl
  | some (.refused r), h =>
    cases h
    exact hcall _ rfl

/-! ### The same state with other passes -/

/-- `s` with the active passes `ps`. -/
def withPasses (ps : List Pass) (s : State) : State := { s with passes := ps }

@[simp] theorem withPasses_pc (ps : List Pass) (s : State) : (withPasses ps s).pc = s.pc := rfl
@[simp] theorem withPasses_cfg (ps : List Pass) (s : State) : (withPasses ps s).cfg = s.cfg := rfl

theorem withPasses_self {s : State} {ps : List Pass} (h : s.passes = ps) : withPasses ps s = s := by
  subst h
  rfl

/-- An operation that does not look at the active passes and leaves them alone. -/
def IgnoresPasses (f : State → Result) : Prop :=
  ∀ ps s, f (withPasses ps s) = andThen (f s) fun t => .next (withPasses ps t)

/-- A fault drops the passes, whatever they were. -/
theorem rangeFault_withPasses (ps : List Pass) (s : State) (kind : AccessKind) (a n : Nat) :
    rangeFault (withPasses ps s) kind a n = rangeFault s kind a n := by
  rw [rangeFault_eq, rangeFault_eq]
  rfl

theorem andThen_rangeFault (s : State) (kind : AccessKind) (a n : Nat) (k : State → Result) :
    andThen (rangeFault s kind a n) k = rangeFault s kind a n := by
  rw [rangeFault_eq]
  rfl

theorem withLoad_withPasses {ps : List Pass} {s : State} {kind : AccessKind} {a n : Nat} {k k' : Nat → Result}
    (hk : ∀ v, k' v = andThen (k v) fun t => .next (withPasses ps t)) :
    withLoad (withPasses ps s) kind a n k' = andThen (withLoad s kind a n k) fun t => .next (withPasses ps t) := by
  by_cases hin : a + n ≤ s.cfg.vramSize
  · rw [withLoad_of_le _ hin, withLoad_of_le k' (s := withPasses ps s) hin]
    exact hk _
  · rw [withLoad_of_lt _ (Nat.lt_of_not_le hin), withLoad_of_lt k' (s := withPasses ps s) (Nat.lt_of_not_le hin),
      andThen_rangeFault, rangeFault_withPasses]

theorem store_withPasses (ps : List Pass) (s : State) (kind : AccessKind) (a n v : Nat) :
    store (withPasses ps s) kind a n v = andThen (store s kind a n v) fun t => .next (withPasses ps t) := by
  by_cases hin : a + n ≤ s.cfg.vramSize
  · rw [store_of_le hin, store_of_le (s := withPasses ps s) hin]
    rfl
  · rw [store_of_lt (Nat.lt_of_not_le hin), store_of_lt (s := withPasses ps s) (Nat.lt_of_not_le hin),
      andThen_rangeFault, rangeFault_withPasses]

theorem ignoresPasses_copyPixel (rk wk : AccessKind) (src dst : Nat) : IgnoresPasses (copyPixel rk wk src dst) :=
  fun ps s => withLoad_withPasses fun p => store_withPasses ps s wk dst 2 p

theorem ignoresPasses_forEach {α : Type} {f : α → State → Result} (hf : ∀ x, IgnoresPasses (f x)) (xs : List α) :
    IgnoresPasses (forEach xs f) := by
  intro ps
  induction xs with
  | nil => exact fun _ => rfl
  | cons x xs ih =>
    intro s
    rw [forEach, forEach, hf x ps s, andThen_assoc, andThen_assoc]
    exact congrArg (andThen (f x s)) (funext ih)

theorem withOperandWords_withPasses {ps : List Pass} {s : State} :
    ∀ {ks : List Nat} {k k' : List Word → Result}, (∀ ws, k' ws = andThen (k ws) fun t => .next (withPasses ps t)) →
      withOperandWords (withPasses ps s) ks k' = andThen (withOperandWords s ks k) fun t => .next (withPasses ps t)
  | [], _, _, hk => hk []
  | _ :: _, _, _, hk => withLoad_withPasses fun _ => withOperandWords_withPasses fun _ => hk _

theorem ignoresPasses_commandBody (i : Instr) (ws : List Word) : IgnoresPasses (commandBody i ws) := by
  cases i with
  | rectFill imm16 =>
    exact fun ps s => ignoresPasses_forEach (fun row => ignoresPasses_forEach (fun col ps t =>
      store_withPasses ps t .fillWrite (framePixel s row col) 2 s.regs.fgCol.toNat) _) _ ps s
  | bltcopy c imm16 =>
    exact fun ps s => ignoresPasses_forEach
      (fun r => ignoresPasses_forEach (fun c => ignoresPasses_copyPixel _ _ _ _) _) _ ps s
  | drawCommit imm16 =>
    exact fun ps s => ignoresPasses_forEach
      (fun row => ignoresPasses_forEach (fun col => ignoresPasses_copyPixel _ _ _ _) _) _ ps s
  | interrupt | rectMark | rectOther | nop | init | viewport | depthrange | xyclip | zclip | drawC2 | drawE1 | drawOther
  | setreg | unknown => exact fun _ _ => rfl

/-- No command but SETREG looks at the active passes. -/
theorem ignoresPasses_exec {i : Instr} (hset : ∀ c imm16, i ≠ .setreg c imm16) : IgnoresPasses (exec i) := by
  intro ps s
  rw [exec_eq_body hset, exec_eq_body hset]
  refine withOperandWords_withPasses fun ws => ?_
  rw [ignoresPasses_commandBody i ws ps s, andThen_assoc, andThen_assoc]
  rfl

theorem advanceBelowWrap_withPasses (ps : List Pass) (s : State) (n : Nat) :
    advanceBelowWrap (withPasses ps s) n = andThen (advanceBelowWrap s n) fun t => .next (withPasses ps t) := by
  rw [advanceBelowWrap, advanceBelowWrap, withPasses_pc]
  split
  · rfl
  · rfl

theorem validateAndApply_withPasses (ps : List Pass) (s : State) :
    validateAndApply (withPasses ps s) = withPasses ps (validateAndApply s) := by
  rw [validateAndApply_eq, validateAndApply_eq]
  rfl

theorem fieldWrite_withPasses (w : PendingWrite) (ps : List Pass) (s : State) :
    fieldWrite w (withPasses ps s) = withPasses ps (fieldWrite w s) := by
  have hregs : (fieldWrite w (withPasses ps s)).regs = (fieldWrite w s).regs := by
    rw [fieldWrite_regs, fieldWrite_regs]
    rfl
  by_cases htime : w.field ∈ timingFields
  · rw [fieldWrite_of_timing _ htime, fieldWrite_of_timing s htime, hregs]
    exact validateAndApply_withPasses ps { s with regs := (fieldWrite w s).regs }
  · by_cases hirq : w.field ∈ irqFields
    · rw [fieldWrite_of_irq _ hirq, fieldWrite_of_irq s hirq, hregs]
      rfl
    · rw [fieldWrite_of_plain _ hirq htime, fieldWrite_of_plain s hirq htime, hregs]
      rfl

/-! ### A job keeps the passes and the parameters -/

/-- `t` has the passes and the parameters of `s`. -/
structure SameFrame (s t : State) : Prop where
  passes : t.passes = s.passes
  cfg    : t.cfg = s.cfg

theorem SameFrame.refl (s : State) : SameFrame s s := ⟨rfl, rfl⟩

theorem SameFrame.trans {s t u : State} (h : SameFrame s t) (h' : SameFrame t u) : SameFrame s u :=
  ⟨h'.passes.trans h.passes, h'.cfg.trans h.cfg⟩

theorem SameFrame.shared {s t : State} (h : SameFrame s t) (hs : s.cfg.nestedReq = .sharedCursor) :
    t.cfg.nestedReq = .sharedCursor := by
  rw [h.cfg, hs]

/-- A call and its caller's rest that both keep passes and parameters. -/
theorem sameFrame_afterJob {call : Option Result} {k : State → Option Result} {s u : State}
    (h : afterJob call k = some (.next u)) (hcall : ∀ t, call = some (.next t) → SameFrame s t)
    (hk : ∀ t, k t = some (.next u) → SameFrame t u) : SameFrame s u := by
  match call, h with
  | some (.next t), h => exact (hcall t rfl).trans (hk t h)
  | some (.fault r), h => cases h
  | some (.refused r), h => cases h
  | none, h => cases h

theorem sameFrame_exec {i : Instr} {s t : State} (hset : ∀ c imm16, i ≠ .setreg c imm16) (h : exec i s = .next t) :
    SameFrame s t := by
  have hadv := (exec_advances (W := True) hset s).next h
  exact ⟨hadv.passes, hadv.cfg⟩

theorem runJob_sameFrame {k : Nat} {j : Job} {s t : State} (h : runJob k j s = some (.next t)) : SameFrame s t := by
  induction k generalizing j s t with
  | zero => cases h
  | succ k ih =>
    match j with
    | .runList =>
      rw [runJob] at h
      refine sameFrame_afterJob h (fun u hu => ?_) fun u hu => ?_
      · exact ⟨(ih hu).passes, (ih hu).cfg⟩
      · cases hu
        exact ⟨rfl, rfl⟩
    | .loop e =>
      rw [runJob] at h
      split at h
      · split at h
        · split at h
          · exact sameFrame_afterJob h (fun u hu => ih hu) fun u hu => ih hu
          · rename_i hset
            exact sameFrame_afterJob h (fun u hu => sameFrame_exec hset (Option.some.inj hu)) fun u hu => ih hu
        · rw [rangeFault_eq] at h
          cases h
      · cases h
        exact .refl s
    | .values imm16 n [] =>
      rw [runJob] at h
      have hans : Answers (advanceBelowWrap s n) (SameFrame s) (fun _ _ => True) True :=
        advanceBelowWrap_answers (fun _ => ⟨rfl, rfl⟩) fun _ => trivial
      exact hans.next (Option.some.inj h)
    | .values imm16 n (i :: is) =>
      rw [runJob] at h
      split at h
      · exact sameFrame_afterJob h (fun u hu => ih hu) fun u hu => ih hu
      · rw [rangeFault_eq] at h
        cases h
    | .writes [] =>
      cases h
      exact .refl s
    | .writes (w :: ws) =>
      have hw : SameFrame s (fieldWrite w s) := ⟨fieldWrite_passes w s, fieldWrite_cfg w s⟩
      rw [runJob] at h
      split at h
      · exact hw.trans (sameFrame_afterJob h (fun u hu => ih hu) fun u hu => ih hu)
      · exact hw.trans (ih h)

/-! ### The simulation -/

theorem inRange_iff {s : State} {a n : Nat} : inRange s a n = true ↔ a + n ≤ s.cfg.vramSize := decide_eq_true_iff

/-- What the machine does for job `j`, which ends in `o` from `s`, with any callers on its stack. -/
def Simulates (j : Job) (s : State) (o : Result) : Prop :=
  match j with
  | .runList => ∀ ps ws r,
      Leads (.next (openPass ws r (withPasses ps s))) (andThen o fun t => finishWrites ws r (withPasses ps t))
  | .loop e => ∀ (p : Pass) (ps : List Pass), p.endAddr = e →
      Leads (.next (withPasses (p :: ps) s)) (andThen o fun t => finishPass p ps (withPasses (p :: ps) t))
  | .values imm16 n is => ∀ a ps, is = interval a n →
      Leads (setregValues imm16 n is (withPasses ps s)) (andThen o fun t => .next (withPasses ps t))
  | .writes ws => ∀ ps r,
      Leads (finishWrites ws r (withPasses ps s)) (andThen o fun t => afterWrites r (withPasses ps t))

theorem finishWrites_cons_started {w : PendingWrite} {ws : List PendingWrite} {r : Option SetregRest} {s : State}
    (h : startsPass w (fieldWrite w s) = true) :
    finishWrites (w :: ws) r s = .next (openPass ws r (fieldWrite w s)) := by
  simp [finishWrites, runWrites, h]

theorem finishWrites_cons_quiet {w : PendingWrite} {ws : List PendingWrite} {r : Option SetregRest} {s : State}
    (h : startsPass w (fieldWrite w s) = false) : finishWrites (w :: ws) r s = finishWrites ws r (fieldWrite w s) := by
  simp [finishWrites, runWrites, h]

/-- A SETREG value in range is a container write whose caller goes on with the values behind it. -/
theorem setregValues_cons {imm16 : Half} {n i : Nat} {s : State} (hin : s.pc.toNat + 4 + 4 * i + 4 ≤ s.cfg.vramSize) :
    setregValues imm16 n (i :: interval (i + 1) n) s =
      finishWrites (registerWrites s.cfg (setregOffset imm16 i)
        (BitVec.ofNat 32 (loadValue s (s.pc.toNat + 4 + 4 * i) 4)) (BitVec.allOnes 32)) (some ⟨imm16, n, i + 1⟩) s := by
  rw [setregValues, withLoad_of_le _ hin]
  unfold finishWrites
  generalize runWrites _ _ s = x
  obtain ⟨t, b⟩ := x
  cases b <;> rfl

/-- A list of `interval a n` that is not empty starts with `a`. -/
theorem cons_eq_interval {i a n : Nat} {is : List Nat} (h : i :: is = interval a n) : is = interval (i + 1) n := by
  have ha : a < n := by
    by_contra hle
    rw [interval, Nat.sub_eq_zero_of_le (Nat.le_of_not_lt hle)] at h
    cases h
  rw [interval_cons ha] at h
  obtain ⟨rfl, his⟩ := List.cons.inj h
  exact his

section
variable {k : Nat} {s : State} {o : Result} (hshared : s.cfg.nestedReq = .sharedCursor)
  (ih : ∀ {j s o}, s.cfg.nestedReq = .sharedCursor → runJob k j s = some o → Simulates j s o)
include hshared ih

/-- `RunList()`: the loop runs as the innermost pass, whose end is the end of the call. -/
theorem simulates_runList (h : runJob (k + 1) .runList s = some o) : Simulates .runList s o := by
  intro ps ws r
  rw [runJob] at h
  refine leads_afterJob h
    (fun o₁ h₁ => ih (s := enterList s) hshared h₁ ⟨endAddress s, s.pc, ws, r⟩ ps rfl) fun t ht ho => ?_
  cases ho
  have hcfg : t.cfg.nestedReq = .sharedCursor := (runJob_sameFrame ht).shared (s := enterList s) hshared
  have hclose : closePass ⟨endAddress s, s.pc, ws, r⟩ ps (withPasses (⟨endAddress s, s.pc, ws, r⟩ :: ps) t) =
      withPasses ps (leaveList t) :=
    closePass_shared (s := withPasses _ t) hcfg _ _
  rw [finishPass_eq, hclose]
  exact .refl _

/-- The loop: a turn is a step, and the end of the loop is the step that ends the pass. -/
theorem simulates_loop {e : Nat} (h : runJob (k + 1) (.loop e) s = some o) : Simulates (.loop e) s o := by
  rintro p ps rfl
  rw [runJob] at h
  have hstep := leads_step (withPasses (p :: ps) s)
  by_cases hend : s.pc.toNat < p.endAddr
  · rw [if_pos hend] at h
    by_cases hin : s.pc.toNat + 4 ≤ s.cfg.vramSize
    · rw [if_pos (inRange_iff.mpr hin)] at h
      have hexec : step (withPasses (p :: ps) s) =
          exec (decodeWord (BitVec.ofNat 32 (loadValue s s.pc.toNat 4))) (withPasses (p :: ps) s) := by
        rw [step_of_below (s := withPasses (p :: ps) s) rfl hend, withCommand]
        exact withLoad_of_le _ hin
      rw [hexec] at hstep
      refine hstep.trans ?_
      split at h
      · rename_i c imm16 hi
        rw [hi]
        refine leads_afterJob h (fun o₁ h₁ => ih hshared h₁ 0 (p :: ps) rfl) fun t ht ho => ?_
        exact ih ((runJob_sameFrame ht).shared hshared) ho p ps rfl
      · rename_i hset
        refine leads_afterJob (K₁ := fun t => .next (withPasses (p :: ps) t)) h (fun o₁ h₁ => ?_) fun t ht ho => ?_
        · cases h₁
          rw [ignoresPasses_exec hset]
          exact .refl _
        · exact ih ((sameFrame_exec hset (Option.some.inj ht)).shared hshared) ho p ps rfl
    · rw [if_neg (mt inRange_iff.mp hin)] at h
      cases h
      rw [step_of_fetch_out_of_range (s := withPasses (p :: ps) s) rfl hend (Nat.lt_of_not_le hin),
        rangeFault_withPasses] at hstep
      rw [andThen_rangeFault]
      exact hstep
  · rw [if_neg hend] at h
    cases h
    rwa [step_of_ended (s := withPasses (p :: ps) s) rfl (Nat.le_of_not_lt hend)] at hstep

/-- SETREG: each value is a container write whose caller goes on with the values behind it. -/
theorem simulates_values {imm16 : Half} {n : Nat} {is : List Nat} (h : runJob (k + 1) (.values imm16 n is) s = some o) :
    Simulates (.values imm16 n is) s o := by
  intro a ps his
  cases is with
  | nil =>
    rw [runJob] at h
    cases h
    rw [setregValues, advanceBelowWrap_withPasses]
    exact .refl _
  | cons i is =>
    obtain rfl := cons_eq_interval his
    rw [runJob] at h
    by_cases hin : s.pc.toNat + 4 + 4 * i + 4 ≤ s.cfg.vramSize
    · rw [if_pos (inRange_iff.mpr hin)] at h
      rw [setregValues_cons (s := withPasses ps s) hin]
      refine leads_afterJob h (fun o₁ h₁ => ih hshared h₁ ps (some ⟨imm16, n, i + 1⟩)) fun t ht ho => ?_
      exact ih ((runJob_sameFrame ht).shared hshared) ho (i + 1) ps rfl
    · rw [if_neg (mt inRange_iff.mp hin)] at h
      cases h
      rw [setregValues, withPasses_pc, withLoad_of_lt (s := withPasses ps s) _ (Nat.lt_of_not_le hin), andThen_rangeFault,
        rangeFault_withPasses]
      exact .refl _

/-- The field writes of a container: one that starts a pass is a call of `RunList()` between those before and behind it. -/
theorem simulates_writes {ws : List PendingWrite} (h : runJob (k + 1) (.writes ws) s = some o) :
    Simulates (.writes ws) s o := by
  intro ps r
  cases ws with
  | nil =>
    cases h
    exact .refl _
  | cons w ws =>
    have hw : (fieldWrite w s).cfg.nestedReq = .sharedCursor := by rw [fieldWrite_cfg, hshared]
    have hfield := fieldWrite_withPasses w ps s
    have hstarts : startsPass w (fieldWrite w (withPasses ps s)) = startsPass w (fieldWrite w s) := by
      rw [hfield]
      rfl
    rw [runJob] at h
    split at h
    · rename_i hstart
      rw [finishWrites_cons_started (hstarts.trans hstart), hfield]
      refine leads_afterJob h (fun o₁ h₁ => ih hw h₁ ps ws r) fun t ht ho => ?_
      exact ih ((runJob_sameFrame ht).shared hw) ho ps r
    · rename_i hstart
      rw [finishWrites_cons_quiet (hstarts.trans (Bool.eq_false_iff.mpr hstart)), hfield]
      exact ih hw h ps r

end

theorem runJob_simulated {k : Nat} {j : Job} {s : State} {o : Result} (hshared : s.cfg.nestedReq = .sharedCursor)
    (h : runJob k j s = some o) : Simulates j s o := by
  induction k generalizing j s o with
  | zero => cases h
  | succ k ih =>
    cases j with
    | runList => exact simulates_runList hshared ih h
    | loop e => exact simulates_loop hshared ih h
    | values imm16 n is => exact simulates_values hshared ih h
    | writes ws => exact simulates_writes hshared ih h

/-- Settles O56: the host's container write is the simulated job with no caller, so it ends in the job's own answer. -/
theorem stepsRunTheListProcedure : Obligations.StepsRunTheListProcedure := by
  intro fuel off data mask s o hp hshared h
  have hpasses : ∀ t, o = .next t → t.passes = [] := by
    rintro t rfl
    rw [(runJob_sameFrame h).passes, hp]
  refine ⟨?_, hpasses⟩
  obtain ⟨k, hk⟩ := runJob_simulated hshared h [] none
  have hwrites : finishWrites (registerWrites s.cfg off data mask) none s = .next (regWrite off data mask s) := by
    rw [finishWrites, afterWrites, ite_self]
    rfl
  have hend : (andThen o fun t => afterWrites none (withPasses [] t)) = o := by
    cases o with
    | next t => exact congrArg Host.Outcome.next (withPasses_self (hpasses t rfl))
    | fault r => rfl
    | refused r => rfl
  rw [withPasses_self hp, hwrites, hend] at hk
  exact ⟨k, hk⟩

end Sys2Proof.Machine
end

section
/-! SUPPORT. Commands that fetch operand words: all in range, the first one out of range, and the commands that do nothing
with them (42_list_processor R174, R180). -/

namespace Sys2Proof.Machine

/-! ### Operand words -/

/-- A command with an operand word out of range faults there, whatever it would have done with it. -/
theorem exec_operandFetchFaults {i : Instr} (hset : ∀ c imm16, i ≠ .setreg c imm16) (s : State) :
    OperandFetchFaults i (operandCount i) s := by
  intro k h1 hn hbefore hout
  rw [exec_eq_body hset]
  exact withOperands_fault _ h1 hn hbefore hout

/-- A command with its operand words in range does its work on them and advances. -/
theorem exec_of_operandsInRange {i : Instr} (hset : ∀ c imm16, i ≠ .setreg c imm16) {s : State}
    (h : OperandsInRange s (operandCount i)) :
    exec i s = andThen (commandBody i (operandWords s (operandCount i)) s) fun t => .next (advance t (operandCount i)) := by
  rw [exec_eq_body hset, withOperands_next _ h]

/-- A command whose work is nothing fetches its operand words and skips them. -/
theorem exec_fetchesAndSkips {i : Instr} (hset : ∀ c imm16, i ≠ .setreg c imm16) {s : State}
    (hbody : ∀ ws, commandBody i ws s = .next s) : FetchesAndSkips i (operandCount i) s := by
  refine ⟨fun h => ?_, exec_operandFetchFaults hset s⟩
  rw [exec_of_operandsInRange hset h, hbody, Nat.mul_comm]
  rfl

/-- Settles O13: the words are encodings, and the work of each of these commands is nothing. -/
theorem decodeOnlyCommandsFetchAndSkip : Obligations.DecodeOnlyCommandsFetchAndSkip := by
  intro c i s
  have hrect : c ≠ 0x41 → c ≠ 0xE2 → (Instr.rectOther c i).wellFormed = true := fun h41 hE2 => by
    simpa [Instr.wellFormed] using And.intro h41 hE2
  have hdraw : c ≠ 0xC1 → c ≠ 0xC2 → c ≠ 0xE1 → (Instr.drawOther c i).wellFormed = true := fun hC1 hC2 hE1 => by
    simpa [Instr.wellFormed, and_assoc] using And.intro hC1 (And.intro hC2 hE1)
  exact ⟨⟨decodeWord_encodeWord (.rectMark i) rfl, exec_fetchesAndSkips (by nofun) fun _ => rfl⟩,
    ⟨fun h41 hE2 => decodeWord_encodeWord (.rectOther c i) (hrect h41 hE2), exec_fetchesAndSkips (by nofun) fun _ => rfl⟩,
    ⟨decodeWord_encodeWord (.viewport c i) rfl, exec_fetchesAndSkips (by nofun) fun _ => rfl⟩,
    ⟨decodeWord_encodeWord (.depthrange c i) rfl, exec_fetchesAndSkips (by nofun) fun _ => rfl⟩,
    ⟨decodeWord_encodeWord (.xyclip c i) rfl, exec_fetchesAndSkips (by nofun) fun _ => rfl⟩,
    ⟨decodeWord_encodeWord (.zclip c i) rfl, exec_fetchesAndSkips (by nofun) fun _ => rfl⟩,
    ⟨fun hC1 hC2 hE1 => decodeWord_encodeWord (.drawOther c i) (hdraw hC1 hC2 hE1), rfl⟩⟩

end Sys2Proof.Machine
end


section
/-! SUPPORT. The pixel loops over a memory as a function from addresses to bytes: when they run through, what they leave
alone and what they leave in the pixels they write (43_pixel_ops R190, R193). -/

namespace Sys2Proof.Machine

/-! ### Pixels in a memory -/

/-- The two pixels at `a` and `b` have no byte in common. -/
def PixelsApart (a b : Nat) : Prop := a + 2 ≤ b ∨ b + 2 ≤ a

theorem PixelsApart.ne {a b : Nat} (h : PixelsApart a b) : a ≠ b := by
  unfold PixelsApart at h
  omega

/-- The bytes of the pixel at an address. -/
def pairAt (m : Nat → Byte) (a : Nat) : Byte × Byte := (m a, m (a + 1))

theorem setPair_outside (m : Nat → Byte) {a x : Nat} (b0 b1 : Byte) (h : x < a ∨ a + 2 ≤ x) :
    setPair m a b0 b1 x = m x := by
  rw [setPair, if_neg (by omega), if_neg (by omega)]

theorem pairAt_setPair_self (m : Nat → Byte) (a : Nat) (b0 b1 : Byte) : pairAt (setPair m a b0 b1) a = (b0, b1) := by
  simp [pairAt, setPair]

theorem pairAt_setPair_apart (m : Nat → Byte) {a x : Nat} (b0 b1 : Byte) (h : PixelsApart x a) :
    pairAt (setPair m a b0 b1) x = pairAt m x := by
  unfold PixelsApart at h
  rw [pairAt, setPair_outside _ _ _ (by omega), setPair_outside _ _ _ (by omega), pairAt]

/-- What a pixel load gives is a function of the two bytes of the pixel. -/
theorem loadValue_eq_joinBytes_pairAt (s : State) (a : Nat) :
    loadValue s a 2 = joinBytes s.cfg.byteOrder [(pairAt (vramByte s) a).1, (pairAt (vramByte s) a).2] := by
  rw [loadValue, vramBytes_eq_map_range]
  rfl

/-- Two pixels of one buffer are the same or have no byte in common: their addresses differ by an even number. -/
theorem pixelAddr_eq_or_apart (base pitch r k r' k' : Nat) :
    pixelAddr base pitch r k = pixelAddr base pitch r' k' ∨
      PixelsApart (pixelAddr base pitch r k) (pixelAddr base pitch r' k') := by
  have heven : ∀ row, row * (pitch * 2) = row * pitch * 2 := fun row => (Nat.mul_assoc row pitch 2).symm
  simp only [PixelsApart, pixelAddr, heven]
  omega

/-! ### Loops over memory -/

section
variable {size : Nat}

theorem fillPixels_of_inRange {b0 b1 : Byte} {ps : List Nat} (hin : ∀ a ∈ ps, a + 2 ≤ size) (m : Nat → Byte) :
    (fillPixels size b0 b1 ps m).2 = none := by
  induction ps generalizing m with
  | nil => rfl
  | cons p ps ih =>
    obtain ⟨hp, hin⟩ := List.forall_mem_cons.mp hin
    rw [fillPixels, if_neg (Nat.not_lt.mpr hp)]
    exact ih hin _

theorem fillPixels_outside {b0 b1 : Byte} {x : Nat} {ps : List Nat} (hout : ∀ a ∈ ps, x < a ∨ a + 2 ≤ x)
    (m : Nat → Byte) : (fillPixels size b0 b1 ps m).1 x = m x := by
  induction ps generalizing m with
  | nil => rfl
  | cons p ps ih =>
    obtain ⟨hp, hout⟩ := List.forall_mem_cons.mp hout
    rw [fillPixels]
    split
    · rfl
    · rw [ih hout, setPair_outside m b0 b1 hp]

/-- A pixel that holds the fill value, or is still to be filled, holds it at the end. -/
theorem pairAt_fillPixels {b0 b1 : Byte} {a : Nat} {ps : List Nat} (hin : ∀ p ∈ ps, p + 2 ≤ size)
    (hps : ∀ p ∈ ps, a = p ∨ PixelsApart a p) (m : Nat → Byte) (h : a ∈ ps ∨ pairAt m a = (b0, b1)) :
    pairAt (fillPixels size b0 b1 ps m).1 a = (b0, b1) := by
  induction ps generalizing m with
  | nil => exact h.resolve_left List.not_mem_nil
  | cons p ps ih =>
    obtain ⟨hp, hin⟩ := List.forall_mem_cons.mp hin
    obtain ⟨hsame, hps⟩ := List.forall_mem_cons.mp hps
    rw [fillPixels, if_neg (Nat.not_lt.mpr hp)]
    refine ih hin hps _ ?_
    obtain rfl | hapart := hsame
    · exact .inr (pairAt_setPair_self m a b0 b1)
    · rw [pairAt_setPair_apart m b0 b1 hapart]
      exact h.imp_left fun ha => (List.mem_cons.mp ha).resolve_left hapart.ne

variable {rk wk : AccessKind}

theorem copyPixels_of_inRange {ps : List (Nat × Nat)} (hin : ∀ p ∈ ps, p.1 + 2 ≤ size ∧ p.2 + 2 ≤ size)
    (m : Nat → Byte) : (copyPixels size rk wk ps m).2 = none := by
  induction ps generalizing m with
  | nil => rfl
  | cons p ps ih =>
    obtain ⟨⟨hsrc, hdst⟩, hin⟩ := List.forall_mem_cons.mp hin
    rw [copyPixels, if_neg (Nat.not_lt.mpr hsrc), if_neg (Nat.not_lt.mpr hdst)]
    exact ih hin _

theorem copyPixels_outside {x : Nat} {ps : List (Nat × Nat)} (hout : ∀ p ∈ ps, x < p.2 ∨ p.2 + 2 ≤ x)
    (m : Nat → Byte) : (copyPixels size rk wk ps m).1 x = m x := by
  induction ps generalizing m with
  | nil => rfl
  | cons p ps ih =>
    obtain ⟨hp, hout⟩ := List.forall_mem_cons.mp hout
    rw [copyPixels]
    split
    · rfl
    · split
      · rfl
      · rw [ih hout, setPair_outside m _ _ hp]

/-- A destination that holds its source, or is still to be copied, holds it at the end, where this source pixel is never
written and no other copy touches this destination. -/
theorem pairAt_copyPixels {src dst : Nat} {ps : List (Nat × Nat)} (hin : ∀ p ∈ ps, p.1 + 2 ≤ size ∧ p.2 + 2 ≤ size)
    (hsrc : ∀ p ∈ ps, PixelsApart src p.2) (hdst : ∀ p ∈ ps, (src, dst) = p ∨ PixelsApart dst p.2) (m : Nat → Byte)
    (h : (src, dst) ∈ ps ∨ pairAt m dst = pairAt m src) :
    pairAt (copyPixels size rk wk ps m).1 dst = pairAt m src := by
  induction ps generalizing m with
  | nil => exact h.resolve_left List.not_mem_nil
  | cons p ps ih =>
    obtain ⟨⟨hp1, hp2⟩, hin⟩ := List.forall_mem_cons.mp hin
    obtain ⟨hkept, hsrc⟩ := List.forall_mem_cons.mp hsrc
    obtain ⟨hsame, hdst⟩ := List.forall_mem_cons.mp hdst
    have hread := pairAt_setPair_apart m (m p.1) (m (p.1 + 1)) hkept
    rw [copyPixels, if_neg (Nat.not_lt.mpr hp1), if_neg (Nat.not_lt.mpr hp2), ← hread]
    refine ih hin hsrc hdst _ ?_
    rw [hread]
    obtain rfl | hapart := hsame
    · exact .inr (pairAt_setPair_self m dst _ _)
    · rw [pairAt_setPair_apart m _ _ hapart]
      exact h.imp_left fun hmem => (List.mem_cons.mp hmem).resolve_left fun he => hapart.ne (congrArg Prod.snd he)

end

end Sys2Proof.Machine
end


section
/-! SUPPORT. The pixel commands: a loop of pixel accesses of the machine is the loop over memory, and what RECT.FILL and
BLTCOPY leave where (43_pixel_ops R190, R193, 42_list_processor R180). -/

namespace Sys2Proof.Machine

/-! ### Loops of the machine -/

/-- `s` with video memory `v`. -/
def withVram (v : Memory) (s : State) : State := { s with vram := v }

/-- How a loop that reached `s` answers: it is through, or it faults on a pixel access. -/
def loopAnswer (s : State) : Option (AccessKind × Nat) → Result
  | none => .next s
  | some (kind, a) => rangeFault s kind a 2

/-- The loop that started in `s` changes video memory alone and ends as `e` says, on an access of a pass if it faults. -/
def LoopEnds (o : Result) (s : State) (e : (Nat → Byte) × Option (AccessKind × Nat)) : Prop :=
  ∃ v, o = loopAnswer (withVram v s) e.2 ∧ Memory.byteAt v = e.1 ∧ ∀ f ∈ e.2, f.1.ofPass = true

theorem loopEnds_rangeFault (s : State) {kind : AccessKind} (hk : kind.ofPass = true) (a : Nat) (k : State → Result) :
    LoopEnds (andThen (rangeFault s kind a 2) k) s (vramByte s, some (kind, a)) := by
  refine ⟨s.vram, andThen_rangeFault s kind a 2 k, rfl, fun f hf => ?_⟩
  obtain rfl := Option.mem_some.mp hf
  exact hk

/-- A loop of pixel stores ends as the loop over memory. -/
theorem forEach_store_loopEnds {b0 b1 : Byte} {v : Nat} (ps : List Nat) (s : State)
    (hv : splitBytes s.cfg.byteOrder 2 v = [b0, b1]) :
    LoopEnds (forEach ps (fun a t => store t .fillWrite a 2 v) s) s
      (fillPixels s.cfg.vramSize b0 b1 ps (vramByte s)) := by
  induction ps generalizing s with
  | nil => exact ⟨s.vram, rfl, rfl, nofun⟩
  | cons a ps ih =>
    rw [forEach, fillPixels]
    split
    · rw [store_of_lt ‹_›]
      exact loopEnds_rangeFault s rfl a _
    · rw [store_of_le (Nat.le_of_not_lt ‹_›), ← vramByte_storeValue_pair s a v b0 b1 hv]
      exact ih (storeValue s a 2 v) hv

/-- A loop of pixel copies ends as the loop over memory. -/
theorem forEach_copyPixel_loopEnds {rk wk : AccessKind} (hr : rk.ofPass = true) (hw : wk.ofPass = true)
    (ps : List (Nat × Nat)) (s : State) :
    LoopEnds (forEach ps (fun p => copyPixel rk wk p.1 p.2) s) s
      (copyPixels s.cfg.vramSize rk wk ps (vramByte s)) := by
  induction ps generalizing s with
  | nil => exact ⟨s.vram, rfl, rfl, nofun⟩
  | cons p ps ih =>
    rw [forEach, copyPixels, copyPixel]
    split
    · rw [withLoad_of_lt _ ‹_›]
      exact loopEnds_rangeFault s hr p.1 _
    · rw [withLoad_of_le _ (Nat.le_of_not_lt ‹_›)]
      split
      · rw [store_of_lt ‹_›]
        exact loopEnds_rangeFault s hw p.2 _
      · rw [store_of_le (Nat.le_of_not_lt ‹_›),
          ← vramByte_storeValue_pair s p.2 _ _ _ (splitBytes_loadValue_pair s p.1)]
        exact ih (storeValue s p.2 2 (loadValue s p.1 2))

/-- A command that is a loop and then its cursor advance ends as the loop does. -/
theorem LoopEnds.advance {o : Result} {s : State} {e : (Nat → Byte) × Option (AccessKind × Nat)} (h : LoopEnds o s e)
    (n : Nat) : PixelLoopEnds (andThen o fun t => .next (advance t n)) s n e := by
  obtain ⟨v, rfl, hv, hk⟩ := h
  match e, hv, hk with
  | (_, none), hv, _ =>
    refine ⟨Machine.advance (withVram v s) n, rfl, ?_, congrFun hv⟩
    rw [Nat.mul_comm]
    rfl
  | (_, some (kind, a)), hv, hk =>
    have hpass : kind.ofPass = true := hk _ rfl
    rw [loopAnswer, andThen_rangeFault, rangeFault_eq]
    refine ⟨faultState (withVram v s) kind a 2, rfl, ?_, congrFun hv⟩
    rw [faultState_eq, if_pos hpass]
    rfl

/-- A pixel loop with no access out of range completes. -/
theorem PixelLoopEnds.next {o : Result} {s : State} {n : Nat} {e : (Nat → Byte) × Option (AccessKind × Nat)}
    (h : PixelLoopEnds o s n e) (he : e.2 = none) :
    ∃ t, o = .next t ∧ t = { s with pc := s.pc + BitVec.ofNat 32 (4 * (1 + n)), vram := t.vram } ∧
      vramByte t = e.1 := by
  obtain ⟨m, f⟩ := e
  obtain rfl : f = none := he
  obtain ⟨t, ho, ht, hm⟩ := h
  exact ⟨t, ho, ht, funext hm⟩

/-! ### RECT.FILL -/

/-- The addresses RECT.FILL writes, in its order (43_pixel_ops R190). -/
def fillAddrs (s : State) (r : Rect) : List Nat :=
  (gridCells r.yStart r.sizeY r.xStart r.sizeX).map fun rc => framePixel s rc.1 rc.2

theorem mem_fillAddrs {s : State} {r : Rect} {a : Nat} : a ∈ fillAddrs s r ↔
    ∃ row col, (r.yStart ≤ row ∧ row < r.sizeY) ∧ (r.xStart ≤ col ∧ col < r.sizeX) ∧ framePixel s row col = a := by
  simp only [fillAddrs, List.mem_map, mem_gridCells, Prod.exists, and_assoc]

theorem fillRect_eq (r : Rect) (s : State) : fillRect r s =
    forEach (fillAddrs s r) (fun a t => store t .fillWrite a 2 s.regs.fgCol.toNat) s := by
  rw [fillAddrs, forEach_map]
  exact forEach_nested _ _ _ _

/-- With operands in range RECT.FILL ends as the loop over its pixels. -/
theorem exec_rectFill_pixelLoopEnds (imm16 : Half) {s : State} {b0 b1 : Byte} (h : OperandsInRange s 2)
    (hb : splitBytes s.cfg.byteOrder 2 s.regs.fgCol.toNat = [b0, b1]) :
    PixelLoopEnds (exec (.rectFill imm16) s) s 2
      (fillPixels s.cfg.vramSize b0 b1 (fillAddrs s (rectOf s.cfg (operandWords s 2))) (vramByte s)) := by
  rw [exec_of_operandsInRange (i := .rectFill imm16) nofun h, commandBody, fillRect_eq]
  exact (forEach_store_loopEnds _ s hb).advance 2

/-- Settles O15: the nested loops of stores are one loop over the addresses of the rectangle. -/
theorem fillIsThePixelLoop : Obligations.FillIsThePixelLoop := by
  intro imm16 s
  refine ⟨exec_operandFetchFaults (i := .rectFill imm16) nofun s, ?_⟩
  rintro r b0 b1 h rfl hb
  exact exec_rectFill_pixelLoopEnds imm16 h hb

/-- Settles O14: the pixel loop with no access out of range, in which a pixel once filled can only be filled again. -/
theorem fillWritesExactlyItsRectangle : Obligations.FillWritesExactlyItsRectangle := by
  rintro imm16 s r h rfl hpixels
  obtain ⟨b0, b1, hb⟩ := List.length_eq_two.mp (length_splitBytes s.cfg.byteOrder 2 s.regs.fgCol.toNat)
  have hin : ∀ a ∈ fillAddrs s (rectOf s.cfg (operandWords s 2)), a + 2 ≤ s.cfg.vramSize := by
    intro a ha
    obtain ⟨row, col, hrow, hcol, rfl⟩ := mem_fillAddrs.mp ha
    exact hpixels row col hrow.1 hrow.2 hcol.1 hcol.2
  obtain ⟨t, hexec, ht, hmem⟩ := (exec_rectFill_pixelLoopEnds imm16 h hb).next (fillPixels_of_inRange hin _)
  refine ⟨t, hexec, ht, fun row col hy hy' hx hx' => ?_, fun a hout => ?_⟩
  · have hfilled : pairAt (vramByte t) (framePixel s row col) = (b0, b1) := by
      rw [hmem]
      refine pairAt_fillPixels hin (fun p hp => ?_) _ (.inl (mem_fillAddrs.mpr ⟨row, col, ⟨hy, hy'⟩, ⟨hx, hx'⟩, rfl⟩))
      obtain ⟨row', col', _, _, rfl⟩ := mem_fillAddrs.mp hp
      exact pixelAddr_eq_or_apart _ _ _ _ _ _
    have hcfg : t.cfg = s.cfg := by rw [ht]
    calc loadValue t (framePixel s row col) 2
        = joinBytes s.cfg.byteOrder [b0, b1] := by rw [loadValue_eq_joinBytes_pairAt, hfilled, hcfg]
      _ = s.regs.fgCol.toNat := by rw [← hb, joinBytes_splitBytes _ 2 _ s.regs.fgCol.isLt]
  · rw [hmem]
    refine fillPixels_outside (fun p hp => ?_) _
    obtain ⟨row, col, hrow, hcol, rfl⟩ := mem_fillAddrs.mp hp
    exact hout row col hrow.1 hrow.2 hcol.1 hcol.2

/-! ### BLTCOPY -/

/-- The source and destination addresses BLTCOPY copies, in its order (43_pixel_ops R193). -/
def Blit.pixels (b : Blit) : List (Nat × Nat) :=
  (gridCells 0 b.sizeY 0 b.sizeX).map fun rc => (b.srcPixel rc.1 rc.2, b.dstPixel rc.1 rc.2)

theorem Blit.mem_pixels {b : Blit} {p : Nat × Nat} :
    p ∈ b.pixels ↔ ∃ r k, r < b.sizeY ∧ k < b.sizeX ∧ (b.srcPixel r k, b.dstPixel r k) = p := by
  simp only [Blit.pixels, List.mem_map, mem_gridCells, Prod.exists, Nat.zero_le, true_and, and_assoc]

theorem blitBlock_eq (b : Blit) (s : State) :
    blitBlock b s = forEach b.pixels (fun p => copyPixel .bltRead .bltWrite p.1 p.2) s := by
  rw [Blit.pixels, forEach_map]
  exact forEach_nested _ _ _ _

/-- With operands in range BLTCOPY ends as the loop over its pixels. -/
theorem exec_bltcopy_pixelLoopEnds (c : Byte) (imm16 : Half) {s : State} (h : OperandsInRange s 7) :
    PixelLoopEnds (exec (.bltcopy c imm16) s) s 7
      (copyPixels s.cfg.vramSize .bltRead .bltWrite (blitOf s.cfg (operandWords s 7)).pixels (vramByte s)) := by
  rw [exec_of_operandsInRange (i := .bltcopy c imm16) nofun h, commandBody, blitBlock_eq]
  exact (forEach_copyPixel_loopEnds rfl rfl _ s).advance 7

/-- Settles O16: the nested loops of copies are one loop over the pairs of addresses of the block. -/
theorem blitIsThePixelLoop : Obligations.BlitIsThePixelLoop := by
  intro c imm16 s
  refine ⟨exec_operandFetchFaults (i := .bltcopy c imm16) nofun s, ?_⟩
  rintro b h rfl
  have hloop := exec_bltcopy_pixelLoopEnds c imm16 h
  simp only [Blit.pixels, Blit.srcPixel, Blit.dstPixel, pixelAddr, ← Nat.mul_assoc] at hloop
  exact hloop

/-- Settles O17: the pixel loop with no access out of range, in which apart blocks leave every source as it was and
distinct destinations are written by one copy each. -/
theorem blitCopiesTheBlock : Obligations.BlitCopiesTheBlock := by
  intro c imm16 s b h hb hpixels
  have hin : ∀ p ∈ b.pixels, p.1 + 2 ≤ s.cfg.vramSize ∧ p.2 + 2 ≤ s.cfg.vramSize := by
    intro p hp
    obtain ⟨r, k, hr, hk, rfl⟩ := Blit.mem_pixels.mp hp
    exact hpixels r k hr hk
  have hloop := exec_bltcopy_pixelLoopEnds c imm16 h
  rw [← hb] at hloop
  obtain ⟨t, hexec, ht, hmem⟩ := hloop.next (copyPixels_of_inRange hin _)
  refine ⟨t, hexec, ht, fun a hout => ?_, fun hapart hdistinct r k hr hk => ?_⟩
  · rw [hmem]
    refine copyPixels_outside (fun p hp => ?_) _
    obtain ⟨r, k, hr, hk, rfl⟩ := Blit.mem_pixels.mp hp
    exact hout r k hr hk
  · have hcopied : pairAt (vramByte t) (b.dstPixel r k) = pairAt (vramByte s) (b.srcPixel r k) := by
      rw [hmem]
      refine pairAt_copyPixels hin (fun p hp => ?_) (fun p hp => ?_) _ (.inl (Blit.mem_pixels.mpr ⟨r, k, hr, hk, rfl⟩))
      · obtain ⟨r', k', hr', hk', rfl⟩ := Blit.mem_pixels.mp hp
        exact hapart r k r' k' hr hk hr' hk'
      · obtain ⟨r', k', hr', hk', rfl⟩ := Blit.mem_pixels.mp hp
        refine (pixelAddr_eq_or_apart _ _ _ _ _ _).imp_left fun heq => ?_
        obtain ⟨rfl, rfl⟩ := hdistinct r k r' k' hr hk hr' hk' heq
        rfl
    have hcfg : t.cfg = s.cfg := by rw [ht]
    rw [loadValue_eq_joinBytes_pairAt, loadValue_eq_joinBytes_pairAt, hcopied, hcfg]

end Sys2Proof.Machine
end


section
/-! SUPPORT. Commands of one word whose work is nothing (44_noop_geometry_ops R210, R211, R216, 45_control_ops R231,
R232). -/

namespace Sys2Proof.Machine

/-- A command with no operand words and no work only advances, by its own word. -/
theorem exec_of_oneWord {i : Instr} (hset : ∀ c imm16, i ≠ .setreg c imm16) (hcount : operandCount i = 0) {s : State}
    (hbody : ∀ ws, commandBody i ws s = .next s) : exec i s = .next { s with pc := s.pc + 4 } := by
  have hin : OperandsInRange s (operandCount i) := fun k h1 hk => by omega
  rw [exec_of_operandsInRange hset hin, hbody, hcount]
  rfl

/-- Settles O12: the words are encodings, and the work of each of these commands is nothing. -/
theorem oneWordCommandsDoNothing : Obligations.OneWordCommandsDoNothing := by
  intro t c i s
  have hunknown : t ∉ knownTypes → (Instr.unknown t c i).wellFormed = true := fun ht => by
    simp [Instr.wellFormed, ht]
  exact ⟨⟨decodeWord_encodeWord (.nop c i) rfl, rfl, exec_of_oneWord (by nofun) rfl fun _ => rfl⟩,
    ⟨decodeWord_encodeWord (.init c i) rfl, rfl, exec_of_oneWord (by nofun) rfl fun _ => rfl⟩,
    ⟨decodeWord_encodeWord (.drawC2 i) rfl, rfl, exec_of_oneWord (by nofun) rfl fun _ => rfl⟩,
    ⟨decodeWord_encodeWord (.drawE1 i) rfl, rfl, exec_of_oneWord (by nofun) rfl fun _ => rfl⟩,
    ⟨fun ht => decodeWord_encodeWord (.unknown t c i) (hunknown ht), rfl, exec_of_oneWord (by nofun) rfl fun _ => rfl⟩⟩

end Sys2Proof.Machine
end

section
/-! SUPPORT. SETREG without inner passes and INTERRUPT (45_control_ops R234, R235): the values from an index on are container
writes up to the end, where the cursor advances, or up to the first fetch out of range. -/

namespace Sys2Proof.Machine

/-! ### Container writes of values that start no pass -/

/-- Value word `i` of the SETREG at the cursor of `s`. -/
def setregValue (s : State) (i : Nat) : Word := wordAt s (s.pc.toNat + 4 + 4 * i)

/-- Value word `i` of the SETREG at the cursor of `s` starts no pass in its container. -/
def QuietValue (imm16 : Half) (s : State) (i : Nat) : Prop :=
  StartsNothing s.cfg.slots (imm16.toNat * 4 + 4 * i) (setregValue s i) (BitVec.allOnes 32)

/-- Value word `i` of the SETREG at the cursor of `s` lies inside video memory and starts no pass. -/
def PlainValue (imm16 : Half) (s : State) (i : Nat) : Prop :=
  s.pc.toNat + 4 + 4 * i + 4 ≤ s.cfg.vramSize ∧ QuietValue imm16 s i

/-- What no field write changes is not changed by SETREG values that start no pass. -/
theorem setregWrites_frame {imm16 : Half} {s : State} {l : List Nat} (hquiet : ∀ i ∈ l, QuietValue imm16 s i) {α : Type}
    (g : State → α) (hg : ∀ w t, g (fieldWrite w t) = g t) : g (setregWrites imm16 (setregValue s) l s) = g s :=
  (setregWrites_keeps (c := s.cfg) (P := fun t => t.cfg = s.cfg ∧ g t = g s) (fun _ h => h.1)
    (fun w t h => ⟨(fieldWrite_cfg w t).trans h.1, (hg w t).trans h.2⟩) imm16 _ l s hquiet ⟨rfl, rfl⟩).2

/-- A field that is not mapped at the offset of a container write stays. -/
theorem regWrite_get_unmapped {s : State} {off : Nat} {data mask : Word} (h : StartsNothing s.cfg.slots off data mask)
    {f : Field} (hf : ∀ e ∈ s.cfg.slots, e.field = f → e.off ≠ off) :
    (regWrite off data mask s).regs.get f = s.regs.get f := by
  rw [regWrite_quiet h, registerWrites_eq]
  refine foldl_fieldWrite_other f _ s fun w hw hwf => ?_
  obtain ⟨e, he, hoff, hfield⟩ := mem_containerWrites hw
  exact hf e he (hfield.trans hwf) hoff

/-- A field that is mapped at no offset the values are written to stays. -/
theorem setregWrites_get_unmapped {imm16 : Half} {value : Nat → Word} {f : Field} : ∀ {l : List Nat} {t : State},
    (∀ i ∈ l, StartsNothing t.cfg.slots (imm16.toNat * 4 + 4 * i) (value i) (BitVec.allOnes 32)) →
    (∀ e ∈ t.cfg.slots, e.field = f → ∀ i ∈ l, e.off ≠ imm16.toNat * 4 + 4 * i) →
    (setregWrites imm16 value l t).regs.get f = t.regs.get f
  | [], _, _, _ => rfl
  | i :: l, t, hquiet, hf => by
    have hi := hquiet i List.mem_cons_self
    have hcfg := regWrite_frame hi State.cfg fieldWrite_cfg
    refine (setregWrites_get_unmapped (l := l) ?_ ?_).trans
      (regWrite_get_unmapped hi fun e he hfield => hf e he hfield i List.mem_cons_self)
    · rw [hcfg]
      exact fun j hj => hquiet j (List.mem_cons_of_mem _ hj)
    · rw [hcfg]
      exact fun e he hfield j hj => hf e he hfield j (List.mem_cons_of_mem _ hj)

/-! ### The values from an index on -/

/-- A whole SETREG is the rest of one that has fetched no value. -/
theorem exec_setreg (c : Byte) (imm16 : Half) (s : State) :
    exec (.setreg c imm16) s = resumeSetreg ⟨imm16, c.toNat, 0⟩ s := rfl

theorem interval_zero (n : Nat) : interval 0 n = List.range n := List.range_eq_range'.symm

theorem interval_append {a j n : Nat} (ha : a ≤ j) (hj : j < n) :
    interval a n = interval a j ++ j :: interval (j + 1) n := by
  have happ := List.range'_append_1 (s := a) (m := j - a) (n := n - j)
  rw [Nat.add_sub_cancel' ha, Nat.add_comm, Nat.sub_add_sub_cancel (Nat.le_of_lt hj) ha] at happ
  rw [← interval_cons hj]
  exact happ.symm

/-- Values that are plain are written in order, and then the cursor advances or the step is refused. -/
theorem resumeSetreg_of_plain {r : SetregRest} {s : State} (h : ∀ i, r.next ≤ i → i < r.n → PlainValue r.imm16 s i) :
    resumeSetreg r s = advanceBelowWrap (setregWrites r.imm16 (setregValue s) (interval r.next r.n) s) r.n := by
  obtain ⟨hrun, -⟩ := setregValues_quiet r.imm16 r.n s [] (interval r.next r.n) s ⟨rfl, rfl, rfl⟩
    fun i hi => h i (mem_interval.mp hi).1 (mem_interval.mp hi).2
  rwa [List.append_nil] at hrun

theorem advanceBelowWrap_of_lt {s : State} {n : Nat} (h : s.pc.toNat + 4 * (1 + n) < 2 ^ 32) :
    advanceBelowWrap s n = .next { s with pc := s.pc + BitVec.ofNat 32 (4 * (1 + n)) } := by
  rw [Nat.mul_comm] at h ⊢
  exact if_pos h

theorem advanceBelowWrap_of_le {s : State} {n : Nat} (h : 2 ^ 32 ≤ s.pc.toNat + 4 * (1 + n)) :
    advanceBelowWrap s n = .refused .cursorWraps := by
  rw [Nat.mul_comm] at h
  exact if_neg (Nat.not_lt.mpr h)

/-- Where the values that are left are plain, a SETREG completes after their writes, or is refused. -/
theorem resumeSetreg_ends {r : SetregRest} {s t : State} (h : ∀ i, r.next ≤ i → i < r.n → PlainValue r.imm16 s i)
    (ht : t = setregWrites r.imm16 (setregValue s) (interval r.next r.n) s) :
    (s.pc.toNat + 4 * (1 + r.n) < 2 ^ 32 →
      resumeSetreg r s = .next { t with pc := s.pc + BitVec.ofNat 32 (4 * (1 + r.n)) }) ∧
    (2 ^ 32 ≤ s.pc.toNat + 4 * (1 + r.n) → resumeSetreg r s = .refused .cursorWraps) := by
  have hpc : t.pc = s.pc := ht ▸ setregWrites_frame
    (fun i hi => (h i (mem_interval.mp hi).1 (mem_interval.mp hi).2).2) State.pc fieldWrite_pc
  rw [resumeSetreg_of_plain h, ← ht, ← hpc]
  exact ⟨advanceBelowWrap_of_lt, advanceBelowWrap_of_le⟩

/-- The first value out of range stops a SETREG, after the writes of the plain values before it. -/
theorem resumeSetreg_faults {r : SetregRest} {s : State} {j : Nat} (hnext : r.next ≤ j) (hj : j < r.n)
    (h : ∀ i, r.next ≤ i → i < j → PlainValue r.imm16 s i) (hout : s.cfg.vramSize < s.pc.toNat + 4 + 4 * j + 4) :
    resumeSetreg r s = rangeFault (setregWrites r.imm16 (setregValue s) (interval r.next j) s) .operandFetch
      (s.pc.toNat + 4 + 4 * j) 4 := by
  obtain ⟨hrun, hfetch⟩ := setregValues_quiet r.imm16 r.n s (j :: interval (j + 1) r.n) (interval r.next j) s
    ⟨rfl, rfl, rfl⟩ fun i hi => h i (mem_interval.mp hi).1 (mem_interval.mp hi).2
  rw [resumeSetreg, interval_append hnext hj, hrun, setregValues,
    withLoad_of_lt _ (by rw [hfetch.pc, hfetch.cfg]; exact hout), hfetch.pc]
  rfl

/-- Settles O21: a SETREG is the rest of one from its first value on, whose values are container writes up to the advance;
what no field write changes, and the fields mapped nowhere they write, stay. -/
theorem setregWritesItsValuesInOrder : Obligations.SetregWritesItsValuesInOrder := by
  refine ⟨exec_setreg, fun c imm16 s t h ht => ?_, fun r s t h ht => resumeSetreg_ends h ht⟩
  have hquiet : ∀ i ∈ List.range c.toNat, QuietValue imm16 s i := fun i hi => (h i (List.mem_range.mp hi)).2
  obtain ⟨hnext, hwrap⟩ := resumeSetreg_ends (r := ⟨imm16, c.toNat, 0⟩) (s := s) (t := t) (fun i _ hi => h i hi)
    (by rwa [interval_zero])
  subst ht
  exact ⟨hnext, hwrap, setregWrites_frame hquiet State.vram fieldWrite_vram,
    setregWrites_frame hquiet State.passes fieldWrite_passes, setregWrites_frame hquiet State.depth fieldWrite_depth,
    setregWrites_frame hquiet State.faulted fieldWrite_faulted, setregWrites_frame hquiet State.cfg fieldWrite_cfg,
    setregWrites_frame hquiet State.inputs fieldWrite_inputs, setregWrites_frame hquiet State.replies fieldWrite_replies,
    setregWrites_frame hquiet State.draws fieldWrite_draws,
    fun f hf => setregWrites_get_unmapped hquiet fun e he hfield i hi => hf e he hfield i (List.mem_range.mp hi)⟩

/-- Settles O22: the values before the first one out of range are container writes, and its fetch is the fault. -/
theorem setregStopsAtAValueOutOfRange : Obligations.SetregStopsAtAValueOutOfRange := by
  refine ⟨fun c imm16 s j hj h hout => ?_, fun r s j hnext hj h hout => resumeSetreg_faults hnext hj h hout⟩
  rw [exec_setreg, ← interval_zero]
  exact resumeSetreg_faults (Nat.zero_le j) hj (fun i _ hi => h i hi) hout

/-! ### INTERRUPT -/

/-- The level a raised status bit sends is that of the new status under the mask. -/
theorem raiseStatus_eq {s : State} {bit : Fin 32} {stat : Word} (h : stat = s.regs.irqStat ||| BitVec.twoPow 32 bit) :
    raiseStatus s bit = { s with
      regs := { s.regs with irqStat := stat }, irqLevel := stat &&& s.regs.irqMask != 0,
      trace := s.trace ++ [.irqOut (stat &&& s.regs.irqMask != 0)] } := by
  subst h
  rfl

/-- Settles O24: the word is an encoding, and the command raises its status bit and advances by its own word. -/
theorem interruptRaisesCommandListEnd : Obligations.InterruptRaisesCommandListEnd := by
  intro c i s stat hstat
  refine ⟨decodeWord_encodeWord (.interrupt c i) rfl, rfl, ?_⟩
  show Host.Outcome.next (advance (raiseStatus s s.cfg.istCendBit) 0) = _
  rw [raiseStatus_eq hstat]
  rfl

end Sys2Proof.Machine
end

section
/-! SUPPORT. DRAW.COMMIT (46_compositor_scanout R250, R251): its nested loops of copies are one loop over pairs of
addresses, and what such a loop leaves where. -/

namespace Sys2Proof.Machine

/-! ### Copies in range -/

/-- A loop of copies with no access out of range completes and changes no byte outside its destinations; a destination
that no other copy touches ends as its source was, if no copy touches this source. -/
theorem PixelLoopEnds.copies {o : Result} {s : State} {n : Nat} {rk wk : AccessKind} {ps : List (Nat × Nat)}
    (h : PixelLoopEnds o s n (copyPixels s.cfg.vramSize rk wk ps (vramByte s)))
    (hin : ∀ p ∈ ps, p.1 + 2 ≤ s.cfg.vramSize ∧ p.2 + 2 ≤ s.cfg.vramSize) :
    ∃ t, o = .next t ∧ t = { s with pc := s.pc + BitVec.ofNat 32 (4 * (1 + n)), vram := t.vram } ∧
      (∀ a, (∀ p ∈ ps, a < p.2 ∨ p.2 + 2 ≤ a) → vramByte t a = vramByte s a) ∧
      ∀ q ∈ ps, (∀ p ∈ ps, PixelsApart q.1 p.2) → (∀ p ∈ ps, q = p ∨ PixelsApart q.2 p.2) →
        loadValue t q.2 2 = loadValue s q.1 2 := by
  obtain ⟨t, ho, ht, hmem⟩ := h.next (copyPixels_of_inRange hin _)
  refine ⟨t, ho, ht, fun a hout => ?_, fun q hq hsrc hdst => ?_⟩
  · rw [hmem, copyPixels_outside hout]
  · have hcopied : pairAt (vramByte t) q.2 = pairAt (vramByte s) q.1 := by
      rw [hmem, pairAt_copyPixels hin hsrc hdst _ (.inl hq)]
    have hcfg : t.cfg = s.cfg := by rw [ht]
    rw [loadValue_eq_joinBytes_pairAt, loadValue_eq_joinBytes_pairAt, hcopied, hcfg]

/-! ### DRAW.COMMIT -/

/-- The console-layer and frame-buffer addresses DRAW.COMMIT copies, in its order (46_compositor_scanout R250). -/
def commitPixels (s : State) : List (Nat × Nat) :=
  (gridCells 0 (s.regs.vDisp.toNat + 1) 0 (s.regs.hDisp.toNat + 1)).map fun rc =>
    (consolePixel s rc.1 rc.2, framePixel s rc.1 rc.2)

theorem mem_commitPixels {s : State} {p : Nat × Nat} : p ∈ commitPixels s ↔
    ∃ r k, r ≤ s.regs.vDisp.toNat ∧ k ≤ s.regs.hDisp.toNat ∧ (consolePixel s r k, framePixel s r k) = p := by
  simp only [commitPixels, List.mem_map, mem_gridCells, Prod.exists, Nat.zero_le, true_and, Nat.lt_succ_iff, and_assoc]

theorem commit_eq (s : State) :
    commit s = forEach (commitPixels s) (fun p => copyPixel .commitRead .commitWrite p.1 p.2) s := by
  rw [commitPixels, forEach_map]
  exact forEach_nested _ _ _ _

/-- In every state DRAW.COMMIT ends as the loop over its pixels. -/
theorem exec_drawCommit_pixelLoopEnds (imm16 : Half) (s : State) :
    PixelLoopEnds (exec (.drawCommit imm16) s) s 0
      (copyPixels s.cfg.vramSize .commitRead .commitWrite (commitPixels s) (vramByte s)) := by
  rw [exec, execDrawCommit, commit_eq]
  exact (forEach_copyPixel_loopEnds rfl rfl _ s).advance 0

/-- Settles O18: the nested loops of copies are one loop over the pairs of addresses of the two buffers. -/
theorem commitIsThePixelLoop : Obligations.CommitIsThePixelLoop := by
  intro imm16 s
  have hloop := exec_drawCommit_pixelLoopEnds imm16 s
  simp only [commitPixels, consolePixel, framePixel, pixelAddr, ← Nat.mul_assoc] at hloop
  exact hloop

/-- Settles O19: the pixel loop with no access out of range, in which buffers apart leave every source as it was and
distinct frame-buffer pixels are written by one copy each. -/
theorem commitCopiesTheConsoleLayer : Obligations.CommitCopiesTheConsoleLayer := by
  intro imm16 s hpixels
  have hin : ∀ p ∈ commitPixels s, p.1 + 2 ≤ s.cfg.vramSize ∧ p.2 + 2 ≤ s.cfg.vramSize := by
    intro p hp
    obtain ⟨r, k, hr, hk, rfl⟩ := mem_commitPixels.mp hp
    exact hpixels r k hr hk
  obtain ⟨t, hexec, ht, houtside, hcopied⟩ := (exec_drawCommit_pixelLoopEnds imm16 s).copies hin
  refine ⟨t, hexec, ht, fun a hout => houtside a fun p hp => ?_, fun hapart hdistinct r k hr hk =>
    hcopied _ (mem_commitPixels.mpr ⟨r, k, hr, hk, rfl⟩) (fun p hp => ?_) fun p hp => ?_⟩
  · obtain ⟨r, k, hr, hk, rfl⟩ := mem_commitPixels.mp hp
    exact hout r k hr hk
  · obtain ⟨r', k', hr', hk', rfl⟩ := mem_commitPixels.mp hp
    exact hapart r k r' k' hr hk hr' hk'
  · obtain ⟨r', k', hr', hk', rfl⟩ := mem_commitPixels.mp hp
    refine (pixelAddr_eq_or_apart _ _ _ _ _ _).imp_left fun heq => ?_
    obtain ⟨rfl, rfl⟩ := hdistinct r k r' k' hr hk hr' hk' heq
    rfl

end Sys2Proof.Machine
end

section
/-! SUPPORT. Scanout and the displayed frame (46_compositor_scanout R252, R254): black while disabled, else a read of every
pixel of the region up to the first one out of range. -/

namespace Sys2Proof.Machine

/-! ### The display's enable bits -/

theorem one_bit_ne_zero : ∀ x : BitVec 1, (x != 0) = x.getLsbD 0 := by decide

theorem displayEnabled_eq (s : State) :
    displayEnabled s = (s.regs.dispEn.getLsbD 15 && decide (s.regs.dispEn.toNat % 16 ≠ 0)) := by
  have hmaster : (s.regs.dispEn.extractLsb' 15 1).getLsbD 0 = s.regs.dispEn.getLsbD 15 := by simp
  have hlayer : (s.regs.dispEn.extractLsb' 0 4 != 0) = decide (s.regs.dispEn.toNat % 16 ≠ 0) := by
    rw [Bool.eq_iff_iff]
    simp [← BitVec.toNat_inj]
  rw [displayEnabled, one_bit_ne_zero, hmaster, hlayer]

/-! ### Scanout -/

theorem scanout_of_disabled {s : State} (h : displayEnabled s = false) (region : List (Nat × Nat)) :
    scanout s region = .ok (region.map fun _ => black) := by
  induction region with
  | nil => rfl
  | cons c region ih => simp [scanout, h, ih]

/-- The colour shown for a pixel that is read. -/
def scanColor (s : State) (c : Nat × Nat) : Color :=
  convertPixel s.cfg.pixelFormat (loadValue s (framePixel s c.2 c.1) 2)

theorem scanout_cons_of_le {s : State} (h : displayEnabled s = true) {c : Nat × Nat}
    (hin : framePixel s c.2 c.1 + 2 ≤ s.cfg.vramSize) (region : List (Nat × Nat)) :
    scanout s (c :: region) = (scanout s region).map (scanColor s c :: ·) := by
  simp only [scanout, h, if_true, if_pos (inRange_iff.mpr hin)]
  cases scanout s region <;> rfl

theorem scanout_cons_of_lt {s : State} (h : displayEnabled s = true) {c : Nat × Nat}
    (hout : s.cfg.vramSize < framePixel s c.2 c.1 + 2) (region : List (Nat × Nat)) :
    scanout s (c :: region) = .error (framePixel s c.2 c.1) := by
  simp only [scanout, h, if_true, if_neg (mt inRange_iff.mp (Nat.not_le_of_lt hout))]

theorem scanout_of_le {s : State} (h : displayEnabled s = true) {region : List (Nat × Nat)}
    (hin : ∀ c ∈ region, framePixel s c.2 c.1 + 2 ≤ s.cfg.vramSize) :
    scanout s region = .ok (region.map (scanColor s)) := by
  induction region with
  | nil => rfl
  | cons c region ih =>
    obtain ⟨hc, hin⟩ := List.forall_mem_cons.mp hin
    rw [scanout_cons_of_le h hc, ih hin]
    rfl

/-- A pixel out of range stops the scan, at this pixel or at one before it. -/
theorem scanout_of_lt {s : State} (h : displayEnabled s = true) {region : List (Nat × Nat)}
    (hout : ∃ c ∈ region, s.cfg.vramSize < framePixel s c.2 c.1 + 2) :
    ∃ c ∈ region, s.cfg.vramSize < framePixel s c.2 c.1 + 2 ∧ scanout s region = .error (framePixel s c.2 c.1) := by
  induction region with
  | nil => simp at hout
  | cons c region ih =>
    by_cases hc : s.cfg.vramSize < framePixel s c.2 c.1 + 2
    · exact ⟨c, List.mem_cons_self, hc, scanout_cons_of_lt h hc region⟩
    · obtain ⟨d, hd, hlt, herr⟩ := ih (by simpa [hc] using hout)
      refine ⟨d, List.mem_cons_of_mem c hd, hlt, ?_⟩
      rw [scanout_cons_of_le h (Nat.le_of_not_lt hc), herr]
      rfl

theorem hostStep_scanout_of_ok {s : State} {region : List (Nat × Nat)} {cs : List Color}
    (h : scanout s region = .ok cs) : hostStep (.scanout region) s = .next (reply s (.colors cs)) := by
  rw [hostStep, hostScanout, h]

theorem hostStep_scanout_of_error {s : State} {region : List (Nat × Nat)} {a : Nat}
    (h : scanout s region = .error a) : hostStep (.scanout region) s = rangeFault s .scanoutRead a 2 := by
  rw [hostStep, hostScanout, h]

/-- Settles O44: the move served scans the state it is taken off; the scan answers every colour, or the address of a pixel
out of range, which is the range fault. -/
theorem scanoutReadsTheFrameBuffer : Obligations.ScanoutReadsTheFrameBuffer := by
  rintro s rest region enabled hp hi rfl
  rw [← displayEnabled_eq, step_of_idle hp hi]
  simp only [Nat.mul_assoc]
  refine ⟨fun hoff => ?_, fun hon hin => ?_, fun hon hout => ?_⟩
  · exact hostStep_scanout_of_ok (scanout_of_disabled (s := { s with inputs := rest }) hoff region)
  · exact hostStep_scanout_of_ok (scanout_of_le (s := { s with inputs := rest }) hon hin)
  · obtain ⟨c, hc, hlt, herr⟩ := scanout_of_lt (s := { s with inputs := rest }) hon hout
    refine ⟨c, hc, hlt, _, rfl, ?_⟩
    rw [hostStep_scanout_of_error herr, rangeFault_eq, faultState_of_idle (s := { s with inputs := rest }) hp rfl]
    rfl

/-! ### The displayed frame -/

theorem mem_visibleArea {g : Geometry} {x y : Nat} : (x, y) ∈ visibleArea g ↔ x < g.visW ∧ y < g.visH := by
  simp [visibleArea, mem_interval, and_comm]

/-- Settles O45: the displayed colours are decided by `crtc_valid` alone. -/
theorem displayedFrameIsBlankWithoutTiming : Obligations.DisplayedFrameIsBlankWithoutTiming := by
  intro s region
  refine ⟨fun hinvalid => ?_, fun hvalid g hg => ⟨?_, fun x y => mem_visibleArea⟩⟩
  · simp [displayed, hinvalid]
  · simp [displayedFrame, displayed, hg, hvalid]

end Sys2Proof.Machine
end

section
/-! SUPPORT. Where a step stops and where a status bit comes from (60_exceptions R270 to R272, R275): the range fault with the
state it leaves, and the two events that raise a bit of `IRQ_STAT`. -/

namespace Sys2Proof.Machine

/-! ### Stops -/

/-- A fault raised in a state with the history of `s` is beyond `VRAM_SIZE`, marks what it leaves, and keeps that history. -/
theorem FaultFrom.of_sameHistory {K : AccessKind → Prop} {s after : State} {r : FaultRecord}
    (h : FaultFrom K (SameHistory s) r after) : s.cfg.vramSize < r.addr + r.n ∧ after.faulted = some r ∧
      after.pc = r.pc ∧ after.passes = [] ∧ after.cfg = s.cfg ∧ s.trace <+: after.trace := by
  obtain ⟨u, kind, a, n, _, hu, hout, rfl, rfl⟩ := h
  have hbeyond : u.cfg.vramSize < a + n := Nat.lt_of_not_le (of_decide_eq_false hout)
  exact ⟨hu.cfg ▸ hbeyond, rfl, rfl, rfl, hu.cfg, hu.trace⟩

/-- A fault of a running pass is of an access that a pass makes, and leaves the waiting moves and a request flag of 1
(42_list_processor R180). -/
theorem pass_fault_keeps_inputs {s after : State} {r : FaultRecord} (hne : s.passes ≠ [])
    (h : step s = .fault (.vramRange r after)) :
    r.kind.ofPass = true ∧ after.inputs = s.inputs ∧ after.regs.dlReq = 1 := by
  obtain ⟨p, rest, hp⟩ := List.exists_cons_of_ne_nil hne
  have hturn : Answers (step s) (fun t => t.inputs = s.inputs) (PassFault fun t => t.inputs = s.inputs) True :=
    running_answers hp (fun _ _ _ _ h => h) (fun w u h => (fieldWrite_inputs w u).trans h) (fun _ h => h)
      (fun _ _ _ h _ => h) (fun _ _ h => h) (fun _ _ _ _ => trivial) (fun _ h => h) (fun _ => rfl) (fun _ => rfl)
  obtain ⟨u, kind, a, n, hkind, hinputs, _, rfl, rfl⟩ := hturn.fault h
  refine ⟨hkind, hinputs, ?_⟩
  rw [faultState_regs, if_pos hkind]
  rfl

/-- Settles O8: every update keeps the history up to the access that faults, and in a pass the waiting moves too. -/
theorem everyStopIsARangeFault : Obligations.EveryStopIsARangeFault := by
  intro s
  have hstep := (sameHistory_keeps s).step ⟨rfl, rfl, List.prefix_rfl⟩
  refine ⟨fun r => hstep.refused, fun r after hfault => ?_⟩
  obtain ⟨hbeyond, hmark, hpc, hpasses, hcfg, htrace⟩ := (hstep.fault hfault).of_sameHistory
  exact ⟨hbeyond, hmark, hpc, hpasses, hcfg, htrace, fun hne => pass_fault_keeps_inputs hne hfault⟩

/-! ### Sources of the status bits -/

/-- Raising one status bit makes no other bit 1. -/
theorem eq_of_raiseStatus_sets {s : State} {bit : Fin 32} {k : Nat} (hclear : s.regs.irqStat.getLsbD k = false)
    (hset : (raiseStatus s bit).regs.irqStat.getLsbD k = true) : k = bit := by
  have hor : (s.regs.irqStat ||| BitVec.twoPow 32 bit).getLsbD k = true := hset
  rw [BitVec.getLsbD_or, hclear, Bool.false_or, BitVec.getLsbD_twoPow] at hor
  simp only [Bool.and_eq_true, decide_eq_true_eq] at hor
  exact hor.2.symm

theorem forEach_forEach_answers {α β : Type} {W : Prop} {P : State → Prop} {F} {xs : List α} {ys : List β}
    {f : α → β → State → Result} (hf : ∀ x y s, P s → Answers (f x y s) P F W) {s : State} (h : P s) :
    Answers (forEach xs (fun x => forEach ys (f x)) s) P F W :=
  forEach_answers (fun x _ _ ht => forEach_answers (fun y _ u => hf x y u) ht) h

/-- The work of a command other than INTERRUPT is stores of pixels or nothing. -/
theorem commandBody_answers_of_not_interrupt {W : Prop} {P : State → Prop} {i : Instr}
    (hint : ∀ c imm16, i ≠ .interrupt c imm16) (ws : List Word) {s : State}
    (hs : ∀ s a v, inRange s a 2 = true → P s → P (storeValue s a 2 v)) (h : P s) :
    Answers (commandBody i ws s) P (PassFault P) W := by
  cases i with
  | rectFill imm16 =>
    exact forEach_forEach_answers (fun _ _ _ hu => store_answers (K := PassKind) rfl hu fun hr => hs _ _ _ hr hu) h
  | bltcopy c imm16 => exact forEach_forEach_answers (fun _ _ _ => copyPixel_answers (K := PassKind) hs rfl rfl) h
  | drawCommit imm16 => exact forEach_forEach_answers (fun _ _ _ => copyPixel_answers (K := PassKind) hs rfl rfl) h
  | interrupt c imm16 => exact absurd rfl (hint c imm16)
  | rectMark | rectOther | nop | init | viewport | depthrange | xyclip | zclip | drawC2 | drawE1 | drawOther | setreg
  | unknown => exact h

section
variable {c : Config} {m : Word} {s t : State}

/-- No command but INTERRUPT sets a status bit. -/
theorem StatusWithin.exec (h : StatusWithin c m s) {i : Instr} (hint : ∀ op imm16, i ≠ .interrupt op imm16)
    (ht : exec i s = .next t) : StatusWithin c m t := by
  have hkeeps : Answers (Machine.exec i s) (StatusWithin c m) (PassFault (StatusWithin c m)) True := by
    by_cases hset : ∃ op imm16, i = .setreg op imm16
    · obtain ⟨op, imm16, rfl⟩ := hset
      exact setregValues_answers (fun w _ h => h.fieldWrite w) (fun _ h _ => ⟨h.cfg, h.bits⟩) (fun _ _ _ => trivial)
        (fun _ _ _ _ h _ => ⟨h.cfg, h.bits⟩) h
    · rw [exec_eq_body fun op imm16 hi => hset ⟨op, imm16, hi⟩]
      exact withOperands_answers h fun ws => andThen_answers
        (commandBody_answers_of_not_interrupt hint ws (fun _ _ _ _ h => ⟨h.cfg, h.bits⟩) h) fun _ h => ⟨h.cfg, h.bits⟩
  exact hkeeps.next ht

/-- The end of a pass sets no status bit, nor does what its caller does next. -/
theorem StatusWithin.finishPass (h : StatusWithin c m s) {p : Pass} {rest : List Pass}
    (ht : finishPass p rest s = .next t) : StatusWithin c m t := by
  have hkeeps : Answers (Machine.finishPass p rest s) (StatusWithin c m) (PassFault (StatusWithin c m)) True :=
    finishPass_answers (fun w _ h => h.fieldWrite w) (fun _ _ h _ => ⟨h.cfg, h.bits⟩) (fun _ _ h => h)
      (fun _ _ _ _ _ _ _ h _ => ⟨h.cfg, h.bits⟩) (fun _ _ _ h _ => ⟨h.cfg, h.bits⟩) (fun _ _ _ _ _ => trivial)
      ⟨h.cfg, h.bits⟩
  exact hkeeps.next ht

/-- A step of the IDLE block sets no status bit, or it is the armed vsync event (41_crtc_validator R157). -/
theorem StatusWithin.step_of_idle_or_vsync (h : StatusWithin c m s) (hp : s.passes = []) (ht : step s = .next t) :
    StatusWithin c m t ∨ (s.vsyncArmed = true ∧ ∃ rest, s.inputs = .vsyncFire :: rest ∧
      t = Machine.raiseStatus { s with inputs := rest } s.cfg.istVsyncBit) := by
  cases hi : s.inputs with
  | nil =>
    simp only [step, hp, idleStep, hi] at ht
    cases ht
    exact .inl h
  | cons act rest =>
    by_cases hfires : act = .vsyncFire ∧ s.vsyncArmed = true
    · obtain ⟨rfl, harmed⟩ := hfires
      cases (step_of_armed_vsync hp hi harmed).symm.trans ht
      exact .inr ⟨harmed, rest, rfl, rfl⟩
    · rw [step_of_idle hp hi] at ht
      have hquiet : act = .vsyncFire → s.vsyncArmed = false := by simpa using hfires
      exact .inl (StatusWithin.hostStep (s := { s with inputs := rest }) ⟨h.cfg, h.bits⟩ hquiet ht)

/-- A step of a pass sets no status bit, or it is an INTERRUPT at the cursor (45_control_ops R235). -/
theorem StatusWithin.step_of_running_or_interrupt (h : StatusWithin c m s) {p : Pass} {rest : List Pass}
    (hp : s.passes = p :: rest) (ht : step s = .next t) :
    StatusWithin c m t ∨ (s.pc.toNat < p.endAddr ∧ ∃ op imm16,
      decodeWord (wordAt s s.pc.toNat) = .interrupt op imm16 ∧
      t = Machine.advance (Machine.raiseStatus s s.cfg.istCendBit) 0) := by
  by_cases hend : s.pc.toNat < p.endAddr
  · rw [step_of_below hp hend, withCommand] at ht
    by_cases hin : s.pc.toNat + 4 ≤ s.cfg.vramSize
    · have hexec : Machine.exec (decodeWord (wordAt s s.pc.toNat)) s = .next t := (withLoad_of_le _ hin).symm.trans ht
      by_cases hint : ∃ op imm16, decodeWord (wordAt s s.pc.toNat) = .interrupt op imm16
      · obtain ⟨op, imm16, hdec⟩ := hint
        rw [hdec] at hexec
        cases hexec
        exact .inr ⟨hend, op, imm16, hdec, rfl⟩
      · exact .inl (h.exec (fun op imm16 hdec => hint ⟨op, imm16, hdec⟩) hexec)
    · rw [withLoad_of_lt _ (Nat.lt_of_not_le hin), rangeFault_eq] at ht
      cases ht
  · rw [step_of_ended hp (Nat.le_of_not_lt hend)] at ht
    exact .inl (h.finishPass ht)

end

/-- Settles O39: the bit that became 1 is one the step raised, which is the armed vsync event or an INTERRUPT. -/
theorem statusBitsComeFromTheirSources : Obligations.StatusBitsComeFromTheirSources := by
  intro s t k ht hclear hset
  have hk : k < 32 := BitVec.lt_of_getLsbD hset
  have hbefore : StatusWithin s.cfg (~~~BitVec.twoPow 32 k) s :=
    (statusWithin_not_twoPow_iff (bit := ⟨k, hk⟩)).mpr ⟨rfl, hclear⟩
  have hafter : ¬ StatusWithin s.cfg (~~~BitVec.twoPow 32 k) t := fun hkept => by
    obtain ⟨_, hstill⟩ := (statusWithin_not_twoPow_iff (bit := ⟨k, hk⟩)).mp hkept
    exact Bool.false_ne_true (hstill.symm.trans hset)
  cases hp : s.passes with
  | nil =>
    obtain ⟨harmed, rest, hi, rfl⟩ := (hbefore.step_of_idle_or_vsync hp ht).resolve_left hafter
    exact .inl ⟨eq_of_raiseStatus_sets (s := { s with inputs := rest }) hclear hset, rfl, harmed, rest, hi⟩
  | cons p rest =>
    obtain ⟨hbelow, op, imm16, hdec, rfl⟩ := (hbefore.step_of_running_or_interrupt hp ht).resolve_left hafter
    exact .inr ⟨eq_of_raiseStatus_sets hclear hset, p, rest, op, imm16, rfl, hbelow, hdec⟩

end Sys2Proof.Machine
end

section
/-! SUPPORT. The IDLE block, and whole runs of an active list (70_reset_and_hazards R300, R306, R319). A run ends with
the first answer that is not a state with an active pass (`ListEnds`): that answer is unique, it exists unless the list
hangs, and a step in an active pass gives it. -/

namespace Sys2Proof.Machine

/-! ### The IDLE block -/

theorem step_of_nothing_waiting {s : State} (hp : s.passes = []) (hi : s.inputs = []) : step s = .next s := by
  simp only [step, hp, idleStep, hi]

/-- 41_crtc_validator R157: the event that is not armed does nothing. -/
theorem vsyncFire_of_unarmed {s : State} (h : s.vsyncArmed = false) : vsyncFire s = s := by
  rw [vsyncFire, if_neg (Bool.eq_false_iff.mp h)]

/-- Settles O7: with no move waiting the block stays; an unarmed vsync move is served by doing nothing. -/
theorem idleBlockWaits : Obligations.IdleBlockWaits := by
  intro s hp
  refine ⟨step_of_nothing_waiting hp, fun rest hi harmed => ?_⟩
  rw [step_of_idle hp hi, hostStep, vsyncFire_of_unarmed (s := { s with inputs := rest }) harmed]

/-- Settles O46: the step is `applyReset`, whose register file is all zeros. -/
theorem resetStepClearsTheRegisters : Obligations.ResetStepClearsTheRegisters := by
  intro s rest hp hi
  exact ⟨applyReset { s with inputs := rest }, step_of_idle hp hi, RegFile.get_zero, rfl⟩

/-! ### What steps keep -/

theorem steps_one (s : State) : steps 1 s = step s := by
  rw [steps_succ]
  cases step s <;> rfl

theorem andThen_eq_next {o : Result} {k : State → Result} {t : State} (h : andThen o k = .next t) :
    ∃ u, o = .next u ∧ k u = .next t := by
  cases o with
  | next u => exact ⟨u, rfl, h⟩
  | fault r => cases h
  | refused r => cases h

/-- What every step keeps, any number of steps keep. -/
theorem steps_keep {P : State → Prop} (hP : ∀ {s t}, P s → step s = .next t → P t) {k : Nat} {s t : State} (h : P s)
    (ht : steps k s = .next t) : P t := by
  induction k generalizing s with
  | zero =>
    cases ht
    exact h
  | succ k ih =>
    rw [steps_succ] at ht
    obtain ⟨u, hu, ht⟩ := andThen_eq_next ht
    exact ih (hP h hu) ht

/-- The state meets the pass invariant and nothing has faulted. -/
structure PassesUnfaulted (s : State) : Prop where
  passesOk : PassesOk s
  faulted  : s.faulted = none

theorem PassesUnfaulted.step {s t : State} (h : PassesUnfaulted s) (ht : step s = .next t) : PassesUnfaulted t := by
  obtain ⟨hfaulted, _, _⟩ := historyAndParametersAreKept s t ht
  exact ⟨stepKeepsPassesOk s t h.passesOk ht, hfaulted.trans h.faulted⟩

/-- Every state that steps reach has at most `depth` active passes. -/
def NestsAtMost (depth : Nat) (s : State) : Prop := ∀ k u, steps k s = .next u → u.passes.length ≤ depth

theorem NestsAtMost.length_le {depth : Nat} {s : State} (h : NestsAtMost depth s) : s.passes.length ≤ depth := h 0 s rfl

theorem NestsAtMost.step {depth : Nat} {s t : State} (h : NestsAtMost depth s) (ht : step s = .next t) :
    NestsAtMost depth t :=
  fun k u hu => h (k + 1) u ((run_succ_next ht).trans hu)

/-- The cursor is under R181's bound for the passes that steps can reach. -/
structure CursorBounded (depth : Nat) (s : State) : Prop where
  cursorOk : CursorOk s
  below    : CursorBelow depth s
  nests    : NestsAtMost depth s

theorem CursorBounded.step {depth : Nat} {s t : State} (h : CursorBounded depth s) (ht : step s = .next t) :
    CursorBounded depth t := by
  obtain ⟨hok, _⟩ := h.cursorOk.step ht
  obtain ⟨hbelow, _, _⟩ := cursorStaysBelowItsBound depth s h.cursorOk h.below
  exact ⟨hok, hbelow t ht (h.nests.step ht).length_le, h.nests.step ht⟩

/-! ### The end of a list -/

/-- The answer is a state with an active pass. -/
def StillRunning (o : Result) : Prop := ∃ u, o = .next u ∧ u.passes ≠ []

theorem stillRunning_next_iff {t : State} : StillRunning (.next t) ↔ t.passes ≠ [] := by
  constructor
  · rintro ⟨_, ⟨⟩, hne⟩
    exact hne
  · exact fun hne => ⟨t, rfl, hne⟩

theorem not_stillRunning_fault (r : Fault) : ¬ StillRunning (.fault r) := by
  rintro ⟨_, ⟨⟩, _⟩

theorem not_stillRunning_refused (r : Refusal) : ¬ StillRunning (.refused r) := by
  rintro ⟨_, ⟨⟩, _⟩

/-- The run of a list that is active in `s` ends with `o`, the first answer without an active pass. -/
def ListEnds (s : State) (o : Result) : Prop :=
  ∃ k, steps k s = o ∧ ¬ StillRunning o ∧ ∀ j < k, StillRunning (steps j s)

section
variable {s : State}

theorem completes_iff {t : State} : Completes s t ↔ ListEnds s (.next t) := by
  unfold ListEnds
  rw [stillRunning_next_iff, not_not]
  rfl

theorem stopsWith_iff {r : Fault} : StopsWith s r ↔ ListEnds s (.fault r) :=
  exists_congr fun _ => and_congr_right fun _ => (and_iff_right (not_stillRunning_fault r)).symm

theorem cutOff_iff : CutOff s ↔ ListEnds s (.refused .cursorWraps) :=
  exists_congr fun _ => and_congr_right fun _ => (and_iff_right (not_stillRunning_refused _)).symm

/-- A list that does not hang ends: the first number of steps after which no pass is active. -/
theorem listEnds_or_hangs (s : State) : (∃ o, ListEnds s o) ∨ Hangs s := by
  classical
  by_cases hstops : ∃ k, ¬ StillRunning (steps k s)
  · exact .inl ⟨_, Nat.find hstops, rfl, Nat.find_spec hstops, fun _ hj => not_not.mp (Nat.find_min hstops hj)⟩
  · exact .inr fun k => not_not.mp fun hk => hstops ⟨k, hk⟩

theorem ListEnds.unique {o o' : Result} (h : ListEnds s o) (h' : ListEnds s o') : o = o' := by
  obtain ⟨k, rfl, hend, hbefore⟩ := h
  obtain ⟨k', rfl, hend', hbefore'⟩ := h'
  rcases Nat.lt_trichotomy k k' with hlt | rfl | hlt
  · exact absurd (hbefore' k hlt) hend
  · rfl
  · exact absurd (hbefore k' hlt) hend'

theorem ListEnds.not_hangs {o : Result} (h : ListEnds s o) : ¬ Hangs s := by
  obtain ⟨k, rfl, hend, _⟩ := h
  exact fun hangs => hend (hangs k)

/-- The answer that ends a list is that of a step in an active pass. -/
theorem ListEnds.last_step {o : Result} (h : ListEnds s o) (hne : s.passes ≠ []) :
    ∃ j u, steps j s = .next u ∧ u.passes ≠ [] ∧ step u = o := by
  obtain ⟨k, hk, hend, hbefore⟩ := h
  cases k with
  | zero => exact absurd (hk ▸ stillRunning_next_iff.mpr hne) hend
  | succ j =>
    obtain ⟨u, hu, hactive⟩ := hbefore j (Nat.lt_succ_self j)
    refine ⟨j, u, hu, hactive, ?_⟩
    rw [← hk, steps_add, hu, ← steps_one]
    rfl

/-- The four ways a list can go on or end: no step is refused but for the cursor. -/
theorem list_outcomes (hne : s.passes ≠ []) :
    (∃ t, Completes s t) ∨ (∃ r, StopsWith s r) ∨ Hangs s ∨ CutOff s := by
  obtain ⟨o, hend⟩ | hangs := listEnds_or_hangs s
  · cases o with
    | next t => exact .inl ⟨t, completes_iff.mpr hend⟩
    | fault r => exact .inr (.inl ⟨r, stopsWith_iff.mpr hend⟩)
    | refused r =>
      obtain ⟨_, u, _, _, hstep⟩ := hend.last_step hne
      obtain ⟨hrefused, _⟩ := everyStopIsARangeFault u
      obtain ⟨rfl, _⟩ := hrefused r hstep
      exact .inr (.inr (.inr (cutOff_iff.mpr hend)))
  · exact .inr (.inr (.inl hangs))

/-- 42_list_processor R181: within the bound on nesting no list is cut off. -/
theorem CursorBounded.not_cutOff (h : CursorBounded 4000000 s) (hne : s.passes ≠ []) : ¬ CutOff s := fun hcut => by
  obtain ⟨_, u, hrun, _, hstep⟩ := (cutOff_iff.mp hcut).last_step hne
  obtain ⟨hcursor, hbelow, _⟩ := steps_keep CursorBounded.step h hrun
  obtain ⟨_, _, hlimit⟩ := cursorStaysBelowItsBound 4000000 u hcursor hbelow
  obtain ⟨_, hnever⟩ := hlimit (Nat.le_refl _)
  exact hnever .cursorWraps hstep

/-- A completed list leaves the block idle: request flag 0, depth 0, no fault. -/
theorem Completes.idle {t : State} (h : Completes s t) (hs : PassesUnfaulted s) :
    t.regs.dlReq = 0 ∧ t.depth = 0 ∧ t.faulted = none := by
  obtain ⟨k, hrun, hidle, _⟩ := h
  obtain ⟨hok, hfaulted⟩ := steps_keep PassesUnfaulted.step hs hrun
  refine ⟨hok.idle hfaulted hidle, ?_, hfaulted⟩
  rw [hok.depth hfaulted, hidle]
  rfl

/-- A fault inside a list leaves the request flag 1 and its record in the fault mark. -/
theorem StopsWith.marks {r : FaultRecord} {t : State} (h : StopsWith s (.vramRange r t)) (hne : s.passes ≠ []) :
    t.regs.dlReq = 1 ∧ t.faulted = some r := by
  obtain ⟨_, u, _, hactive, hstep⟩ := (stopsWith_iff.mp h).last_step hne
  obtain ⟨_, hfault⟩ := everyStopIsARangeFault u
  obtain ⟨_, hmark, _, _, _, _, hpass⟩ := hfault r t hstep
  obtain ⟨_, _, hreq⟩ := hpass hactive
  exact ⟨hreq, hmark⟩

end

/-- Settles O57: the outcomes are the ends of `ListEnds`, of which a list has one unless it hangs; what each leaves
follows from what steps keep and from its last step. -/
theorem runHasOneOfThreeOutcomes : Obligations.RunHasOneOfThreeOutcomes := by
  intro s hok hfaulted hne
  refine ⟨list_outcomes hne, fun hcursor hbelow hnests => CursorBounded.not_cutOff ⟨hcursor, hbelow, hnests⟩ hne,
    fun t hdone => ?_, fun r t hstop => hstop.marks hne, fun r hstop => ?_,
    fun hcut => (cutOff_iff.mp hcut).not_hangs⟩
  · obtain ⟨hreq, hdepth, hclear⟩ := hdone.idle ⟨hok, hfaulted⟩
    have hend := completes_iff.mp hdone
    refine ⟨hreq, hdepth, hclear, fun u hu => ?_, fun r hstop => ?_, hend.not_hangs, fun hcut => ?_⟩
    · cases hend.unique (completes_iff.mp hu)
      rfl
    · cases hend.unique (stopsWith_iff.mp hstop)
    · cases hend.unique (cutOff_iff.mp hcut)
  · have hend := stopsWith_iff.mp hstop
    refine ⟨fun r' hstop' => ?_, hend.not_hangs, fun hcut => ?_⟩
    · cases hend.unique (stopsWith_iff.mp hstop')
      rfl
    · cases hend.unique (cutOff_iff.mp hcut)

end Sys2Proof.Machine
end
